-- ==== Sys2Proof/Word.lean ====
section
/-! DEFINITION. The one data type CRB-FE moves: the byte (00_scope.md section 6: "A byte is an unsigned integer
0..255"; 20_memory.md R63, R69: no value is wider). -/

namespace Sys2Proof

/-- A byte, `0..255`, never signed. -/
abbrev Byte := BitVec 8

end Sys2Proof
end

