-- ==== Sys2Proof/Config.lean ====
section
/-! DEFINITION. The implementation parameters of 00_scope.md section 4 (R12 to R17) and the free values.
The parameters are one record of plain data that every State carries and no step changes (10_state.md R50; log 1), so
a statement about every state is a statement about every configuration. -/

namespace Sys2Proof

/-- The purposes the spec names for reserved function codes (30_encoding.md R108). -/
inductive Purpose
  | configUpdate
  | cardList
  | alarmRecord
  deriving DecidableEq, Repr

/-- The classes of function codes (30_encoding.md R106). -/
inductive CodeClass
  | handled
  | reserved (p : Purpose)
  | illegal
  deriving DecidableEq, Repr

/-- The parameters of the hardware, "fixed before reset" (10_state.md R50). `ALLOW` is `FC_RUN` with the three lists
of reserved codes (R15, R108; DESIGN CHOICE, log 3), so `FC_RUN in ALLOW` holds by construction. -/
structure Config where
  /-- `C`, the ring capacity in bytes (R12). -/
  c : Nat
  /-- `W`, the staging window capacity in bytes (R13). -/
  w : Nat
  /-- `FC_RUN`, the code of "update running state" (R15). -/
  fcRun : Byte
  /-- The reserved codes for configuration update. -/
  configCodes : List Byte
  /-- The reserved codes for card-list management. -/
  cardCodes : List Byte
  /-- The reserved codes for alarm records. -/
  alarmCodes : List Byte
  /-- `RUN_SIZE` (R16). -/
  runSize : Nat
  /-- `CFG_SIZE` (R16). -/
  cfgSize : Nat
  /-- `FORCE_ADVANCE` (R17, R146, R147). -/
  forceAdvance : Bool
  /-- `CNT_W`, the width of each counter (R17, R51). -/
  cntW : Nat
  deriving DecidableEq, Repr

namespace Config

/-- `ALLOW`, the allow-list (R15). -/
def allow (k : Config) : List Byte :=
  k.fcRun :: (k.configCodes ++ k.cardCodes ++ k.alarmCodes)

/-- The class of a function code (30_encoding.md R106). -/
def classOf (k : Config) (fc : Byte) : CodeClass :=
  if fc = k.fcRun then .handled
  else if fc ∈ k.configCodes then .reserved .configUpdate
  else if fc ∈ k.cardCodes then .reserved .cardList
  else if fc ∈ k.alarmCodes then .reserved .alarmRecord
  else .illegal

/-- The constraints of R12, R13 and R16. -/
abbrev wf (k : Config) : Prop := 2 ≤ k.c ∧ 5 ≤ k.w ∧ k.runSize ≤ 255

/-- The test configuration TC-A of decision D29, with the default `CNT_W = 32` (R17). D29 gives its reserved codes
02, 03 and 04 no purpose; one each is the model's (DESIGN CHOICE, log 3). -/
def tcA : Config where
  c := 16
  w := 16
  fcRun := 0x01
  configCodes := [0x02]
  cardCodes := [0x03]
  alarmCodes := [0x04]
  runSize := 2
  cfgSize := 2
  forceAdvance := true
  cntW := 32

/-- FREE VALUE (log 5). The bytes a RESET leaves in RUN and CFG, which the spec leaves unspecified (10_state.md R60,
70_reset_and_hazards.md R247). No body: nothing can be proved of a value of it. The argument is `State.freeCount`. -/
opaque freeByte : Nat → Byte

end Config

end Sys2Proof
end

