-- ==== Sys2Proof/Syntax.lean ====
section
/-! DEFINITION. The instructions: one constructor per row of spec/opcode_table.json. Eleven are the interface operations
(30_encoding.md R113, R115); five are the classes of wire frame (R106), which the scanner decodes at `SW[OFF]`
(10_state.md R33). -/

namespace Sys2Proof

inductive Instr
  /-- RESET (R244). -/
  | reset
  /-- PUSH(b) (R119). -/
  | push (b : Byte)
  /-- PUSH_MANY(bytes, n), `n` the length of the list (R122). -/
  | pushMany (bytes : List Byte)
  /-- HAS_DATA (R123). -/
  | hasData
  /-- TAKE_BYTE (R126, R127). -/
  | takeByte
  /-- SERVICE (R132). -/
  | service
  /-- DISPATCH(fc, L, P), `L` the length of the payload (R168). -/
  | dispatch (fc : Byte) (payload : List Byte)
  /-- SEND_FRAME(fc, P, L), `L` the length of the payload (R185). -/
  | sendFrame (fc : Byte) (payload : List Byte)
  /-- TRANSMIT_ONE(b) (R193). -/
  | transmitOne (b : Byte)
  /-- SNAPSHOT_RUNNING_STATE (R176). -/
  | snapshotRunningState
  /-- SNAPSHOT_CONFIG (R177). -/
  | snapshotConfig
  /-- A frame of the handled class: `AA 55 FC_RUN L payload cks` (R107, R171). -/
  | frameUpdateRunningState (payload : List Byte) (cks : Byte)
  /-- A frame with a code reserved for configuration update (R108, R172). -/
  | frameConfigUpdate (fc : Byte) (payload : List Byte) (cks : Byte)
  /-- A frame with a code reserved for card-list management (R108, R172). -/
  | frameCardList (fc : Byte) (payload : List Byte) (cks : Byte)
  /-- A frame with a code reserved for alarm records (R108, R172). -/
  | frameAlarmRecord (fc : Byte) (payload : List Byte) (cks : Byte)
  /-- A header `AA 55 fc len` with a code outside ALLOW (R109, R144). It is no frame start, so what follows the header
  is no part of it (log 25). -/
  | frameIllegal (fc : Byte) (len : Byte)
  deriving DecidableEq, Repr

end Sys2Proof
end

