-- ==== Sys2Proof/WellFormed.lean ====
section
/-! DEFINITION. Which instructions can be presented: a payload has at most 255 bytes, since its length is one byte
(30_encoding.md R96, 43_frame_builder.md R183), and a frame's code is of the frame's class (R106). -/

namespace Sys2Proof

/-- A payload whose length fits the 8-bit length (R96, R183). -/
def payloadFits (p : List Byte) : Bool := p.length ≤ 255

/-- The instruction can be presented to a machine of configuration `k`. -/
def WellFormed (k : Config) : Instr → Bool
  | .reset => true
  | .push _ => true
  | .pushMany _ => true
  | .hasData => true
  | .takeByte => true
  | .service => true
  | .dispatch _ p => payloadFits p
  | .sendFrame _ p => payloadFits p
  | .transmitOne _ => true
  | .snapshotRunningState => true
  | .snapshotConfig => true
  | .frameUpdateRunningState p _ => payloadFits p
  | .frameConfigUpdate fc p _ => payloadFits p && (k.classOf fc = .reserved .configUpdate)
  | .frameCardList fc p _ => payloadFits p && (k.classOf fc = .reserved .cardList)
  | .frameAlarmRecord fc p _ => payloadFits p && (k.classOf fc = .reserved .alarmRecord)
  | .frameIllegal fc _ => decide (k.classOf fc = .illegal)

end Sys2Proof
end

