-- ==== Sys2Proof/Decode.lean ====
section
/-! DEFINITION. Bytes to instructions and back. A frame is decoded as 30_encoding.md R90 to R112 lay it out. An
operation has only a 4-bit tag in the spec (R115); its operands follow the tag byte in the model's own form (DESIGN
CHOICE, log 11). Every function is total and rejects by name. -/

namespace Sys2Proof

/-! ## The frame format (R14, R90 to R99) -/

/-- `sync_byte_1` (R93). -/
def sync1 : Byte := 0xAA

/-- `sync_byte_2` (R94). -/
def sync2 : Byte := 0x55

/-- `sum8(s) = (sum of the bytes of s) mod 256`, `sum8(empty) = 0` (00_scope.md section 6; R99). -/
def sum8 (s : List Byte) : Byte := BitVec.ofNat 8 (s.map BitVec.toNat).sum

/-- The four header bytes (R91). -/
def header (fc len : Byte) : List Byte := [sync1, sync2, fc, len]

/-- The header and payload of a frame, the bytes its checksum covers (R99). -/
def covered (fc : Byte) (p : List Byte) : List Byte :=
  header fc (BitVec.ofNat 8 p.length) ++ p

/-- A frame with a given checksum byte (R91). -/
def frameBytes (fc : Byte) (p : List Byte) (cks : Byte) : List Byte := covered fc p ++ [cks]

/-- The frame encoder `ENC(fc, P)` (R104). -/
def encFrame (fc : Byte) (p : List Byte) : List Byte := frameBytes fc p (sum8 (covered fc p))

/-- The length of a frame with payload length `l`: `4 + L + 1` (R92), on natural numbers (R36). -/
def frameLen (l : Nat) : Nat := 4 + l + 1

/-- A well-formed frame (R103). -/
def wellFormedFrame (s : List Byte) : Bool :=
  match s with
  | b0 :: b1 :: fc :: len :: body =>
    b0 = sync1 ∧ b1 = sync2 ∧ body.length = len.toNat + 1 ∧
      body[len.toNat]? = some (sum8 (header fc len ++ body.take len.toNat))
  | _ => false

/-- The frame decoder `DEC(s) = (s[2], s[4 .. 4 + s[3]))`, defined on well-formed frames (R105). -/
def decFrame (s : List Byte) : Option (Byte × List Byte) :=
  match s with
  | _ :: _ :: fc :: len :: body =>
    if wellFormedFrame s then some (fc, body.take len.toNat) else none
  | _ => none

/-! ## Decoding -/

/-- Why bytes are no instruction. -/
inductive DecodeError
  /-- No byte at all. -/
  | noBytes
  /-- A tag byte that selects no operation (R115). -/
  | unusedTag (t : Byte)
  /-- The bytes end inside an operation's operands, or a PUSH_MANY marker is neither 0 nor 1. -/
  | badOperands
  /-- Fewer than four bytes: no whole header (R141). -/
  | shortHeader
  /-- The two first bytes are not the sync marker (R142). -/
  | noMarker
  /-- An allowed header whose payload and checksum are not all there (R148); it carries the code and the length. -/
  | incomplete (fc : Byte) (len : Byte)
  deriving DecidableEq, Repr

/-- The first `n` bytes and the rest, if there are `n`. -/
def takeBytes : Nat → List Byte → Option (List Byte × List Byte)
  | 0, bs => some ([], bs)
  | _ + 1, [] => none
  | n + 1, b :: bs =>
    match takeBytes n bs with
    | some (p, rest) => some (b :: p, rest)
    | none => none

/-- The bytes of a PUSH_MANY: a marker 1 before each byte and a marker 0 after the last, so that the batch has no
largest length (R122: "it is a nat"; log 11). -/
def takeMarked : List Byte → Option (List Byte × List Byte)
  | [] => none
  | [m] => if m = 0 then some ([], []) else none
  | m :: b :: bs =>
    if m = 0 then some ([], b :: bs)
    else if m = 1 then
      match takeMarked bs with
      | some (p, rest) => some (b :: p, rest)
      | none => none
    else none

/-- A function code, a length byte and that many payload bytes (R168, R183). -/
def takePayload : List Byte → Option (Byte × List Byte × List Byte)
  | fc :: len :: bs =>
    match takeBytes len.toNat bs with
    | some (p, rest) => some (fc, p, rest)
    | none => none
  | _ => none

/-- An operation request: the tag of R115 in a byte, then its operands (log 11, 12). -/
def decodeOp : List Byte → Except DecodeError (Instr × List Byte)
  | [] => .error .noBytes
  | t :: bs =>
    match t.toNat with
    | 0 => .ok (.reset, bs)
    | 1 =>
      match bs with
      | b :: rest => .ok (.push b, rest)
      | [] => .error .badOperands
    | 2 =>
      match takeMarked bs with
      | some (p, rest) => .ok (.pushMany p, rest)
      | none => .error .badOperands
    | 3 => .ok (.hasData, bs)
    | 4 => .ok (.takeByte, bs)
    | 5 => .ok (.service, bs)
    | 6 =>
      match takePayload bs with
      | some (fc, p, rest) => .ok (.dispatch fc p, rest)
      | none => .error .badOperands
    | 7 =>
      match takePayload bs with
      | some (fc, p, rest) => .ok (.sendFrame fc p, rest)
      | none => .error .badOperands
    | 8 =>
      match bs with
      | b :: rest => .ok (.transmitOne b, rest)
      | [] => .error .badOperands
    | 9 => .ok (.snapshotRunningState, bs)
    | 10 => .ok (.snapshotConfig, bs)
    | _ => .error (.unusedTag t)

/-- The frame instruction of a function code inside ALLOW, by its class (R106). -/
def frameOf (k : Config) (fc : Byte) (p : List Byte) (cks : Byte) : Instr :=
  match k.classOf fc with
  | .handled => .frameUpdateRunningState p cks
  | .reserved .configUpdate => .frameConfigUpdate fc p cks
  | .reserved .cardList => .frameCardList fc p cks
  | .reserved .alarmRecord => .frameAlarmRecord fc p cks
  | .illegal => .frameIllegal fc (BitVec.ofNat 8 p.length)

/-- The candidate at the start of `bs`, tested in the order of R140: whole header (R141), sync marker (R142), function
code (R144), completeness (R148). A header with a code outside ALLOW is decided by its four bytes alone. The checksum
is not tested here: it is the frame's meaning to do so (R149). -/
def decodeFrame (k : Config) (bs : List Byte) : Except DecodeError (Instr × List Byte) :=
  match bs with
  | b0 :: b1 :: fc :: len :: rest =>
    if b0 = sync1 ∧ b1 = sync2 then
      if k.classOf fc = .illegal then .ok (.frameIllegal fc len, rest)
      else
        match takeBytes len.toNat rest with
        | some (p, cks :: rest') => .ok (frameOf k fc p cks, rest')
        | _ => .error (.incomplete fc len)
    else .error .noMarker
  | _ => .error .shortHeader

/-- Decoding any bytes: a first byte `AA` begins a frame, any other an operation. -/
def decode (k : Config) (bs : List Byte) : Except DecodeError (Instr × List Byte) :=
  match bs with
  | [] => .error .noBytes
  | b :: _ => if b = sync1 then decodeFrame k bs else decodeOp bs

/-! ## Encoding -/

/-- The marked bytes of a PUSH_MANY (log 11). -/
def markBytes : List Byte → List Byte
  | [] => [0]
  | b :: bs => 1 :: b :: markBytes bs

/-- The bytes of an instruction: tag and operands of an operation (R115, log 11), the wire bytes of a frame (R91). -/
def encode (k : Config) : Instr → List Byte
  | .reset => [0x00]
  | .push b => [0x01, b]
  | .pushMany p => 0x02 :: markBytes p
  | .hasData => [0x03]
  | .takeByte => [0x04]
  | .service => [0x05]
  | .dispatch fc p => 0x06 :: fc :: BitVec.ofNat 8 p.length :: p
  | .sendFrame fc p => 0x07 :: fc :: BitVec.ofNat 8 p.length :: p
  | .transmitOne b => [0x08, b]
  | .snapshotRunningState => [0x09]
  | .snapshotConfig => [0x0A]
  | .frameUpdateRunningState p cks => frameBytes k.fcRun p cks
  | .frameConfigUpdate fc p cks => frameBytes fc p cks
  | .frameCardList fc p cks => frameBytes fc p cks
  | .frameAlarmRecord fc p cks => frameBytes fc p cks
  | .frameIllegal fc len => header fc len

/-! ## The words of spec/opcode_table.json -/

/-- The bytes of a table word of `nbits` bits. A frame row's word is 32 bits with "first wire byte in bits 31:24"; an
operation row's word is its tag byte, least significant byte first if there are more. Zeros follow up to the longest
instruction (log 26). -/
def tableBytes (nbits w : Nat) : List Byte :=
  (if nbits = 32 then
    [BitVec.ofNat 8 (w / 16777216), BitVec.ofNat 8 (w / 65536), BitVec.ofNat 8 (w / 256), BitVec.ofNat 8 w]
  else
    (List.range ((nbits + 7) / 8)).map fun j => BitVec.ofNat 8 (w / 2 ^ (8 * j))) ++ List.replicate 256 0

/-- The instruction of a table word. A frame's class needs ALLOW and FC_RUN, which here are those of the configuration
after reset (log 26). -/
def decodeTableWord (nbits w : Nat) : Option Instr :=
  match decode Config.tcA (tableBytes nbits w) with
  | .ok (i, _) => some i
  | .error _ => none

end Sys2Proof
end

