-- ==== Sys2Proof/Machine/State.lean ====
section
/-! DEFINITION. The state of CRB-FE as plain data: the registers and arrays of 10_state.md R25, the configuration it
runs under (R50, log 1), what stands at its ports (00_scope.md R18 to R24), and the ghost sequences of R29. -/

namespace Sys2Proof.Machine

/-- An array as the cells written since reset, indexes strictly rising. An index that is not listed has no value, so
reading it faults (10_state.md R62, 60_exceptions.md R243; log 6). -/
abbrev Memory := List Host.Cell

/-- The three indexed arrays (20_memory.md R63). RUN and CFG are read and replaced only whole (R78). -/
inductive Space
  | rb
  | sw
  | txb
  deriving DecidableEq, Repr

/-- The phases of the scanner (10_state.md R34). -/
inductive Phase
  | idle
  | drain
  | gate
  | scan
  | compact
  deriving DecidableEq, Repr

/-- The diagnostic events (60_exceptions.md R214). -/
inductive Event
  | drop
  | sync
  | fc
  | oversize
  | cks
  | frame
  | noHandler
  | dlen
  | sinkFail
  | underrun
  deriving DecidableEq, Repr

/-- The diagnostic counters `CNT_x` (10_state.md R51), each below `2 ^ CNT_W`. -/
structure Counters where
  drop : Nat
  sync : Nat
  fc : Nat
  oversize : Nat
  cks : Nat
  frame : Nat
  noHandler : Nat
  dlen : Nat
  sinkFail : Nat
  underrun : Nat
  deriving DecidableEq, Repr

/-- Which agent takes the next atomic step (00_scope.md R10): the next operation request is issued, the producer
pushes the next byte of its batch, the consumer goes on with its pass, the sender goes on with its send. -/
inductive Turn
  | request
  | producer
  | consumer
  | sender
  deriving DecidableEq, Repr

/-- What a port shows (00_scope.md R11; log 21). -/
inductive Obs
  /-- A diagnostic event. `l` is ghost: the length latched in the iteration that emitted it, 0 for other events
  (44_system_properties.md R211, 60_exceptions.md R226). -/
  | event (e : Event) (l : Nat)
  /-- The event DISPATCH(fc, L, P) (R20, R168). -/
  | dispatch (fc : Byte) (l : Nat) (payload : List Byte)
  /-- TRANSMIT_ONE(b) with the SINK's answer; the byte is emitted when `ok` (R193). -/
  | transmit (b : Byte) (ok : Bool)
  /-- The result of HAS_DATA (R123). -/
  | hasData (v : Bool)
  /-- The result of a TAKE_BYTE request (R126, R127). -/
  | tookByte (v : Byte)
  /-- The bytes returned by SNAPSHOT_RUNNING_STATE (R176). -/
  | snapshotRun (bytes : List Byte)
  /-- The bytes returned by SNAPSHOT_CONFIG (R177). -/
  | snapshotConfig (bytes : List Byte)
  deriving DecidableEq, Repr

/-- The machine. -/
structure State where
  /-- The parameters (R50). -/
  config : Config
  /-- RB, the ring buffer (R26). -/
  rb : Memory
  /-- WR, the write cursor (R27). -/
  wr : Nat
  /-- RD, the read cursor (R28). -/
  rd : Nat
  /-- SW, the staging window (R30). -/
  sw : Memory
  /-- FILL (R31). -/
  fill : Nat
  /-- OFF, the scan offset (R33). -/
  off : Nat
  /-- PH (R34). -/
  ph : Phase
  /-- FC_LATCH (R35). -/
  fcLatch : Byte
  /-- L_LATCH (R36). -/
  lLatch : Byte
  /-- SUM (R37). -/
  sum : Byte
  /-- IDX (R38). -/
  idx : Nat
  /-- TXB, the transmit staging buffer (R39). -/
  txb : Memory
  /-- TXLEN (R40). -/
  txlen : Nat
  /-- TXI (R41). -/
  txi : Nat
  /-- RUN, the running-state record (R42). -/
  run : List Byte
  /-- CFG, the configuration record (R43). -/
  cfg : List Byte
  /-- The counters CNT_x (R51). -/
  counters : Counters
  /-- Which agents move next, in order; empty leaves the choice to `defaultTurn` (R10; log 9, 10). -/
  turns : List Turn
  /-- The operation requests not yet issued, encoded (R113, R115; log 11). -/
  requests : List Byte
  /-- The bytes of PUSH_MANY not yet pushed (R122; log 13). -/
  batch : List Byte
  /-- SERVICE requests held until the pass ends (41_frame_scanner.md R134). -/
  heldServices : Nat
  /-- SEND_FRAME requests held until the send ends, with the payload as it was presented (43_frame_builder.md R198;
  log 15, 29). -/
  heldSends : List (Byte × List Byte)
  /-- The SINK's answers to come; when they are used up it answers ok (R193, R116; log 17). -/
  sinkAnswers : List Bool
  /-- What the ports have shown since the last RESET, oldest first (R11; log 21). -/
  trace : List Obs
  /-- Ghost: the bytes of accepted PUSHes since reset; NW is its length (R29). -/
  accepted : List Byte
  /-- Ghost: the bytes taken since reset; NR is its length (R29). -/
  taken : List Byte
  /-- The model's own: which free value comes next (log 5). -/
  freeCount : Nat
  deriving DecidableEq, Repr

/-- Why the model stops. The hardware never stops (60_exceptions.md R213); both are model faults of R243 and both are
safe: no state that meets the invariant `Inv` reaches one. -/
inductive Fault
  /-- Raised by a read of an array element that nothing has written since reset (R62, R243a). Safe. -/
  | unwrittenRead (sp : Space) (i : Nat)
  /-- Raised by an access to an index outside its array (20_memory.md R63). Safe. -/
  | outOfRange (sp : Space) (i : Nat)
  deriving DecidableEq, Repr

/-- Why the model gives a request no step. -/
inductive Refusal
  /-- Raised by an arm of `exec` that has no meaning yet. Safe. -/
  | notModelled (mnemonic : String)
  /-- Raised by the fetch of a request whose tag byte selects no operation (30_encoding.md R115). Safe. -/
  | unusedTag (t : Byte)
  /-- Raised by the fetch of a request that ends inside its operands (the model's own encoding, log 11). Safe. -/
  | badOperands
  /-- Raised by the fetch of a request for DISPATCH or TRANSMIT_ONE, which no agent but SERVICE and SEND_FRAME issues
  (30_encoding.md R114, 42_frame_dispatcher.md R167; log 19). It carries the tag byte. Safe. -/
  | notOffered (t : Byte)
  /-- Raised by SEND_FRAME and DISPATCH with more than 255 payload bytes, a length that "cannot be presented"
  (00_scope.md R20, R21; log 12). No decoded request does this. Safe. -/
  | lengthNotPresentable
  deriving DecidableEq, Repr

/-- Every counter 0 (R61). -/
def Counters.zero : Counters := ⟨0, 0, 0, 0, 0, 0, 0, 0, 0, 0⟩

/-- Right after RESET (10_state.md R57 to R62, 70_reset_and_hazards.md R244), under TC-A (log 2). RUN and CFG, which the spec
leaves unspecified, are all zeros here (DESIGN CHOICE, log 4). Nothing is requested (R245). -/
def State.reset : State where
  config := Config.tcA
  rb := []
  wr := 0
  rd := 0
  sw := []
  fill := 0
  off := 0
  ph := .idle
  fcLatch := 0
  lLatch := 0
  sum := 0
  idx := 0
  txb := []
  txlen := 0
  txi := 0
  run := [0, 0]
  cfg := [0, 0]
  counters := Counters.zero
  turns := []
  requests := []
  batch := []
  heldServices := 0
  heldSends := []
  sinkAnswers := []
  trace := []
  accepted := []
  taken := []
  freeCount := 0

end Sys2Proof.Machine
end

