-- ==== Sys2Proof/Machine/Operands.lean ====
section
/-! DEFINITION. Access to the arrays and the cursor arithmetic: every byte an operation reads or writes goes through
`load` and `store` (00_scope.md section 6, MemRead and MemWrite). -/

namespace Sys2Proof.Machine

/-- What an operation that may fault answers. -/
abbrev Answer := Host.Outcome State Fault Refusal

/-! ## Memory -/

/-- The canonical form: indexes strictly rising. -/
abbrev Memory.wf (m : Memory) : Prop := (m.map Prod.fst).Pairwise (· < ·)

/-- The byte at an index, none if nothing has been written there. -/
def Memory.read : Memory → Nat → Option Byte
  | [], _ => none
  | (k, v) :: r, i => if i = k then some v else Memory.read r i

/-- The memory with one byte written, in canonical form. -/
def Memory.write : Memory → Nat → Byte → Memory
  | [], i, b => [(i, b)]
  | (k, v) :: r, i, b =>
    if i < k then (i, b) :: (k, v) :: r
    else if i = k then (i, b) :: r
    else (k, v) :: Memory.write r i b

/-- The size of an array (20_memory.md R63). -/
def Space.size (k : Config) : Space → Nat
  | .rb => k.c
  | .sw => k.w
  | .txb => 260

/-- `MemRead(A, i, 1)`. -/
def load (k : Config) (sp : Space) (m : Memory) (i : Nat) : Except Fault Byte :=
  if i < sp.size k then
    match m.read i with
    | some b => .ok b
    | none => .error (.unwrittenRead sp i)
  else .error (.outOfRange sp i)

/-- `MemWrite(A, i, 1, v)`. -/
def store (k : Config) (sp : Space) (m : Memory) (i : Nat) (v : Byte) : Except Fault Memory :=
  if i < sp.size k then .ok (m.write i v) else .error (.outOfRange sp i)

/-- `A[i .. i + n)`. -/
def loadRange (k : Config) (sp : Space) (m : Memory) : Nat → Nat → Except Fault (List Byte)
  | _, 0 => .ok []
  | i, n + 1 =>
    match load k sp m i with
    | .error f => .error f
    | .ok b =>
      match loadRange k sp m (i + 1) n with
      | .error f => .error f
      | .ok bs => .ok (b :: bs)

/-- `A[i + j] <- bs[j]` for each `j`, ascending. -/
def storeRange (k : Config) (sp : Space) : Memory → Nat → List Byte → Except Fault Memory
  | m, _, [] => .ok m
  | m, i, b :: bs =>
    match store k sp m i b with
    | .error f => .error f
    | .ok m' => storeRange k sp m' (i + 1) bs

/-- `for i in 0 .. n-1: A[to + i] <- A[from + i]`, ascending, one byte read and written at a time, so that overlapping
ranges copy as R155 says. -/
def copyDown (k : Config) (sp : Space) : Memory → Nat → Nat → Nat → Except Fault Memory
  | m, _, _, 0 => .ok m
  | m, src, dst, n + 1 =>
    match load k sp m src with
    | .error f => .error f
    | .ok b =>
      match store k sp m dst b with
      | .error f => .error f
      | .ok m' => copyDown k sp m' (src + 1) (dst + 1) n

/-- An operation's answer: its next state, or its fault. -/
def answerOf : Except Fault State → Answer
  | .ok s => .next s
  | .error f => .fault f

/-! ## Cursors (40_ring_buffer.md R117, R118, R124) -/

/-- `inc_C(x)`: compare and wrap, for any `C`. -/
def incC (k : Config) (x : Nat) : Nat := if x + 1 = k.c then 0 else x + 1

/-- The occupancy `(WR - RD) mod C`. -/
def occ (s : State) : Nat := (s.wr + s.config.c - s.rd) % s.config.c

/-- The live bytes `RB[RD], RB[inc_C(RD)], ...` up to but excluding `RB[WR]` (00_scope.md glossary); an element nothing
has written, which no state that meets `Inv` has there, shows as 0. -/
def liveBytes (s : State) : List Byte :=
  (List.range (occ s)).map fun j => (s.rb.read ((s.rd + j) % s.config.c)).getD 0

/-- The window's meaningful bytes `SW[0 .. FILL)` (10_state.md R30), unwritten elements shown as 0. -/
def windowBytes (s : State) : List Byte :=
  (List.range s.fill).map fun j => (s.sw.read j).getD 0

/-! ## Free values -/

/-- The free values from a count on (log 5). -/
def freeBytes (at0 n : Nat) : List Byte := (List.range n).map fun j => Config.freeByte (at0 + j)

end Sys2Proof.Machine
end

