-- ==== Sys2Proof/Machine/Flags.lean ====
section
/-! DEFINITION. The four combinational flags and the status port (10_state.md R44 to R47, R52), and the tests the scanner
makes on a length (41_frame_scanner.md R141, R146, R148). There is no other flag (R48). -/

namespace Sys2Proof.Machine

/-- `HAS_DATA = (RD != WR)` (R44, R123). -/
def hasDataFlag (s : State) : Bool := s.rd ≠ s.wr

/-- `RB_FULL = (inc_C(WR) = RD)` (R45). -/
def rbFull (s : State) : Bool := incC s.config s.wr = s.rd

/-- `SVC_BUSY = (PH != IDLE)` (R46). -/
def svcBusy (s : State) : Bool := s.ph ≠ .idle

/-- `TX_BUSY = (TXLEN != 0)` (R47). -/
def txBusy (s : State) : Bool := s.txlen ≠ 0

/-- The status port: bit 0 HAS_DATA, bit 1 RB_FULL, bit 2 SVC_BUSY, bit 3 TX_BUSY (R52). -/
def statusPort (s : State) : BitVec 4 :=
  BitVec.ofNat 4 ((hasDataFlag s).toNat + 2 * (rbFull s).toNat + 4 * (svcBusy s).toNat + 8 * (txBusy s).toNat)

/-- Test 3: a frame of payload length `l` can never fit the window, and such candidates are skipped (R146, R147). -/
def oversize (k : Config) (l : Nat) : Bool := k.forceAdvance ∧ k.w < frameLen l

/-- Test 0: fewer than four bytes are left (R141). -/
def windowExhausted (s : State) : Bool := s.fill - s.off < 4

/-- Test 4: the candidate's bytes are not all in the window (R148). -/
def candidateIncomplete (l : Nat) (s : State) : Bool := s.fill < s.off + frameLen l

end Sys2Proof.Machine
end

