-- ==== Sys2Proof/Machine/Ops.lean ====
section
/-! DEFINITION. The shared operations. CRB-FE takes no exception (60_exceptions.md R213: no vector, no saved state); what
stands in its place is `emit`, the one operation by which every error condition is reported (R214, R228), and there is
nothing to return from (R231, R232). -/

namespace Sys2Proof.Machine

/-! ## Ports and events -/

/-- A port shows something (00_scope.md R11). -/
def note (o : Obs) (s : State) : State := { s with trace := s.trace ++ [o] }

/-- The code of an event, as the table of 60_exceptions.md R214 numbers it. No step reads it: nothing depends on the numbers
(92_eei_decisions.md D12). -/
def Event.code : Event → Nat
  | .drop => 1
  | .sync => 2
  | .fc => 3
  | .oversize => 4
  | .cks => 5
  | .frame => 6
  | .noHandler => 7
  | .dlen => 8
  | .sinkFail => 9
  | .underrun => 10

/-- The event a code of R214's table stands for; the table has no other code. -/
def Event.ofCode : Nat → Option Event
  | 1 => some .drop
  | 2 => some .sync
  | 3 => some .fc
  | 4 => some .oversize
  | 5 => some .cks
  | 6 => some .frame
  | 7 => some .noHandler
  | 8 => some .dlen
  | 9 => some .sinkFail
  | 10 => some .underrun
  | _ => none

/-- The counter of an event (10_state.md R51). -/
def Counters.get (c : Counters) : Event → Nat
  | .drop => c.drop
  | .sync => c.sync
  | .fc => c.fc
  | .oversize => c.oversize
  | .cks => c.cks
  | .frame => c.frame
  | .noHandler => c.noHandler
  | .dlen => c.dlen
  | .sinkFail => c.sinkFail
  | .underrun => c.underrun

/-- One more, modulo `2 ^ CNT_W` (R51, R268). -/
def bumped (k : Config) (n : Nat) : Nat := (n + 1) % 2 ^ k.cntW

/-- The counters after one event (R51). -/
def Counters.bump (k : Config) (c : Counters) : Event → Counters
  | .drop => { c with drop := bumped k c.drop }
  | .sync => { c with sync := bumped k c.sync }
  | .fc => { c with fc := bumped k c.fc }
  | .oversize => { c with oversize := bumped k c.oversize }
  | .cks => { c with cks := bumped k c.cks }
  | .frame => { c with frame := bumped k c.frame }
  | .noHandler => { c with noHandler := bumped k c.noHandler }
  | .dlen => { c with dlen := bumped k c.dlen }
  | .sinkFail => { c with sinkFail := bumped k c.sinkFail }
  | .underrun => { c with underrun := bumped k c.underrun }

/-- `emit EV_x`: the event's pulse and its counter, in the step that detects it; control goes on (R214, R226, R228).
`l` is the ghost length of `Obs.event`. -/
def emit (e : Event) (l : Nat) (s : State) : State :=
  note (.event e l) { s with counters := s.counters.bump s.config e }

/-! ## Ring buffer (40_ring_buffer.md) -/

/-- PUSH(b), one atomic step (R119, R120, R121). -/
def pushOp (b : Byte) (s : State) : Except Fault State :=
  if incC s.config s.wr = s.rd then .ok (emit .drop 0 s)
  else
    match store s.config .rb s.rb s.wr b with
    | .error f => .error f
    | .ok m => .ok { s with rb := m, wr := incC s.config s.wr, accepted := s.accepted ++ [b] }

/-- TAKE_BYTE for `RD != WR`, one atomic step (R126, R128). -/
def takeOp (s : State) : Except Fault (Byte × State) :=
  match load s.config .rb s.rb s.rd with
  | .error f => .error f
  | .ok v => .ok (v, { s with rd := incC s.config s.rd, taken := s.taken ++ [v] })

/-! ## Dispatcher (42_frame_dispatcher.md) -/

/-- HANDLE_RUN(L, P): replace all of RUN, or reject a length that is not RUN_SIZE (R170, R171). -/
def handleRun (p : List Byte) (s : State) : State :=
  if p.length = s.config.runSize then { s with run := p } else emit .dlen 0 s

/-- DISPATCH(fc, L, P): the observable event, then the handler (R168, R169); a code without a handler is a no-op that
emits EV_NOHANDLER, inside ALLOW (R172) or not (R173; log 20). -/
def dispatchOp (fc : Byte) (p : List Byte) (s : State) : State :=
  let s1 := note (.dispatch fc p.length p) s
  if fc = s.config.fcRun then handleRun p s1 else emit .noHandler 0 s1

/-! ## Frame scanner (41_frame_scanner.md) -/

/-- The scan ends and compaction follows, `OFF` unchanged (R141, R148). -/
def endScan (s : State) : State := { s with ph := .compact }

/-- `OFF` moves on by `n` (10_state.md R33). -/
def advance (n : Nat) (s : State) : State := { s with off := s.off + n }

/-- Test 1 fires: no sync marker (R142). -/
def rejectSync (s : State) : State := advance 1 (emit .sync 0 s)

/-- FC_LATCH and L_LATCH take the candidate's code and length (R144, R145). -/
def latch (fc : Byte) (l : Nat) (s : State) : State :=
  { s with fcLatch := fc, lLatch := BitVec.ofNat 8 l }

/-- Test 2 fires: the code, which is latched, is not in ALLOW (R144). -/
def rejectCode (fc : Byte) (s : State) : State :=
  advance 1 (emit .fc 0 { s with fcLatch := fc })

/-- Test 3 fires: the length can never fit (R146). -/
def rejectOversize (fc : Byte) (l : Nat) (s : State) : State :=
  advance 1 (emit .oversize l (latch fc l s))

/-- The checksum validator: SUM holds the sum of the `4 + L` covered bytes (R149, R37) and IDX has run over them (R38,
log 23). -/
def sumUp (fc : Byte) (p : List Byte) (s : State) : State :=
  { s with sum := sum8 (covered fc p), idx := 4 + p.length }

/-- Test 5 fires: checksum mismatch, on by `L + 1` (R150). -/
def rejectChecksum (l : Nat) (s : State) : State := advance (l + 1) (emit .cks l s)

/-- Accept: EV_FRAME, DISPATCH, on by `4 + L + 1` (R151, R152). -/
def acceptFrame (fc : Byte) (p : List Byte) (s : State) : State :=
  advance (frameLen p.length) (dispatchOp fc p (emit .frame p.length s))

/-- A scan iteration on a candidate that has the sync marker, the code `fc`, the payload `p` and the checksum byte
`cks`: tests 0, 2, 3, 4, 5 and accept, the first that fires deciding (R140, R157, R229). -/
def frameIteration (fc : Byte) (p : List Byte) (cks : Byte) (s : State) : State :=
  if windowExhausted s then endScan s
  else if fc ∉ s.config.allow then rejectCode fc s
  else if oversize s.config p.length then rejectOversize fc p.length s
  else if candidateIncomplete p.length s then endScan (latch fc p.length s)
  else if sum8 (covered fc p) = cks then acceptFrame fc p (sumUp fc p (latch fc p.length s))
  else rejectChecksum p.length (sumUp fc p (latch fc p.length s))

/-! ## Frame builder (43_frame_builder.md) -/

/-- The writes of BUILD into TXB, in the order of R186: code and payload, sync bytes and length, then the checksum over
the bytes actually there (R187, R188, R189). -/
def buildWrites (k : Config) (fc : Byte) (p : List Byte) (m : Memory) : Except Fault Memory := do
  let m ← store k .txb m 2 fc
  let m ← storeRange k .txb m 4 p
  let m ← store k .txb m 0 sync1
  let m ← store k .txb m 1 sync2
  let m ← store k .txb m 3 (BitVec.ofNat 8 p.length)
  let bs ← loadRange k .txb m 0 (4 + p.length)
  store k .txb m (4 + p.length) (sum8 bs)

/-- BUILD(fc, P, L), one atomic step (R186). -/
def buildOp (fc : Byte) (p : List Byte) (s : State) : Except Fault State :=
  match buildWrites s.config fc p s.txb with
  | .error f => .error f
  | .ok m => .ok { s with txb := m, txlen := frameLen p.length, txi := 0 }

/-- END_SEND and ABORT (R195). -/
def endSend (s : State) : State := { s with txlen := 0, txi := 0 }

/-- The SINK's answer to the next TRANSMIT_ONE (R193; log 17). -/
def sinkAnswer (s : State) : Bool := s.sinkAnswers.headD true

/-- TRANSMIT_ONE(b): the byte is offered and the SINK's answer used up (R22, R193). -/
def transmitOp (b : Byte) (s : State) : State :=
  note (.transmit b (sinkAnswer s)) { s with sinkAnswers := s.sinkAnswers.tail }

/-- SERIALIZE_STEP for the byte `b` read from `TXB[TXI]`, enabled when `TXI < TXLEN`: TRANSMIT_ONE, then TXI moves on, with
END_SEND in the step in which it reaches TXLEN, or EV_SINKFAIL and ABORT (R193 to R195). Not enabled, only the offer is made,
and no step does that (log 18). -/
def serializeByte (b : Byte) (s : State) : State :=
  let s1 := transmitOp b s
  if s.txlen ≤ s.txi then s1
  else if sinkAnswer s then
    if s.txi + 1 = s.txlen then endSend s1 else { s1 with txi := s.txi + 1 }
  else endSend (emit .sinkFail 0 s1)

/-! ## Reset (70_reset_and_hazards.md) -/

/-- RESET, one atomic step (R244, R247): every register at its reset value, RUN and CFG free values (log 5), held requests
dropped (log 16). The configuration and the environment's own inputs stay. -/
def resetOp (s : State) : State :=
  { State.reset with
    config := s.config
    run := freeBytes s.freeCount s.config.runSize
    cfg := freeBytes (s.freeCount + s.config.runSize) s.config.cfgSize
    freeCount := s.freeCount + s.config.runSize + s.config.cfgSize
    turns := s.turns
    requests := s.requests
    batch := s.batch
    sinkAnswers := s.sinkAnswers }

end Sys2Proof.Machine
end

