-- ==== Sys2Proof/Machine/Builder.lean ====
section
/-! DEFINITION. The meanings of SEND_FRAME and TRANSMIT_ONE (43_frame_builder.md). -/

namespace Sys2Proof.Machine

/-- SEND_FRAME(fc, P, L): the build step (R186), or while a send is in progress the request is held (R198) with
`fc` and `P` as presented, to be copied into TXB by its own build step later (R190; log 29). The serializer
steps are the sender's turns (R193). A length above 255 cannot be presented (00_scope.md R21; log 12). -/
def execSendFrame (fc : Byte) (p : List Byte) (s : State) : Answer :=
  if payloadFits p then
    if txBusy s then .next { s with heldSends := s.heldSends ++ [(fc, p)] }
    else answerOf (buildOp fc p s)
  else .refused .lengthNotPresentable

/-- TRANSMIT_ONE(b), which with SERIALIZE_STEP is one atomic step: the byte is offered to the SINK, and the answer moves TXI on
or ends the send (R193). -/
def execTransmitOne (b : Byte) (s : State) : Answer := .next (serializeByte b s)

end Sys2Proof.Machine
end

