-- ==== Sys2Proof/Machine/Dispatcher.lean ====
section
/-! DEFINITION. The meanings of DISPATCH and of the two snapshots (42_frame_dispatcher.md). -/

namespace Sys2Proof.Machine

/-- DISPATCH(fc, L, P) (R168), which only the accept step issues (R167; `acceptFrame` runs the same `dispatchOp`). A length above 255 cannot be presented (00_scope.md R20; log 12). -/
def execDispatch (fc : Byte) (p : List Byte) (s : State) : Answer :=
  if payloadFits p then .next (dispatchOp fc p s) else .refused .lengthNotPresentable

/-- SNAPSHOT_RUNNING_STATE: a copy of RUN, in one step (R176, R78). -/
def execSnapshotRunningState (s : State) : Answer := .next (note (.snapshotRun s.run) s)

/-- SNAPSHOT_CONFIG: a copy of CFG, in one step (R177, R78). -/
def execSnapshotConfig (s : State) : Answer := .next (note (.snapshotConfig s.cfg) s)

end Sys2Proof.Machine
end

