-- ==== Sys2Proof/Machine/Frames.lean ====
section
/-! DEFINITION. The meanings of the five classes of frame: the scan iteration on the candidate at `SW[OFF]`
(41_frame_scanner.md R140 to R152; 30_encoding.md R106). -/

namespace Sys2Proof.Machine

/-- FRAME.UPDATE_RUNNING_STATE (R107, R171). -/
def execFrameUpdateRunningState (p : List Byte) (cks : Byte) (s : State) : Answer :=
  .next (frameIteration s.config.fcRun p cks s)

/-- FRAME.CONFIG_UPDATE: consumed, its dispatch a no-op (R108, R172). -/
def execFrameConfigUpdate (fc : Byte) (p : List Byte) (cks : Byte) (s : State) : Answer :=
  .next (frameIteration fc p cks s)

/-- FRAME.CARD_LIST: consumed, its dispatch a no-op (R108, R172). -/
def execFrameCardList (fc : Byte) (p : List Byte) (cks : Byte) (s : State) : Answer :=
  .next (frameIteration fc p cks s)

/-- FRAME.ALARM_RECORD: consumed, its dispatch a no-op (R108, R172). -/
def execFrameAlarmRecord (fc : Byte) (p : List Byte) (cks : Byte) (s : State) : Answer :=
  .next (frameIteration fc p cks s)

/-- FRAME.ILLEGAL: no frame start; one byte on with EV_FC (R109, R144), after test 0 (R141). -/
def execFrameIllegal (fc : Byte) (_len : Byte) (s : State) : Answer :=
  if windowExhausted s then .next (endScan s) else .next (rejectCode fc s)

end Sys2Proof.Machine
end

