-- ==== Sys2Proof/Machine/Ring.lean ====
section
/-! DEFINITION. The meanings of PUSH, PUSH_MANY, HAS_DATA and TAKE_BYTE (40_ring_buffer.md). -/

namespace Sys2Proof.Machine

/-- PUSH(b) (R119 to R121). -/
def execPush (b : Byte) (s : State) : Answer := answerOf (pushOp b s)

/-- PUSH_MANY(bytes, n): its PUSHes are separate steps, taken by the producer's turns (R79, R114, R122; log 13). -/
def execPushMany (bytes : List Byte) (s : State) : Answer :=
  .next { s with batch := s.batch ++ bytes }

/-- HAS_DATA: the flag is the result, nothing changes (R123). -/
def execHasData (s : State) : Answer := .next (note (.hasData (hasDataFlag s)) s)

/-- TAKE_BYTE (R126), and on an empty ring 0x00 with EV_UNDERRUN (R127; log 19). -/
def execTakeByte (s : State) : Answer :=
  if s.rd = s.wr then .next (note (.tookByte 0) (emit .underrun 0 s))
  else
    match takeOp s with
    | .error f => .fault f
    | .ok (v, s1) => .next (note (.tookByte v) s1)

end Sys2Proof.Machine
end

