-- ==== Sys2Proof/Machine/Scanner.lean ====
section
/-! DEFINITION. The meaning of SERVICE and the steps of a pass other than the scan iteration itself
(41_frame_scanner.md R132 to R139, R155). -/

namespace Sys2Proof.Machine

/-- SERVICE: a pass begins (R133), or while one runs the request is held (R134). The steps of the pass are the consumer's
turns (log 14). -/
def execService (s : State) : Answer :=
  if s.ph = .idle then .next { s with ph := .drain }
  else .next { s with heldServices := s.heldServices + 1 }

/-- DRAIN_STEP (R136). -/
def drainStep (s : State) : Except Fault State :=
  match takeOp s with
  | .error f => .error f
  | .ok (v, s1) =>
    match store s.config .sw s.sw s.fill v with
    | .error f => .error f
    | .ok m => .ok { s1 with sw := m, fill := s.fill + 1 }

/-- The drain phase, one turn: a drain step, or the test that ends the phase (R135, R137). -/
def drainTurn (s : State) : Except Fault State :=
  if s.fill < s.config.w ∧ hasDataFlag s then drainStep s else .ok { s with ph := .gate }

/-- The header-size gate (R139); the scan begins at offset 0 (R140). -/
def gateTurn (s : State) : State :=
  if s.fill < 4 then { s with ph := .idle } else { s with ph := .scan, off := 0 }

/-- COMPACT, one atomic step (R155). -/
def compactOp (s : State) : Except Fault State :=
  match copyDown s.config .sw s.sw s.off 0 (s.fill - s.off) with
  | .error f => .error f
  | .ok m => .ok { s with sw := m, fill := s.fill - s.off, idx := s.fill - s.off, ph := .idle }

end Sys2Proof.Machine
end

