-- ==== Sys2Proof/Machine/System.lean ====
section
/-! DEFINITION. The meaning of RESET (70_reset_and_hazards.md R244, R247). -/

namespace Sys2Proof.Machine

/-- RESET. -/
def execReset (s : State) : Answer := .next (resetOp s)

end Sys2Proof.Machine
end

