-- ==== Sys2Proof/Machine/Dispatch.lean ====
section
/-! DEFINITION. One arm per constructor of Instr. -/

namespace Sys2Proof.Machine

def exec (i : Instr) (s : State) : Host.Outcome State Fault Refusal :=
  match i with
  | .reset => Sys2Proof.Machine.execReset s
  | .push b => Sys2Proof.Machine.execPush b s
  | .pushMany bytes => Sys2Proof.Machine.execPushMany bytes s
  | .hasData => Sys2Proof.Machine.execHasData s
  | .takeByte => Sys2Proof.Machine.execTakeByte s
  | .service => Sys2Proof.Machine.execService s
  | .dispatch fc p => Sys2Proof.Machine.execDispatch fc p s
  | .sendFrame fc p => Sys2Proof.Machine.execSendFrame fc p s
  | .transmitOne b => Sys2Proof.Machine.execTransmitOne b s
  | .snapshotRunningState => Sys2Proof.Machine.execSnapshotRunningState s
  | .snapshotConfig => Sys2Proof.Machine.execSnapshotConfig s
  | .frameUpdateRunningState p cks => Sys2Proof.Machine.execFrameUpdateRunningState p cks s
  | .frameConfigUpdate fc p cks => Sys2Proof.Machine.execFrameConfigUpdate fc p cks s
  | .frameCardList fc p cks => Sys2Proof.Machine.execFrameCardList fc p cks s
  | .frameAlarmRecord fc p cks => Sys2Proof.Machine.execFrameAlarmRecord fc p cks s
  | .frameIllegal fc len => Sys2Proof.Machine.execFrameIllegal fc len s

end Sys2Proof.Machine
end

