-- ==== Sys2Proof/Machine/Fetch.lean ====
section
/-! DEFINITION. What the next step is: whose turn it is, and which instruction that agent's turn runs, if any. Requests
are decoded from the request stream, frames from the window at `OFF` (10_state.md R33). -/

namespace Sys2Proof.Machine

/-- What a turn comes to: an instruction to run at a state, or the turn's own answer. -/
inductive Fetched
  | instr (i : Instr) (s : State)
  | done (o : Answer)

/-- Whose turn it is when `turns` does not say: operations do not overlap (30_encoding.md R116), so a batch is pushed out,
a send finished and a pass finished before the next request is issued (log 10). -/
def defaultTurn (s : State) : Turn :=
  if s.batch ≠ [] then .producer
  else if txBusy s ∨ s.heldSends ≠ [] then .sender
  else if svcBusy s ∨ s.heldServices ≠ 0 then .consumer
  else .request

/-- Whether an operation can be requested. DISPATCH is issued only by the accept step of the scanner and TRANSMIT_ONE only by
the serializer (30_encoding.md R114, 42_frame_dispatcher.md R167; for HAS_DATA and TAKE_BYTE see log 19). Frames are fetched
from the window, never requested. -/
def offered : Instr → Bool
  | .reset => true
  | .push _ => true
  | .pushMany _ => true
  | .hasData => true
  | .takeByte => true
  | .service => true
  | .dispatch _ _ => false
  | .sendFrame _ _ => true
  | .transmitOne _ => false
  | .snapshotRunningState => true
  | .snapshotConfig => true
  | .frameUpdateRunningState _ _ => false
  | .frameConfigUpdate _ _ _ => false
  | .frameCardList _ _ _ => false
  | .frameAlarmRecord _ _ _ => false
  | .frameIllegal _ _ => false

/-- The next request is issued, if it is one that an agent can make; with none waiting nothing runs
(70_reset_and_hazards.md R245; log 28). -/
def requestTurn (s : State) : Fetched :=
  match decodeOp s.requests with
  | .ok (i, rest) =>
    if offered i then .instr i { s with requests := rest } else .done (.refused (.notOffered (s.requests.headD 0)))
  | .error .noBytes => .done (.next s)
  | .error (.unusedTag t) => .done (.refused (.unusedTag t))
  | .error _ => .done (.refused .badOperands)

/-- The producer pushes the next byte of its batch (40_ring_buffer.md R122). -/
def producerTurn (s : State) : Fetched :=
  match s.batch with
  | [] => .done (.next s)
  | b :: bs => .instr (.push b) { s with batch := bs }

/-- The sender: TRANSMIT_ONE of `TXB[TXI]` (43_frame_builder.md R193), END_SEND if nothing is left to send (R185), or with no
send in progress the oldest held request (R198). -/
def senderTurn (s : State) : Fetched :=
  if txBusy s then
    if s.txlen ≤ s.txi then .done (.next (endSend s))
    else
      match load s.config .txb s.txb s.txi with
      | .error f => .done (.fault f)
      | .ok b => .instr (.transmitOne b) s
  else
    match s.heldSends with
    | [] => .done (.next s)
    | (fc, p) :: rest => .instr (.sendFrame fc p) { s with heldSends := rest }

/-- The scan iteration (41_frame_scanner.md R140): the candidate at `OFF` is decoded from the rest of the window,
`SW[OFF .. FILL)`. A whole candidate, or a header with an illegal code, is an instruction; the other tests end the
iteration here: test 0 (R141), test 1 (R142), and, on an allowed header whose frame is not all there, test 3 (R146) and
test 4 (R148), the code and length latched. -/
def scanTurn (s : State) : Fetched :=
  if windowExhausted s then .done (.next (endScan s))
  else
    match loadRange s.config .sw s.sw s.off (s.fill - s.off) with
    | .error f => .done (.fault f)
    | .ok bs =>
      match decodeFrame s.config bs with
      | .ok (i, _) => .instr i s
      | .error (.incomplete fc len) =>
        if oversize s.config len.toNat then .done (.next (rejectOversize fc len.toNat s))
        else .done (.next (endScan (latch fc len.toNat s)))
      | .error .noMarker => .done (.next (rejectSync s))
      | .error _ => .done (.next (endScan s))

/-- The consumer: the next step of the pass (R133), or with no pass in progress a held SERVICE (R134). -/
def consumerTurn (s : State) : Fetched :=
  match s.ph with
  | .idle =>
    match s.heldServices with
    | 0 => .done (.next s)
    | n + 1 => .instr .service { s with heldServices := n }
  | .drain => .done (answerOf (drainTurn s))
  | .gate => .done (.next (gateTurn s))
  | .scan => scanTurn s
  | .compact => .done (answerOf (compactOp s))

/-- The turn of an agent. -/
def takeTurn (t : Turn) (s : State) : Fetched :=
  match t with
  | .request => requestTurn s
  | .producer => producerTurn s
  | .consumer => consumerTurn s
  | .sender => senderTurn s

/-- Whose turn the next step is. -/
def nextTurn (s : State) : Turn :=
  match s.turns with
  | [] => defaultTurn s
  | t :: _ => t

/-- The next turn, used up (00_scope.md R10). -/
def fetch (s : State) : Fetched := takeTurn (nextTurn s) { s with turns := s.turns.tail }

/-- The request bytes of a table word: the word's instruction, or the word itself where it is none (log 26). -/
def tableRequest (k : Config) (nbits w : Nat) : List Byte :=
  match decodeOp (tableBytes nbits w) with
  | .ok (i, _) => encode k i
  | .error _ => tableBytes nbits w

/-- The byte `b` placed as the next one the serializer offers: at `TXB[TXI]` of the send in progress, else as the first of a
shortest frame's five. -/
def placeByte (s : State) (b : Byte) : State :=
  if s.txi < s.txlen then { s with txb := s.txb.write s.txi b }
  else
    { s with
      txb := [0, 1, 2, 3, 4].foldl (fun m j => m.write j (if j = 0 then b else 0)) s.txb
      txlen := 5
      txi := 0 }

/-- The frame at the start of `bs` placed in the window at offset 0, `W` bytes at most, with the scan about to examine it. -/
def placeFrame (s : State) (bs : List Byte) : State :=
  let n := min s.config.w (frameLen (bs.getD 3 0).toNat)
  { s with
    sw := (List.range n).foldl (fun m j => m.write j (bs.getD j 0)) s.sw
    fill := n
    off := 0
    ph := .scan
    turns := .consumer :: s.turns }

/-- The configuration with `fc` allowed, as a reserved code if it was not. -/
def allowing (k : Config) (fc : Byte) : Config :=
  if fc ∈ k.allow then k else { k with alarmCodes := fc :: k.alarmCodes }

/-- A table word placed where it is fetched next: a frame in the window; for DISPATCH, which only the accept step issues (R167),
the frame whose acceptance issues it, its code allowed; the byte of TRANSMIT_ONE in TXB; any other operation at the front of the
requests; and the turn given to the agent that fetches it (log 26). -/
def placeWord (s : State) (nbits w : Nat) : State :=
  if nbits = 32 then placeFrame s (tableBytes nbits w)
  else
    match decodeOp (tableBytes nbits w) with
    | .ok (.dispatch fc p, _) => placeFrame { s with config := allowing s.config fc } (encFrame fc p)
    | .ok (.transmitOne b, _) => { placeByte s b with turns := .sender :: s.turns }
    | _ => { s with requests := tableRequest s.config nbits w ++ s.requests, turns := .request :: s.turns }

end Sys2Proof.Machine
end

