-- ==== Sys2Proof/Machine/Step.lean ====
section
/-! DEFINITION. One atomic step of CRB-FE (00_scope.md R10). -/

namespace Sys2Proof.Machine

/-- The next turn's instruction is run, or the turn's own answer given. -/
def step (s : State) : Host.Outcome State Fault Refusal :=
  match fetch s with
  | .instr i t => exec i t
  | .done o => o

/-- `s` with an opcode-table word placed where the next step fetches it. -/
def State.withFetchWord (s : State) (nbits w : Nat) : State := placeWord s nbits w

end Sys2Proof.Machine
end

