-- ==== Sys2Proof/Machine/Pass.lean ====
section
/-! DEFINITION. The pass as one function of the window's bytes (41_frame_scanner.md R159), and runs of chosen turns. No
step of the machine uses this file: it is what the claims about whole operations are stated against. -/

namespace Sys2Proof.Machine

/-! ## Runs -/

/-- One step in which the given agent moves. -/
def stepTurn (t : Turn) (s : State) : Answer := step { s with turns := t :: s.turns }

/-- Steps of the given agents, in order, stopping at the first fault or refusal. -/
def runTurns : List Turn → State → Answer
  | [], s => .next s
  | t :: ts, s =>
    match stepTurn t s with
    | .next s' => runTurns ts s'
    | .fault f => .fault f
    | .refused r => .refused r

/-- An operation, then steps of the given agents. -/
def execThen (i : Instr) (ts : List Turn) (s : State) : Answer :=
  match exec i s with
  | .next s' => runTurns ts s'
  | .fault f => .fault f
  | .refused r => .refused r

/-! ## What the receive side shows -/

/-- What DISPATCH shows (42_frame_dispatcher.md R168, R171 to R173). -/
def dispatchObs (k : Config) (fc : Byte) (p : List Byte) : List Obs :=
  .dispatch fc p.length p ::
    (if fc = k.fcRun then if p.length = k.runSize then [] else [.event .dlen 0] else [.event .noHandler 0])

/-- What an accepted frame shows: EV_FRAME, then its dispatch (R151, R220). -/
def acceptObs (k : Config) (fc : Byte) (p : List Byte) : List Obs :=
  .event .frame p.length :: dispatchObs k fc p

/-- RUN after what was dispatched (R170, R171). -/
def runAfter (k : Config) (run : List Byte) (os : List Obs) : List Byte :=
  os.foldl (fun r o =>
    match o with
    | .dispatch fc l p => if fc = k.fcRun ∧ l = k.runSize then p else r
    | _ => r) run

/-- The counters after what was shown: one `bump` for each event (10_state.md R51). -/
def countersAfter (k : Config) (c : Counters) (os : List Obs) : Counters :=
  os.foldl (fun c o =>
    match o with
    | .event e _ => c.bump k e
    | _ => c) c

/-- Whether an observation is a diagnostic event. -/
def Obs.isEvent : Obs → Bool
  | .event _ _ => true
  | _ => false

/-- How many bytes of the window an event consumed (44_system_properties.md R211). -/
def Obs.consumed : Obs → Nat
  | .event .sync _ => 1
  | .event .fc _ => 1
  | .event .oversize _ => 1
  | .event .cks l => l + 1
  | .event .frame l => frameLen l
  | _ => 0

/-- How many of the observations are the event `e`. -/
def countEvent (e : Event) (os : List Obs) : Nat :=
  (os.filter fun o =>
    match o with
    | .event e' _ => e' = e
    | _ => false).length

/-- The bytes emitted to the SINK: those it answered ok for (R193). -/
def emittedBytes (os : List Obs) : List Byte :=
  os.filterMap fun o =>
    match o with
    | .transmit b true => some b
    | _ => none

/-! ## The scan on lists of bytes -/

/-- The scan loop of R159 on the unscanned rest `SW[OFF .. FILL)`: what it shows, and the rest at which it ends. The first
argument bounds the number of iterations that move on. -/
def scanFrom (k : Config) : Nat → List Byte → List Obs × List Byte
  | 0, r => ([], r)
  | n + 1, r =>
    match r with
    | b0 :: b1 :: fc :: len :: _ =>
      let l := len.toNat
      if ¬(b0 = sync1 ∧ b1 = sync2) then
        let x := scanFrom k n (r.drop 1)
        (.event .sync 0 :: x.1, x.2)
      else if fc ∉ k.allow then
        let x := scanFrom k n (r.drop 1)
        (.event .fc 0 :: x.1, x.2)
      else if oversize k l then
        let x := scanFrom k n (r.drop 1)
        (.event .oversize l :: x.1, x.2)
      else if r.length < frameLen l then ([], r)
      else if r[4 + l]? = some (sum8 (r.take (4 + l))) then
        let x := scanFrom k n (r.drop (frameLen l))
        (acceptObs k fc ((r.drop 4).take l) ++ x.1, x.2)
      else
        let x := scanFrom k n (r.drop (l + 1))
        (.event .cks l :: x.1, x.2)
    | _ => ([], r)

/-- The scan of a window: every iteration that moves on moves by at least one byte (R154). -/
def scanBytes (k : Config) (r : List Byte) : List Obs × List Byte := scanFrom k r.length r

/-- The window after a drain phase into which no PUSH falls (R135, R137). -/
def drainedWindow (s : State) : List Byte :=
  windowBytes s ++ (liveBytes s).take (s.config.w - s.fill)

end Sys2Proof.Machine
end

