-- ==== Sys2Proof/Safety.lean ====
section
/-! DEFINITION. The invariants of CRB-FE in the terms claims use. `Inv` is what the rules say of the registers and arrays in
every state after RESET; a state that meets it is one from which no step faults. Each part is decidable. -/

namespace Sys2Proof.Machine

/-- All events (60_exceptions.md R214). -/
def allEvents : List Event :=
  [.drop, .sync, .fc, .oversize, .cks, .frame, .noHandler, .dlen, .sinkFail, .underrun]

/-- Both cursors stand inside the ring (40_ring_buffer.md R118). -/
abbrev CursorsInRange (s : State) : Prop := s.rd < s.config.c ∧ s.wr < s.config.c

/-- The ring: cursors in range (R118), RB in canonical form inside `0..C-1` (R63), every live slot written (R62). -/
abbrev RingInv (s : State) : Prop :=
  CursorsInRange s ∧ Memory.wf s.rb ∧ (∀ x ∈ s.rb, x.1 < s.config.c) ∧
    ∀ j < occ s, (s.rb.read ((s.rd + j) % s.config.c)).isSome

/-- The window: `FILL <= W` (R31), SW in canonical form inside `0..W-1`, `SW[0..FILL)` written (R62), `OFF <= W`,
`IDX <= W` (R25), and during scan and compaction `OFF <= FILL` (R153). -/
abbrev WindowInv (s : State) : Prop :=
  s.fill ≤ s.config.w ∧ Memory.wf s.sw ∧ (∀ x ∈ s.sw, x.1 < s.config.w) ∧
    (∀ j < s.fill, (s.sw.read j).isSome) ∧ s.off ≤ s.config.w ∧ s.idx ≤ s.config.w ∧
    (s.ph = .scan ∨ s.ph = .compact → s.off ≤ s.fill)

/-- The builder: idle, or `5 <= TXLEN <= 260` and `TXI < TXLEN` (R40, R41, R195); TXB in canonical form inside `0..259`,
`TXB[0..TXLEN)` written (R62). -/
abbrev BuilderInv (s : State) : Prop :=
  (s.txlen = 0 ∧ s.txi = 0 ∨ 5 ≤ s.txlen ∧ s.txlen ≤ 260 ∧ s.txi < s.txlen) ∧
    Memory.wf s.txb ∧ (∀ x ∈ s.txb, x.1 < 260) ∧ ∀ j < s.txlen, (s.txb.read j).isSome

/-- The records have their sizes (R42, R43), the counters their width (R51), a held request a payload that can be presented
(R183). -/
abbrev RecordInv (s : State) : Prop :=
  s.run.length = s.config.runSize ∧ s.cfg.length = s.config.cfgSize ∧
    (∀ e ∈ allEvents, s.counters.get e < 2 ^ s.config.cntW) ∧ ∀ x ∈ s.heldSends, x.2.length ≤ 255

/-- The invariant of every state after RESET. -/
abbrev Inv (s : State) : Prop :=
  s.config.wf ∧ RingInv s ∧ WindowInv s ∧ BuilderInv s ∧ RecordInv s

/-- First in, first out: the accepted bytes are the taken bytes followed by the live bytes (R85, R129), and the cursors are
their counts modulo `C` (R29). -/
abbrev Fifo (s : State) : Prop :=
  s.accepted = s.taken ++ liveBytes s ∧ s.wr = s.accepted.length % s.config.c ∧
    s.rd = s.taken.length % s.config.c

/-- Every counter is the number of its events since reset, modulo `2 ^ CNT_W` (R51). -/
abbrev CountersExact (s : State) : Prop :=
  ∀ e ∈ allEvents, s.counters.get e = countEvent e s.trace % 2 ^ s.config.cntW

/-- The bytes that TAKE_BYTE requests took out of the ring themselves. -/
def tookRequested (os : List Obs) : Nat :=
  (os.filter fun o =>
    match o with
    | .tookByte _ => true
    | _ => false).length

/-- Byte conservation (R211), with the bytes scanned and not yet compacted counted by `OFF`: every byte taken since reset is
in the window, or was consumed by one event, or was returned by a TAKE_BYTE request. -/
abbrev BytesConserved (s : State) : Prop :=
  s.taken.length + countEvent .underrun s.trace + (if s.ph = .scan ∨ s.ph = .compact then s.off else 0) =
    s.fill + (s.trace.map Obs.consumed).sum + tookRequested s.trace

/-- `i` is the frame with the code `fc` inside ALLOW, the payload `p` and the checksum byte `cks` (R106). -/
abbrev LegalFrame (k : Config) (i : Instr) (fc : Byte) (p : List Byte) (cks : Byte) : Prop :=
  fc = k.fcRun ∧ i = .frameUpdateRunningState p cks ∨
    k.classOf fc = .reserved .configUpdate ∧ i = .frameConfigUpdate fc p cks ∨
    k.classOf fc = .reserved .cardList ∧ i = .frameCardList fc p cks ∨
    k.classOf fc = .reserved .alarmRecord ∧ i = .frameAlarmRecord fc p cks

/-- `i` is a frame of a reserved class (R108). -/
abbrev ReservedFrame (k : Config) (i : Instr) (fc : Byte) (p : List Byte) (cks : Byte) : Prop :=
  k.classOf fc = .reserved .configUpdate ∧ i = .frameConfigUpdate fc p cks ∨
    k.classOf fc = .reserved .cardList ∧ i = .frameCardList fc p cks ∨
    k.classOf fc = .reserved .alarmRecord ∧ i = .frameAlarmRecord fc p cks

/-- The two states agree on everything but the order in which things were shown, which is one after the other in either
order (R230). -/
abbrev SameUpToOrder (s t u : State) : Prop :=
  { t with trace := [] } = { u with trace := [] } ∧
    ∃ x y, t.trace = s.trace ++ x ++ y ∧ u.trace = s.trace ++ y ++ x

end Sys2Proof.Machine
end

