-- ==== Sys2Proof/Certificates/Slice0/Obligations.lean ====
section
/-! DEFINITION. The statements for the provers, from the numbered rules of spec/. Each docstring names the rule it states. -/

open Sys2Proof Sys2Proof.Machine

/-! ## Encoding -/

/-- Every well-formed instruction, with every operand at every value, is decoded from its own bytes, whatever follows them.
The bytes of an operation's operands are the model's (log 11); a frame's bytes are R91's, but that an illegal header is an instruction
of four bytes is the model's too (log 25). -/
def Obligations.DecodeOfEncode : Prop :=
  ∀ (k : Config) (i : Instr) (rest : List Byte), WellFormed k i = true →
    decode k (encode k i ++ rest) = .ok (i, rest)

/-- What decodes is well-formed, and its bytes are its encoding: no two byte sequences mean the same instruction.
Operand bytes (log 11) and the illegal header as four bytes (log 25) are the model's. -/
def Obligations.DecodedBytesAreTheEncoding : Prop :=
  ∀ (k : Config) (bs : List Byte) (i : Instr) (rest : List Byte), decode k bs = .ok (i, rest) →
    WellFormed k i = true ∧ bs = encode k i ++ rest

/-- The tags of R115 and the unused ones, and a frame of each of the five classes written out from R91 with test codes of D29
(vectors E1, E8, E5, E6, V6). Model's choices, which no rule says: operand bytes and whole tag bytes (log 11, 12); that of TC-A's three
reserved codes 02 is configuration update, 03 card list and 04 alarm record (log 3, with log 2 for TC-A: the spec says only that they
are in ALLOW and not FC_RUN); that an illegal header is an instruction of four bytes, with `[0x10]` left over here (log 25). -/
def Obligations.WordsWrittenOutDecode : Prop :=
  (∀ bs, decodeOp (0x00 :: bs) = .ok (.reset, bs)) ∧
  (∀ b bs, decodeOp (0x01 :: b :: bs) = .ok (.push b, bs)) ∧
  (∀ bs, decodeOp (0x02 :: 0x00 :: bs) = .ok (.pushMany [], bs)) ∧
  (∀ bs, decodeOp (0x03 :: bs) = .ok (.hasData, bs)) ∧
  (∀ bs, decodeOp (0x04 :: bs) = .ok (.takeByte, bs)) ∧
  (∀ bs, decodeOp (0x05 :: bs) = .ok (.service, bs)) ∧
  (∀ fc bs, decodeOp (0x06 :: fc :: 0x00 :: bs) = .ok (.dispatch fc [], bs)) ∧
  (∀ fc bs, decodeOp (0x07 :: fc :: 0x00 :: bs) = .ok (.sendFrame fc [], bs)) ∧
  (∀ b bs, decodeOp (0x08 :: b :: bs) = .ok (.transmitOne b, bs)) ∧
  (∀ bs, decodeOp (0x09 :: bs) = .ok (.snapshotRunningState, bs)) ∧
  (∀ bs, decodeOp (0x0A :: bs) = .ok (.snapshotConfig, bs)) ∧
  (∀ t bs, 11 ≤ t.toNat → decodeOp (t :: bs) = .error (.unusedTag t)) ∧
  decode Config.tcA [0xAA, 0x55, 0x01, 0x02, 0x10, 0x20, 0x32] =
    .ok (.frameUpdateRunningState [0x10, 0x20] 0x32, []) ∧
  decode Config.tcA [0xAA, 0x55, 0x02, 0x01, 0x77, 0x79] = .ok (.frameConfigUpdate 0x02 [0x77] 0x79, []) ∧
  decode Config.tcA [0xAA, 0x55, 0x03, 0x03, 0xAA, 0x55, 0x01, 0x05] =
    .ok (.frameCardList 0x03 [0xAA, 0x55, 0x01] 0x05, []) ∧
  decode Config.tcA [0xAA, 0x55, 0x04, 0x00, 0x03] = .ok (.frameAlarmRecord 0x04 [] 0x03, []) ∧
  decode Config.tcA [0xAA, 0x55, 0x09, 0x02, 0x10] = .ok (.frameIllegal 0x09 0x02, [0x10])

/-- R103, R104, R105: ENC gives a well-formed frame, DEC undoes ENC, and ENC undoes DEC on every well-formed frame. -/
def Obligations.FrameCodecRoundTrip : Prop :=
  (∀ (fc : Byte) (p : List Byte), p.length ≤ 255 →
    wellFormedFrame (encFrame fc p) = true ∧ decFrame (encFrame fc p) = some (fc, p)) ∧
  (∀ s : List Byte, wellFormedFrame s = true →
    ∃ fc p, decFrame s = some (fc, p) ∧ p.length ≤ 255 ∧ encFrame fc p = s)

/-- R100: the checksum from the code, the length and the payload. -/
def Obligations.ChecksumIdentity : Prop :=
  ∀ (fc : Byte) (p : List Byte), p.length ≤ 255 →
    (sum8 (covered fc p)).toNat = (0xFF + fc.toNat + p.length + (p.map BitVec.toNat).sum) % 256 ∧
    sum8 (covered fc p) = fc + BitVec.ofNat 8 p.length + sum8 p - 1 ∧
    sum8 (covered fc []) = fc - 1

/-- R70: the checksum depends on the multiset of bytes only; and (R99) an accumulator that wraps at every addition gives the
same value. -/
def Obligations.ChecksumIgnoresOrder : Prop :=
  (∀ s t : List Byte, s.Perm t → sum8 s = sum8 t) ∧
  (∀ s : List Byte, s.foldl (fun a b => a + b) (0 : Byte) = sum8 s)

/-- R102: changing exactly one covered byte changes the checksum. -/
def Obligations.SingleByteChangeIsDetected : Prop :=
  ∀ (s : List Byte) (i : Nat) (b : Byte) (h : i < s.length), b ≠ s[i] → sum8 (s.set i b) ≠ sum8 s

/-! ## Steps -/

/-- A step runs the instruction its turn fetches: a request at a request turn, if an agent can make it (log 11, 19); a frame in the
window at `OFF` at a consumer turn of the scan (log 25), or a held SERVICE between passes; a PUSH for each byte of a batch
(log 13); TRANSMIT_ONE of `TXB[TXI]` at a sender turn of a send, or the oldest held SEND_FRAME between sends (log 15, 29). Whose turn it is,
is the model's plain data (log 9, 10). DISPATCH is no step of its own (R167): the frame that is accepted runs it. -/
def Obligations.StepRunsTheDecodedInstruction : Prop :=
  ∀ s : State,
    (∀ i rest, nextTurn s = .request → decodeOp s.requests = .ok (i, rest) → offered i = true →
      step s = exec i { s with turns := s.turns.tail, requests := rest }) ∧
    (∀ bs i rest, nextTurn s = .consumer → s.ph = .scan → windowExhausted s = false →
      loadRange s.config .sw s.sw s.off (s.fill - s.off) = .ok bs → decodeFrame s.config bs = .ok (i, rest) →
      step s = exec i { s with turns := s.turns.tail }) ∧
    (∀ n, nextTurn s = .consumer → s.ph = .idle → s.heldServices = n + 1 →
      step s = exec .service { s with turns := s.turns.tail, heldServices := n }) ∧
    (∀ b bs, nextTurn s = .producer → s.batch = b :: bs →
      step s = exec (.push b) { s with turns := s.turns.tail, batch := bs }) ∧
    (∀ b, nextTurn s = .sender → s.txi < s.txlen → load s.config .txb s.txb s.txi = .ok b →
      step s = exec (.transmitOne b) { s with turns := s.turns.tail }) ∧
    (∀ fc p rest, nextTurn s = .sender → s.txlen = 0 → s.heldSends = (fc, p) :: rest →
      step s = exec (.sendFrame fc p) { s with turns := s.turns.tail, heldSends := rest })

/-- R245: with no operation issued nothing runs. The fields that say so, turns (log 9), batch (log 13) and the held requests (log 15),
are the model's. -/
def Obligations.NothingRunsUnrequested : Prop :=
  ∀ s : State, s.turns = [] → s.requests = [] → s.batch = [] → s.txlen = 0 → s.heldSends = [] → s.ph = .idle →
    s.heldServices = 0 → step s = .next s

/-! ## Frames of the instructions -/

/-- R67: an instruction that stores to no array leaves every byte of RB, SW and TXB as it was. -/
def Obligations.NonStoringInstructionsKeepEveryByte : Prop :=
  ∀ (i : Instr) (s t : State), i ≠ .reset → (∀ b, i ≠ .push b) → (∀ fc p, i ≠ .sendFrame fc p) →
    exec i s = .next t → ∀ a, t.rb.read a = s.rb.read a ∧ t.sw.read a = s.sw.read a ∧ t.txb.read a = s.txb.read a

/-- R119, R120, R67: PUSH stores its byte at `RB[WR]` if the ring is not full, and every other byte of RB, SW and TXB stays. -/
def Obligations.PushStoresOnlyAtWr : Prop :=
  ∀ (b : Byte) (s t : State), exec (.push b) s = .next t →
    (rbFull s = false → t.rb.read s.wr = some b ∧ ∀ a, a ≠ s.wr → t.rb.read a = s.rb.read a) ∧
    (rbFull s = true → ∀ a, t.rb.read a = s.rb.read a) ∧
    (∀ a, t.sw.read a = s.sw.read a ∧ t.txb.read a = s.txb.read a)

/-- R67, R114: which registers each instruction may change; every field and every counter not named keeps its value. What the
ports show is added behind what they have shown, but for RESET. The model's own choices here: that RESET keeps the turns, the
requests, the batch and the SINK's answers (log 16), the fields batch (log 13), heldServices, heldSends (log 15) and sinkAnswers
(log 17), and TRANSMIT_ONE when it is not enabled (log 18). -/
def Obligations.InstructionsChangeOnlyTheirRegisters : Prop :=
  ∀ s t : State,
    (exec .reset s = .next t → t.config = s.config ∧ t.turns = s.turns ∧ t.requests = s.requests ∧
      t.batch = s.batch ∧ t.sinkAnswers = s.sinkAnswers) ∧
    (∀ i, i ≠ .reset → exec i s = .next t → ∃ shown, t.trace = s.trace ++ shown) ∧
    (∀ b, exec (.push b) s = .next t → t = { s with
      rb := t.rb, wr := t.wr, accepted := t.accepted, trace := t.trace
      counters := { s.counters with drop := t.counters.drop } }) ∧
    (∀ bs, exec (.pushMany bs) s = .next t → t = { s with batch := t.batch }) ∧
    (exec .hasData s = .next t → t = { s with trace := t.trace }) ∧
    (exec .takeByte s = .next t → t = { s with
      rd := t.rd, taken := t.taken, trace := t.trace
      counters := { s.counters with underrun := t.counters.underrun } }) ∧
    (exec .service s = .next t → t = { s with ph := t.ph, heldServices := t.heldServices }) ∧
    (∀ fc p, exec (.dispatch fc p) s = .next t → t = { s with
      run := t.run, trace := t.trace
      counters := { s.counters with noHandler := t.counters.noHandler, dlen := t.counters.dlen } }) ∧
    (∀ fc p, exec (.sendFrame fc p) s = .next t →
      t = { s with txb := t.txb, txlen := t.txlen, txi := t.txi, heldSends := t.heldSends }) ∧
    (∀ b, exec (.transmitOne b) s = .next t → t = { s with
      txlen := t.txlen, txi := t.txi, sinkAnswers := t.sinkAnswers, trace := t.trace
      counters := { s.counters with sinkFail := t.counters.sinkFail } }) ∧
    (exec .snapshotRunningState s = .next t → t = { s with trace := t.trace }) ∧
    (exec .snapshotConfig s = .next t → t = { s with trace := t.trace }) ∧
    (∀ i fc p cks, LegalFrame s.config i fc p cks → exec i s = .next t → t = { s with
      off := t.off, ph := t.ph, fcLatch := t.fcLatch, lLatch := t.lLatch, sum := t.sum, idx := t.idx
      run := t.run, trace := t.trace
      counters := { s.counters with
        oversize := t.counters.oversize, cks := t.counters.cks, frame := t.counters.frame
        noHandler := t.counters.noHandler, dlen := t.counters.dlen } }) ∧
    (∀ fc len, exec (.frameIllegal fc len) s = .next t → t = { s with
      off := t.off, ph := t.ph, fcLatch := t.fcLatch, trace := t.trace
      counters := { s.counters with fc := t.counters.fc } })

/-! ## Ring buffer -/

/-- R119: PUSH, accepted or dropped, with the flags it leaves. -/
def Obligations.PushStoresOrDrops : Prop :=
  ∀ (b : Byte) (s : State), s.config.wf → CursorsInRange s →
    (rbFull s = true → exec (.push b) s = .next { s with
      counters := s.counters.bump s.config .drop, trace := s.trace ++ [.event .drop 0] }) ∧
    (rbFull s = false → ∃ t, exec (.push b) s = .next t ∧
      t = { s with rb := s.rb.write s.wr b, wr := incC s.config s.wr, accepted := s.accepted ++ [b] } ∧
      hasDataFlag t = true ∧ (rbFull t = true ↔ occ s + 2 = s.config.c))

/-- R122, R206: PUSH_MANY, with no consumer step in between, keeps the oldest bytes that fit and drops the rest one by one;
throughout, the cursors stay in range and HAS_DATA is exact. The clause on one step is the model's (log 13). -/
def Obligations.PushManyKeepsThePrefixThatFits : Prop :=
  (∀ (bytes : List Byte) (s : State), exec (.pushMany bytes) s = .next { s with batch := s.batch ++ bytes }) ∧
  (∀ (bytes : List Byte) (n : Nat) (s : State), Inv s → s.batch = [] → n ≤ bytes.length →
    let kept := (bytes.take n).take (s.config.c - 1 - occ s)
    let drops := List.replicate (n - kept.length) (Obs.event .drop 0)
    ∃ t, execThen (.pushMany bytes) (List.replicate n .producer) s = .next t ∧
      t = { s with
        rb := t.rb, wr := t.wr, batch := bytes.drop n, accepted := s.accepted ++ kept
        counters := countersAfter s.config s.counters drops, trace := s.trace ++ drops } ∧
      liveBytes t = liveBytes s ++ kept ∧ occ t ≤ s.config.c - 1 ∧
      CursorsInRange t ∧ (hasDataFlag t = true ↔ occ t ≠ 0))

/-- R123: HAS_DATA is the flag and changes nothing; a true result stays true until a byte is taken (RD moves), whatever step
but RESET is taken, and a false one may become true at any moment. -/
def Obligations.HasDataReportsTheCursors : Prop :=
  ∀ s : State,
    exec .hasData s = .next { s with trace := s.trace ++ [.hasData (decide (s.rd ≠ s.wr))] } ∧
    (s.config.wf → CursorsInRange s → s.rd ≠ s.wr → ∀ t, step s = .next t → t.rd = s.rd →
      (∀ u, fetch s ≠ .instr .reset u) → t.rd ≠ t.wr) ∧
    (s.config.wf → CursorsInRange s → s.rd = s.wr → ∀ b, ∃ t, exec (.push b) s = .next t ∧ t.rd ≠ t.wr)

/-- R126, R127: TAKE_BYTE removes and returns the oldest live byte; on an empty ring it returns 0x00 with EV_UNDERRUN. -/
def Obligations.TakeByteRemovesTheOldest : Prop :=
  ∀ s : State, Inv s →
    (s.rd ≠ s.wr → ∃ v rest t, liveBytes s = v :: rest ∧ exec .takeByte s = .next t ∧
      t = { s with
        rd := incC s.config s.rd, taken := s.taken ++ [v], trace := s.trace ++ [.tookByte v] } ∧
      liveBytes t = rest ∧ rbFull t = false ∧ (hasDataFlag t = true ↔ rest ≠ [])) ∧
    (s.rd = s.wr → exec .takeByte s = .next { s with
      counters := s.counters.bump s.config .underrun
      trace := s.trace ++ [.event .underrun 0, .tookByte 0] })

/-- R118: occupancy decides empty and full; the cursors are in range after reset (State.reset, under TC-A:
log 2) and every step keeps them there. -/
def Obligations.OccupancyDecidesEmptyAndFull : Prop :=
  CursorsInRange State.reset ∧
  ∀ s : State, s.config.wf → CursorsInRange s →
    (s.rd = s.wr ↔ occ s = 0) ∧ (incC s.config s.wr = s.rd ↔ occ s = s.config.c - 1) ∧
    occ s ≤ s.config.c - 1 ∧ ∀ t, step s = .next t → CursorsInRange t

/-- R117, R50: a step other than RESET moves WR by its successor, once for an accepted byte, or not at all, and RD likewise for a
taken byte; no step changes the configuration. -/
def Obligations.CursorsMoveByOne : Prop :=
  (∀ (k : Config) (x : Nat), x < k.c → incC k x < k.c ∧ incC k x = (x + 1) % k.c) ∧
  ∀ s t : State, step s = .next t →
    t.config = s.config ∧
    ((t.wr = s.wr ∧ t.accepted = s.accepted ∨ t.wr = incC s.config s.wr ∧ ∃ b, t.accepted = s.accepted ++ [b]) ∧
      (t.rd = s.rd ∧ t.taken = s.taken ∨ t.rd = incC s.config s.rd ∧ ∃ b, t.taken = s.taken ++ [b]) ∨
      (∃ u, fetch s = .instr .reset u) ∧ t.wr = 0 ∧ t.rd = 0)

/-- R129, R85, R29: every step keeps the accepted bytes equal to the taken bytes followed by the live bytes. -/
def Obligations.FifoIsKept : Prop :=
  ∀ s t : State, Inv s → Fifo s → step s = .next t → Fifo t

/-! ## The machine's invariants -/

/-- `Inv` is kept by every step, from every state that meets it. -/
def Obligations.InvIsKept : Prop :=
  ∀ s t : State, Inv s → step s = .next t → Inv t

/-- The state after reset meets every invariant. Its configuration and the values of RUN and CFG there are the model's
choice (log 2, 4), and the invariants ask only for their lengths. -/
def Obligations.ResetMeetsTheInvariants : Prop :=
  Inv State.reset ∧ Fifo State.reset ∧ CountersExact State.reset ∧ BytesConserved State.reset

/-- R62, R243: no step of a state that meets `Inv` reads an element never written or leaves an array, the two
model faults (log 6). -/
def Obligations.NoStepFaults : Prop :=
  ∀ (s : State) (f : Fault), Inv s → step s ≠ .fault f

/-- R114, R115, R167, R213: a step refuses exactly these, each for its own reason: at a request turn, a request whose operands are cut
short or malformed, one with an unused tag, and one for DISPATCH (06) or TRANSMIT_ONE (08), which no agent can make. The form of
requests is the model's (log 11, 12, 19). -/
def Obligations.OnlyMalformedRequestsAreRefused : Prop :=
  ∀ (s : State) (r : Refusal), Inv s → (step s = .refused r ↔
    nextTurn s = .request ∧
      (decodeOp s.requests = .error .badOperands ∧ r = .badOperands ∨
        (∃ t bs, s.requests = t :: bs ∧ 11 ≤ t.toNat ∧ r = .unusedTag t) ∨
        ∃ t bs i rest, s.requests = t :: bs ∧ (t = 0x06 ∨ t = 0x08) ∧ decodeOp s.requests = .ok (i, rest) ∧
          r = .notOffered t))

/-- R51: every counter is the number of its events since reset, modulo `2 ^ CNT_W`. -/
def Obligations.CountersCountTheirEvents : Prop :=
  ∀ s t : State, CountersExact s → step s = .next t → CountersExact t

/-- R211: byte conservation. -/
def Obligations.EveryTakenByteIsAccountedFor : Prop :=
  (∀ s t : State, Inv s → BytesConserved s → step s = .next t → BytesConserved t) ∧
  (∀ s : State, BytesConserved s → s.ph = .idle → tookRequested s.trace = 0 → countEvent .underrun s.trace = 0 →
    s.taken.length = s.fill + (s.trace.map Obs.consumed).sum)

/-! ## Frame scanner -/

/-- R133, R134: SERVICE begins a pass, or is held while one runs and begins the next. The model's choices: held requests are counted
with no largest number, and the request's own step counts it (log 15); and, read from the spec by inference, SERVICE's own step does only
`ph := drain`, and a held one begins at a consumer turn that does no more than that (log 14). -/
def Obligations.ServiceBeginsOrWaits : Prop :=
  ∀ s : State,
    (s.ph = .idle → exec .service s = .next { s with ph := .drain }) ∧
    (s.ph ≠ .idle → exec .service s = .next { s with heldServices := s.heldServices + 1 }) ∧
    (∀ n, s.ph = .idle → s.heldServices = n + 1 →
      stepTurn .consumer s = .next { s with ph := .drain, heldServices := n })

/-- R135, R136, R137: the drain step, and the test that ends the drain phase. That the test is a step of its own which does only
`ph := gate` is read from the spec by inference (log 14). -/
def Obligations.DrainMovesTheOldestByte : Prop :=
  ∀ s : State, Inv s → s.ph = .drain →
    (s.fill < s.config.w → s.rd ≠ s.wr → ∃ v rest t, liveBytes s = v :: rest ∧ stepTurn .consumer s = .next t ∧
      t = { s with
        rd := incC s.config s.rd, taken := s.taken ++ [v]
        sw := s.sw.write s.fill v, fill := s.fill + 1 } ∧
      windowBytes t = windowBytes s ++ [v] ∧ liveBytes t = rest ∧
      ∀ a, a ≠ s.fill → t.sw.read a = s.sw.read a) ∧
    (s.fill = s.config.w ∨ s.rd = s.wr → stepTurn .consumer s = .next { s with ph := .gate })

/-- R139, R140: the gate. That it is a step of its own, which begins the scan at offset 0, is read from the spec by inference
(log 14). -/
def Obligations.GateWaitsForAHeader : Prop :=
  ∀ s : State, s.ph = .gate →
    (s.fill < 4 → stepTurn .consumer s = .next { s with ph := .idle }) ∧
    (4 ≤ s.fill → stepTurn .consumer s = .next { s with ph := .scan, off := 0 })

/-- R157, R229: one scan iteration of the machine, on the bytes of the window: the tests in their order, the first that fires
deciding. `r` is the unscanned rest. The value IDX takes is the model's (log 23), so it is left open. -/
def Obligations.ScanIterationFollowsTheTests : Prop :=
  ∀ s : State, Inv s → s.ph = .scan →
    let r := (windowBytes s).drop s.off
    (r.length < 4 → stepTurn .consumer s = .next { s with ph := .compact }) ∧
    ∀ b0 b1 fc len body, r = b0 :: b1 :: fc :: len :: body →
      (¬(b0 = 0xAA ∧ b1 = 0x55) → stepTurn .consumer s = .next { s with
        off := s.off + 1, counters := s.counters.bump s.config .sync, trace := s.trace ++ [.event .sync 0] }) ∧
      (b0 = 0xAA ∧ b1 = 0x55 → fc ∉ s.config.allow → stepTurn .consumer s = .next { s with
        off := s.off + 1, fcLatch := fc, counters := s.counters.bump s.config .fc
        trace := s.trace ++ [.event .fc 0] }) ∧
      (b0 = 0xAA ∧ b1 = 0x55 → fc ∈ s.config.allow →
        (s.config.forceAdvance = true → s.config.w < 4 + len.toNat + 1 →
          stepTurn .consumer s = .next { s with
            off := s.off + 1, fcLatch := fc, lLatch := len, counters := s.counters.bump s.config .oversize
            trace := s.trace ++ [.event .oversize len.toNat] }) ∧
        (¬(s.config.forceAdvance = true ∧ s.config.w < 4 + len.toNat + 1) →
          (body.length < len.toNat + 1 → stepTurn .consumer s = .next { s with
            ph := .compact, fcLatch := fc, lLatch := len }) ∧
          (∀ p cks rest, body = p ++ cks :: rest → p.length = len.toNat →
            (cks = sum8 (0xAA :: 0x55 :: fc :: len :: p) → ∃ t, stepTurn .consumer s = .next t ∧
              t = { s with
                off := s.off + 4 + len.toNat + 1, fcLatch := fc, lLatch := len, sum := cks, idx := t.idx
                run := if fc = s.config.fcRun ∧ p.length = s.config.runSize then p else s.run
                counters := countersAfter s.config s.counters (acceptObs s.config fc p)
                trace := s.trace ++ acceptObs s.config fc p }) ∧
            (cks ≠ sum8 (0xAA :: 0x55 :: fc :: len :: p) → ∃ t, stepTurn .consumer s = .next t ∧
              t = { s with
                off := s.off + len.toNat + 1, fcLatch := fc, lLatch := len
                sum := sum8 (0xAA :: 0x55 :: fc :: len :: p), idx := t.idx
                counters := s.counters.bump s.config .cks
                trace := s.trace ++ [.event .cks len.toNat] }))))

/-- R144: a header with a code outside ALLOW costs one byte and EV_FC; with fewer than four bytes left (R141) the scan ends.
The second clause is the model's choice: the fetch never gives such a header, and exec makes the test again (log 25). -/
def Obligations.IllegalCodeAdvancesByOne : Prop :=
  ∀ (s : State) (fc len : Byte),
    (4 ≤ s.fill - s.off → exec (.frameIllegal fc len) s = .next { s with
      off := s.off + 1, fcLatch := fc, counters := s.counters.bump s.config .fc
      trace := s.trace ++ [.event .fc 0] }) ∧
    (s.fill - s.off < 4 → exec (.frameIllegal fc len) s = .next { s with ph := .compact })

/-- R171, R151, R152: a valid "update running state" frame replaces all of RUN if its length is RUN_SIZE and is otherwise
rejected with EV_DLEN; either way it is consumed whole. -/
def Obligations.UpdateFrameReplacesRun : Prop :=
  ∀ (s : State) (p : List Byte), oversize s.config p.length = false → s.off + frameLen p.length ≤ s.fill →
    ∃ t, exec (.frameUpdateRunningState p (sum8 (covered s.config.fcRun p))) s = .next t ∧
      (p.length = s.config.runSize → t = { s with
        off := s.off + 4 + p.length + 1, fcLatch := s.config.fcRun, lLatch := BitVec.ofNat 8 p.length
        sum := sum8 (covered s.config.fcRun p), idx := t.idx, run := p
        counters := s.counters.bump s.config .frame
        trace := s.trace ++ [.event .frame p.length, .dispatch s.config.fcRun p.length p] }) ∧
      (p.length ≠ s.config.runSize → t = { s with
        off := s.off + 4 + p.length + 1, fcLatch := s.config.fcRun, lLatch := BitVec.ofNat 8 p.length
        sum := sum8 (covered s.config.fcRun p), idx := t.idx
        counters := (s.counters.bump s.config .frame).bump s.config .dlen
        trace := s.trace ++ [.event .frame p.length, .dispatch s.config.fcRun p.length p, .event .dlen 0] })

/-- R172, R108: a valid frame with a reserved code is consumed whole, is presented on the dispatch port, and changes no record. -/
def Obligations.ReservedFramesAreConsumed : Prop :=
  ∀ (s : State) (i : Instr) (fc : Byte) (p : List Byte),
    ReservedFrame s.config i fc p (sum8 (covered fc p)) → oversize s.config p.length = false →
    s.off + frameLen p.length ≤ s.fill →
    ∃ t, exec i s = .next t ∧ t = { s with
      off := s.off + 4 + p.length + 1, fcLatch := fc, lLatch := BitVec.ofNat 8 p.length
      sum := sum8 (covered fc p), idx := t.idx
      counters := (s.counters.bump s.config .frame).bump s.config .noHandler
      trace := s.trace ++ [.event .frame p.length, .dispatch fc p.length p, .event .noHandler 0] }

/-- R150: a frame whose checksum byte is wrong is skipped by `L + 1` with EV_CKS and without a dispatch. -/
def Obligations.BadChecksumSkipsLPlusOne : Prop :=
  ∀ (s : State) (i : Instr) (fc : Byte) (p : List Byte) (cks : Byte), LegalFrame s.config i fc p cks →
    oversize s.config p.length = false → s.off + frameLen p.length ≤ s.fill → cks ≠ sum8 (covered fc p) →
    ∃ t, exec i s = .next t ∧ t = { s with
      off := s.off + p.length + 1, fcLatch := fc, lLatch := BitVec.ofNat 8 p.length
      sum := sum8 (covered fc p), idx := t.idx, counters := s.counters.bump s.config .cks
      trace := s.trace ++ [.event .cks p.length] }

/-- R146, R148, R141: a frame that can never fit costs one byte with EV_OVERSIZE when FORCE_ADVANCE is true; one that is not all
there, or of which not even the header is there, ends the scan with OFF unchanged. That exec of a frame makes these tests again,
on a frame that the fetch would not have given it, is the model's choice (log 25). -/
def Obligations.OversizeAdvancesIncompleteWaits : Prop :=
  ∀ (s : State) (i : Instr) (fc : Byte) (p : List Byte) (cks : Byte), LegalFrame s.config i fc p cks →
    (s.fill - s.off < 4 → exec i s = .next { s with ph := .compact }) ∧
    (4 ≤ s.fill - s.off → s.config.forceAdvance = true → s.config.w < 4 + p.length + 1 →
      exec i s = .next { s with
        off := s.off + 1, fcLatch := fc, lLatch := BitVec.ofNat 8 p.length
        counters := s.counters.bump s.config .oversize, trace := s.trace ++ [.event .oversize p.length] }) ∧
    (4 ≤ s.fill - s.off → ¬(s.config.forceAdvance = true ∧ s.config.w < 4 + p.length + 1) →
      s.fill < s.off + 4 + p.length + 1 → exec i s = .next { s with
        ph := .compact, fcLatch := fc, lLatch := BitVec.ofNat 8 p.length })

/-- R155: compaction moves the tail to offset 0 and leaves the elements behind it alone. -/
def Obligations.CompactionMovesTheTail : Prop :=
  ∀ s : State, Inv s → s.ph = .compact →
    ∃ t, stepTurn .consumer s = .next t ∧
      t = { s with sw := t.sw, fill := s.fill - s.off, idx := t.idx, ph := .idle } ∧
      windowBytes t = (windowBytes s).drop s.off ∧
      ∀ a, s.fill - s.off ≤ a → t.sw.read a = s.sw.read a

/-! ## The pass as a whole -/

/-- R159: with no PUSH inside the drain phase, a SERVICE pass of the machine, step by step, is the big-step function: it drains
what fits, shows what the scan of the drained window shows, and leaves its tail at offset 0. Below four bytes the scan shows
nothing and the tail is the window itself, so the gate needs no case. The scratch registers are left open, and so is the number of
consumer steps, which counts the model's own steps for the phase changes (log 14). -/
def Obligations.PassIsTheBigStepFunction : Prop :=
  ∀ s : State, Inv s → s.ph = .idle →
    ∃ n t, execThen .service (List.replicate n .consumer) s = .next t ∧
      t = { s with
        rd := t.rd, taken := t.taken, sw := t.sw, fill := t.fill, off := t.off, fcLatch := t.fcLatch
        lLatch := t.lLatch, sum := t.sum, idx := t.idx, run := t.run, counters := t.counters, trace := t.trace } ∧
      windowBytes t = (scanBytes s.config (drainedWindow s)).2 ∧
      t.trace = s.trace ++ (scanBytes s.config (drainedWindow s)).1 ∧
      t.run = runAfter s.config s.run (scanBytes s.config (drainedWindow s)).1 ∧
      t.counters = countersAfter s.config s.counters (scanBytes s.config (drainedWindow s)).1 ∧
      t.off = (if (drainedWindow s).length < 4 then s.off
        else (drainedWindow s).length - (scanBytes s.config (drainedWindow s)).2.length) ∧
      t.rd = (s.rd + min (s.config.w - s.fill) (occ s)) % s.config.c ∧
      liveBytes t = (liveBytes s).drop (s.config.w - s.fill) ∧
      t.taken = s.taken ++ (liveBytes s).take (s.config.w - s.fill)

/-- R208: scanning a stream in two chunks, the tail of the first in front of the second, shows what scanning it at once shows,
and ends in the same tail. -/
def Obligations.ScanIsIndependentOfChunking : Prop :=
  ∀ (k : Config) (a b : List Byte),
    scanBytes k (a ++ b) =
      ((scanBytes k a).1 ++ (scanBytes k ((scanBytes k a).2 ++ b)).1,
        (scanBytes k ((scanBytes k a).2 ++ b)).2)

/-- R201, R160: a receivable frame at a clean boundary is dispatched exactly once, as a whole, whatever its payload holds and
whatever follows it. -/
def Obligations.EncodedFrameIsDispatchedOnce : Prop :=
  ∀ (k : Config) (fc : Byte) (p rest : List Byte), p.length ≤ 255 → fc ∈ k.allow → frameLen p.length ≤ k.w →
    scanBytes k (encFrame fc p ++ rest) = (acceptObs k fc p ++ (scanBytes k rest).1, (scanBytes k rest).2)

/-- R203: garbage bytes in front of a frame, none of which is the first sync byte, cost one EV_SYNC each and no loss. -/
def Obligations.NoiseCostsOneSyncEach : Prop :=
  ∀ (k : Config) (g : List Byte) (fc : Byte) (p : List Byte), (∀ b ∈ g, b ≠ sync1) → p.length ≤ 255 →
    fc ∈ k.allow → frameLen p.length ≤ k.w →
    scanBytes k (g ++ encFrame fc p) = (List.replicate g.length (.event .sync 0) ++ acceptObs k fc p, [])

/-- R204: a frame with one payload byte changed is rejected with EV_CKS and no dispatch, and scanning resumes `L + 1` bytes
on, four bytes before the frame's end. -/
def Obligations.CorruptedPayloadIsRejected : Prop :=
  ∀ (k : Config) (fc : Byte) (p rest : List Byte) (i : Nat) (b : Byte) (h : i < p.length), p.length ≤ 255 →
    fc ∈ k.allow → frameLen p.length ≤ k.w → b ≠ p[i] →
    let s := frameBytes fc (p.set i b) (sum8 (covered fc p)) ++ rest
    scanBytes k s = (.event .cks p.length :: (scanBytes k (s.drop (p.length + 1))).1,
      (scanBytes k (s.drop (p.length + 1))).2)

/-- R156: what a scan leaves is shorter than a header, or begins with a sync marker, an allowed code and a length whose frame is
not all there and, with FORCE_ADVANCE, fits the window. -/
def Obligations.TailIsShortOrIncomplete : Prop :=
  ∀ (k : Config) (r : List Byte),
    (scanBytes k r).2.length < 4 ∨
    ∃ fc len body, (scanBytes k r).2 = sync1 :: sync2 :: fc :: len :: body ∧ fc ∈ k.allow ∧
      (scanBytes k r).2.length < frameLen len.toNat ∧ (k.forceAdvance = true → frameLen len.toNat ≤ k.w)

/-- R212, R211: a scan emits at most as many events as the window holds bytes, at most one EV_FRAME for five of them, and
consumes exactly the bytes its events account for. -/
def Obligations.EventsAreBoundedByTheWindow : Prop :=
  ∀ (k : Config) (r : List Byte),
    ((scanBytes k r).1.filter Obs.isEvent).length ≤ r.length ∧
    5 * countEvent .frame (scanBytes k r).1 ≤ r.length ∧
    ((scanBytes k r).1.map Obs.consumed).sum + (scanBytes k r).2.length = r.length

/-- R147: with FORCE_ADVANCE false a full window behind an oversize candidate is stuck: a pass drains, shows and consumes
nothing. That such a pass is four consumer steps (the two phase changes, the scan's end, compaction) is the model's inference (log 14). -/
def Obligations.OversizeStallsWithoutForceAdvance : Prop :=
  ∀ (s : State) (fc len : Byte) (body : List Byte), Inv s → s.ph = .idle → s.config.forceAdvance = false →
    s.fill = s.config.w → windowBytes s = sync1 :: sync2 :: fc :: len :: body → fc ∈ s.config.allow →
    s.config.w < frameLen len.toNat →
    ∃ t, execThen .service (List.replicate 4 .consumer) s = .next t ∧
      t = { s with sw := t.sw, off := 0, fcLatch := fc, lLatch := len, idx := t.idx } ∧
      ∀ a, t.sw.read a = s.sw.read a

/-- R162: a pass with nothing to do changes nothing. That such a pass is two or four consumer steps is the model's inference (log 14). -/
def Obligations.IdlePassChangesNothing : Prop :=
  ∀ s : State, Inv s → s.ph = .idle → s.rd = s.wr →
    (s.fill < 4 → execThen .service [.consumer, .consumer] s = .next s) ∧
    (∀ fc len body, windowBytes s = sync1 :: sync2 :: fc :: len :: body → fc ∈ s.config.allow →
      oversize s.config len.toNat = false → s.fill < frameLen len.toNat →
      ∃ t, execThen .service (List.replicate 4 .consumer) s = .next t ∧
        t = { s with sw := t.sw, off := 0, fcLatch := fc, lLatch := len, idx := t.idx } ∧
        ∀ a, t.sw.read a = s.sw.read a)

/-- R202, R156, R137: with FORCE_ADVANCE true a pass that begins with room in the window takes from the ring all that fits, and
leaves room again, so the ring is emptied by repeated passes. The number of consumer steps is left open (log 14). -/
def Obligations.PassShortensTheRingAndLeavesRoom : Prop :=
  ∀ s : State, Inv s → s.ph = .idle → s.config.forceAdvance = true → s.fill < s.config.w →
    ∃ n t, execThen .service (List.replicate n .consumer) s = .next t ∧ t.ph = .idle ∧
      occ t = occ s - (s.config.w - s.fill) ∧ (occ s ≠ 0 → occ t < occ s) ∧ t.fill < t.config.w

/-- R207, R201: what one machine sends over an always-ok SINK, pushed into a receiver at a clean boundary with room for it and
serviced there, is dispatched exactly once with the code and payload sent, and nothing else is shown. That an empty list of
the SINK's answers is an always-ok SINK is the model's (log 17), and so is the batch from which PUSH_MANY's bytes are pushed (log 13). -/
def Obligations.SentFrameIsDispatchedByTheReceiver : Prop :=
  ∀ (a b : State) (fc : Byte) (p : List Byte), Inv a → Inv b → p.length ≤ 255 → a.txlen = 0 →
    a.sinkAnswers = [] → b.ph = .idle → b.rd = b.wr → b.fill = 0 → b.batch = [] → fc ∈ b.config.allow →
    frameLen p.length ≤ b.config.w → frameLen p.length ≤ b.config.c - 1 →
    ∃ a' sent, execThen (.sendFrame fc p) (List.replicate (frameLen p.length) .sender) a = .next a' ∧
      a'.trace = a.trace ++ sent ∧
      ∃ b1, execThen (.pushMany (emittedBytes sent))
          (List.replicate (emittedBytes sent).length .producer) b = .next b1 ∧
        ∃ n b2, execThen .service (List.replicate n .consumer) b1 = .next b2 ∧
          b2.ph = .idle ∧ b2.rd = b2.wr ∧ b2.fill = 0 ∧ b2.trace = b.trace ++ acceptObs b.config fc p ∧
          b2.run = if fc = b.config.fcRun ∧ p.length = b.config.runSize then p else b.run

/-! ## Dispatcher and records -/

/-- R168, R171, R172, R173: DISPATCH replaces RUN, rejects a wrong length, or is a no-op with EV_NOHANDLER. That a code outside ALLOW
emits the event too is read from R168's pseudocode against vector H7 (the model's choice, log 20).
R114, R167: a DISPATCH is shown only by the accept step: at the consumer's turn of the scan, once, for the whole frame ENC(fc, P)
with `fc` in ALLOW at `OFF`, which then moves behind it; and what that step does to RUN, the counters and the trace is EV_FRAME and
then exec of that DISPATCH. -/
def Obligations.DispatchReplacesRejectsOrIgnores : Prop :=
  (∀ (s : State) (fc : Byte) (p : List Byte), p.length ≤ 255 →
    (fc = s.config.fcRun → p.length = s.config.runSize →
      exec (.dispatch fc p) s = .next { s with run := p, trace := s.trace ++ [.dispatch fc p.length p] }) ∧
    (fc = s.config.fcRun → p.length ≠ s.config.runSize →
      exec (.dispatch fc p) s = .next { s with
        counters := s.counters.bump s.config .dlen
        trace := s.trace ++ [.dispatch fc p.length p, .event .dlen 0] }) ∧
    (fc ≠ s.config.fcRun →
      exec (.dispatch fc p) s = .next { s with
        counters := s.counters.bump s.config .noHandler
        trace := s.trace ++ [.dispatch fc p.length p, .event .noHandler 0] })) ∧
  ∀ (s t : State) (fc : Byte) (l : Nat) (p : List Byte), Inv s → step s = .next t →
    .dispatch fc l p ∈ t.trace.drop s.trace.length →
    nextTurn s = .consumer ∧ s.ph = .scan ∧ fc ∈ s.config.allow ∧ l = p.length ∧
      (∃ rest, (windowBytes s).drop s.off = encFrame fc p ++ rest) ∧
      t.off = s.off + frameLen l ∧ t.trace = s.trace ++ acceptObs s.config fc p ∧
      ∃ u, exec (.dispatch fc p) (emit .frame l s) = .next u ∧
        t.run = u.run ∧ t.counters = u.counters ∧ t.trace = u.trace

/-- R20, R21, R183: a length above 255 cannot be presented; the model refuses it by name (log 12). -/
def Obligations.UnpresentableLengthsAreRefused : Prop :=
  ∀ (s : State) (fc : Byte) (p : List Byte), 255 < p.length →
    exec (.dispatch fc p) s = .refused .lengthNotPresentable ∧
    exec (.sendFrame fc p) s = .refused .lengthNotPresentable

/-- R176, R177: a snapshot returns the whole record and changes nothing else. -/
def Obligations.SnapshotsCopyTheRecords : Prop :=
  ∀ s : State,
    exec .snapshotRunningState s = .next { s with trace := s.trace ++ [.snapshotRun s.run] } ∧
    exec .snapshotConfig s = .next { s with trace := s.trace ++ [.snapshotConfig s.cfg] }

/-- R42, R43, R170, R171: a step other than RESET leaves CFG alone, and leaves RUN alone or replaces it whole by the payload of a
DISPATCH(FC_RUN, RUN_SIZE, P) it shows. -/
def Obligations.RunIsReplacedWholeCfgNever : Prop :=
  ∀ s t : State, step s = .next t → (∀ u, fetch s ≠ .instr .reset u) →
    t.cfg = s.cfg ∧
    (t.run = s.run ∨
      t.run.length = s.config.runSize ∧
        .dispatch s.config.fcRun s.config.runSize t.run ∈ t.trace.drop s.trace.length)

/-! ## Frame builder -/

/-- R186: BUILD; TXB holds ENC(fc, P) from offset 0 on, and its other bytes stay as they were. -/
def Obligations.BuildPlacesTheFrame : Prop :=
  ∀ (s : State) (fc : Byte) (p : List Byte), p.length ≤ 255 → s.txlen = 0 →
    ∃ t, exec (.sendFrame fc p) s = .next t ∧
      t = { s with txb := t.txb, txlen := 4 + p.length + 1, txi := 0 } ∧
      (∀ a, a < 4 + p.length + 1 → t.txb.read a = (encFrame fc p)[a]?) ∧
      (∀ a, 4 + p.length + 1 ≤ a → t.txb.read a = s.txb.read a)

/-- R198: a request made while a send is in progress is held, and the oldest held one is issued once none is. The model's choices:
held requests are a queue, first in first out, of any length (log 15), and one keeps the code and payload presented with it, to be
built from those later (R190, log 29). -/
def Obligations.SecondSendWaits : Prop :=
  ∀ (s : State) (fc : Byte) (p : List Byte), p.length ≤ 255 →
    (s.txlen ≠ 0 → exec (.sendFrame fc p) s = .next { s with heldSends := s.heldSends ++ [(fc, p)] }) ∧
    (∀ rest, s.txlen = 0 → s.heldSends = (fc, p) :: rest →
      stepTurn .sender s = exec (.sendFrame fc p) { s with heldSends := rest })

/-- R193, R195, R22: TRANSMIT_ONE(b), in one step with SERIALIZE_STEP, shows the byte with the SINK's answer, which it uses up: on ok
TXI moves on, or the send ends behind the last byte; on not ok EV_SINKFAIL and the send ends. Not enabled, the offer alone is
made, and no step does that (the model's choice, log 18); where the answers stand is the model's too (log 17). -/
def Obligations.TransmitOneTakesOneAnswer : Prop :=
  ∀ (s : State) (b : Byte),
    (s.sinkAnswers.headD true = true → s.txi + 1 < s.txlen → exec (.transmitOne b) s = .next { s with
      txi := s.txi + 1, sinkAnswers := s.sinkAnswers.tail, trace := s.trace ++ [.transmit b true] }) ∧
    (s.sinkAnswers.headD true = true → s.txi + 1 = s.txlen → exec (.transmitOne b) s = .next { s with
      txlen := 0, txi := 0, sinkAnswers := s.sinkAnswers.tail, trace := s.trace ++ [.transmit b true] }) ∧
    (s.sinkAnswers.headD true = false → s.txi < s.txlen → exec (.transmitOne b) s = .next { s with
      txlen := 0, txi := 0, sinkAnswers := s.sinkAnswers.tail
      counters := s.counters.bump s.config .sinkFail
      trace := s.trace ++ [.transmit b false, .event .sinkFail 0] }) ∧
    (s.txlen ≤ s.txi → exec (.transmitOne b) s = .next { s with
      sinkAnswers := s.sinkAnswers.tail, trace := s.trace ++ [.transmit b (s.sinkAnswers.headD true)] })

/-- R193, R195: SERIALIZE_STEP offers `TXB[TXI]`; on ok TXI moves on, or the send ends in the step in which TXI reaches TXLEN; on
not ok EV_SINKFAIL and the send ends. TXB keeps its bytes. Where the answers stand is the model's (log 17). -/
def Obligations.SerializerOffersOneByte : Prop :=
  ∀ s : State, Inv s → s.txlen ≠ 0 → ∃ b, s.txb.read s.txi = some b ∧
    (s.sinkAnswers.headD true = true → s.txi + 1 < s.txlen → stepTurn .sender s = .next { s with
      txi := s.txi + 1, sinkAnswers := s.sinkAnswers.tail, trace := s.trace ++ [.transmit b true] }) ∧
    (s.sinkAnswers.headD true = true → s.txi + 1 = s.txlen → stepTurn .sender s = .next { s with
      txlen := 0, txi := 0, sinkAnswers := s.sinkAnswers.tail, trace := s.trace ++ [.transmit b true] }) ∧
    (s.sinkAnswers.headD true = false → stepTurn .sender s = .next { s with
      txlen := 0, txi := 0, sinkAnswers := s.sinkAnswers.tail
      counters := s.counters.bump s.config .sinkFail
      trace := s.trace ++ [.transmit b false, .event .sinkFail 0] })

/-- R191: with an always-ok SINK one SEND_FRAME emits exactly ENC(fc, P), each byte once, in order, TX_BUSY from the build step to
the last answer. Where the answers stand is the model's (log 17). -/
def Obligations.SendEmitsTheEncodedFrame : Prop :=
  ∀ (s : State) (fc : Byte) (p : List Byte), p.length ≤ 255 → s.txlen = 0 →
    (∀ ok ∈ s.sinkAnswers.take (frameLen p.length), ok = true) →
    (∀ n, n < frameLen p.length → ∃ t, execThen (.sendFrame fc p) (List.replicate n .sender) s = .next t ∧
      txBusy t = true ∧ t.txi = n ∧
      t.trace = s.trace ++ ((encFrame fc p).take n).map fun b => .transmit b true) ∧
    ∃ t, execThen (.sendFrame fc p) (List.replicate (frameLen p.length) .sender) s = .next t ∧
      t = { s with
        txb := t.txb, txlen := 0, txi := 0, sinkAnswers := s.sinkAnswers.drop (frameLen p.length)
        trace := s.trace ++ (encFrame fc p).map fun b => .transmit b true }

/-- R194: the first not-ok answer ends the send: a proper prefix of ENC(fc, P) is emitted, the failing byte and every later one are
not, and no retry is made. Where the answers stand is the model's (log 17). -/
def Obligations.SinkFailureCutsTheFrameShort : Prop :=
  ∀ (s : State) (fc : Byte) (p : List Byte) (n : Nat) (more : List Bool), p.length ≤ 255 → s.txlen = 0 →
    n < frameLen p.length → s.sinkAnswers = List.replicate n true ++ false :: more →
    ∃ t b sent, execThen (.sendFrame fc p) (List.replicate (n + 1) .sender) s = .next t ∧
      (encFrame fc p)[n]? = some b ∧
      sent = (((encFrame fc p).take n).map fun b => Obs.transmit b true) ++ [.transmit b false, .event .sinkFail 0] ∧
      emittedBytes sent = (encFrame fc p).take n ∧
      t = { s with
        txb := t.txb, txlen := 0, txi := 0, sinkAnswers := more
        counters := s.counters.bump s.config .sinkFail, trace := s.trace ++ sent }

/-! ## Reset, flags, agents -/

/-- R57, R58, R59, R61, R60, R247: what RESET leaves, from every state. RUN and CFG are free values of their sizes
(log 5). -/
def Obligations.ResetLeavesTheResetValues : Prop :=
  ∀ s : State, ∃ t, exec .reset s = .next t ∧
    t.wr = 0 ∧ t.rd = 0 ∧ t.fill = 0 ∧ t.off = 0 ∧ t.ph = .idle ∧ t.fcLatch = 0 ∧ t.lLatch = 0 ∧ t.sum = 0 ∧
    t.idx = 0 ∧ t.txlen = 0 ∧ t.txi = 0 ∧ (∀ e, t.counters.get e = 0) ∧
    t.accepted.length = 0 ∧ t.taken.length = 0 ∧
    t.run.length = s.config.runSize ∧ t.cfg.length = s.config.cfgSize ∧ t.config = s.config ∧
    hasDataFlag t = false ∧ svcBusy t = false ∧ txBusy t = false ∧ (s.config.wf → rbFull t = false) ∧
    liveBytes t = [] ∧ windowBytes t = []

/-- R52, R44 to R47: the status port's bits, all 0 after reset (State.reset, under TC-A: log 2; RESET from every
state is `ResetLeavesTheResetValues`). -/
def Obligations.StatusPortShowsTheFlags : Prop :=
  statusPort State.reset = 0 ∧
  ∀ s : State,
    (statusPort s).getLsbD 0 = decide (s.rd ≠ s.wr) ∧
    (statusPort s).getLsbD 1 = decide (incC s.config s.wr = s.rd) ∧
    (statusPort s).getLsbD 2 = decide (s.ph ≠ .idle) ∧
    (statusPort s).getLsbD 3 = decide (s.txlen ≠ 0)

/-- R82: each agent's own steps write only what it owns. What no rule says: the producer's steps also use up its batch (log 13), the
consumer's steps also change heldServices and the sender's also heldSends (log 15), the sender's also use up the SINK's answers
(log 17); these four fields are the model's own. accepted and taken are the ghosts
of R29 (log 22). -/
def Obligations.AgentsWriteOnlyWhatTheyOwn : Prop :=
  ∀ s t : State,
    (stepTurn .producer s = .next t → t = { s with
      rb := t.rb, wr := t.wr, accepted := t.accepted, batch := t.batch, counters := t.counters, trace := t.trace }) ∧
    (stepTurn .consumer s = .next t → t = { s with
      rd := t.rd, taken := t.taken, sw := t.sw, fill := t.fill, off := t.off, ph := t.ph, fcLatch := t.fcLatch
      lLatch := t.lLatch, sum := t.sum, idx := t.idx, run := t.run, heldServices := t.heldServices
      counters := t.counters, trace := t.trace }) ∧
    (stepTurn .sender s = .next t → t = { s with
      txb := t.txb, txlen := t.txlen, txi := t.txi, heldSends := t.heldSends, sinkAnswers := t.sinkAnswers
      counters := t.counters, trace := t.trace })

/-- R138, R199, R230: outside the drain phase a consumer step touches no ring state and commutes with a PUSH; a sender step commutes
with every producer and consumer step. Only the order in which things are shown differs. What a turn does where
its agent has nothing to do (log 28), that a producer's step pushes from the batch (log 13) and that a held request begins at a turn of its agent (log 14, 15) are the model's. -/
def Obligations.IndependentAgentsCommute : Prop :=
  (∀ s t : State, s.ph ≠ .drain → stepTurn .consumer s = .next t →
    t.rb = s.rb ∧ t.wr = s.wr ∧ t.rd = s.rd) ∧
  (∀ s : State, Inv s → s.ph ≠ .drain →
    ∃ t u, runTurns [.consumer, .producer] s = .next t ∧ runTurns [.producer, .consumer] s = .next u ∧
      SameUpToOrder s t u) ∧
  (∀ (s : State) (a : Turn), Inv s → a = .producer ∨ a = .consumer →
    ∃ t u, runTurns [.sender, a] s = .next t ∧ runTurns [a, .sender] s = .next u ∧ SameUpToOrder s t u)
end

