-- ==== Sys2Proof/Laws/Decode.lean ====
section
/-! SUPPORT. The small lemmas of the decoder's and encoder's pieces, of the checksum and of the code classes. -/

namespace Sys2Proof

/-! ## Pieces of the decoder -/

theorem takeBytes_append (p rest : List Byte) : takeBytes p.length (p ++ rest) = some (p, rest) := by
  induction p with
  | nil => rfl
  | cons b p ih => simp [takeBytes, ih]

theorem takeBytes_eq_some {n : Nat} {bs p rest : List Byte} (h : takeBytes n bs = some (p, rest)) :
    bs = p ++ rest ∧ p.length = n := by
  induction n generalizing bs p with
  | zero =>
    simp only [takeBytes, Option.some.injEq, Prod.mk.injEq] at h
    simp [← h.1, ← h.2]
  | succ n ih =>
    cases bs with
    | nil => simp [takeBytes] at h
    | cons b bs =>
      cases ht : takeBytes n bs with
      | none => simp [takeBytes, ht] at h
      | some x =>
        simp only [takeBytes, ht, Option.some.injEq, Prod.mk.injEq] at h
        obtain ⟨h1, h2⟩ := ih (p := x.1) (by rw [ht, ← h.2])
        simp [← h.1, h1, h2]

theorem takeBytes_eq_none {n : Nat} {bs : List Byte} : takeBytes n bs = none ↔ bs.length < n := by
  induction n generalizing bs with
  | zero => simp [takeBytes]
  | succ n ih =>
    cases bs with
    | nil => simp [takeBytes]
    | cons b bs =>
      cases ht : takeBytes n bs with
      | none =>
        have := ih.1 ht
        simpa [takeBytes, ht] using this
      | some x =>
        have := mt (ih (bs := bs)).2 (by rw [ht]; exact Option.some_ne_none x)
        simpa [takeBytes, ht] using this

/-- With enough bytes `takeBytes` splits the list. -/
theorem takeBytes_eq_split {n : Nat} {bs : List Byte} (h : n ≤ bs.length) :
    takeBytes n bs = some (bs.take n, bs.drop n) := by
  have := takeBytes_append (bs.take n) (bs.drop n)
  rwa [List.take_append_drop, List.length_take, Nat.min_eq_left h] at this

theorem takeMarked_markBytes (p rest : List Byte) : takeMarked (markBytes p ++ rest) = some (p, rest) := by
  induction p with
  | nil => cases rest <;> simp [markBytes, takeMarked]
  | cons b p ih =>
    simp only [markBytes, List.cons_append, takeMarked, ih]
    rw [if_neg (by decide)]
    rfl

theorem takeMarked_eq_some : ∀ {bs p rest : List Byte}, takeMarked bs = some (p, rest) → bs = markBytes p ++ rest
  | [], p, rest, h => by simp [takeMarked] at h
  | [m], p, rest, h => by
    by_cases hm : m = 0
    · simp only [takeMarked, hm, if_true, Option.some.injEq, Prod.mk.injEq] at h
      simp [← h.1, ← h.2, markBytes, hm]
    · rw [takeMarked, if_neg hm] at h
      exact absurd h (Option.some_ne_none _).symm
  | m :: b :: bs, p, rest, h => by
    by_cases hm : m = 0
    · simp only [takeMarked, hm, if_true, Option.some.injEq, Prod.mk.injEq] at h
      simp [← h.1, ← h.2, markBytes, hm]
    · by_cases hm1 : m = 1
      · cases ht : takeMarked bs with
        | none => simp [takeMarked, hm1, ht] at h
        | some x =>
          simp only [takeMarked, hm1, ht, if_true, if_false, Option.some.injEq, Prod.mk.injEq,
            show ¬(1 : Byte) = 0 by decide] at h
          have := takeMarked_eq_some (bs := bs) (p := x.1) (rest := rest) (by rw [ht, ← h.2])
          simp [← h.1, markBytes, hm1, ← this]
      · rw [takeMarked, if_neg hm, if_neg hm1] at h
        simp at h

/-! ## Code classes -/

/-- The illegal codes are those outside ALLOW (R106). -/
theorem Config.classOf_illegal {k : Config} {fc : Byte} : k.classOf fc = .illegal ↔ fc ∉ k.allow := by
  unfold Config.classOf Config.allow
  by_cases h1 : fc = k.fcRun
  · simp [h1]
  · by_cases h2 : fc ∈ k.configCodes
    · simp [h1, h2]
    · by_cases h3 : fc ∈ k.cardCodes
      · simp [h1, h2, h3]
      · by_cases h4 : fc ∈ k.alarmCodes <;> simp [h1, h2, h3, h4]

/-- The handled class has one member (R107). -/
theorem Config.classOf_handled {k : Config} {fc : Byte} : k.classOf fc = .handled ↔ fc = k.fcRun := by
  unfold Config.classOf
  by_cases h1 : fc = k.fcRun
  · simp [h1]
  · by_cases h2 : fc ∈ k.configCodes
    · simp [h1, h2]
    · by_cases h3 : fc ∈ k.cardCodes
      · simp [h1, h2, h3]
      · by_cases h4 : fc ∈ k.alarmCodes <;> simp [h1, h2, h3, h4]

theorem Config.fcRun_mem_allow (k : Config) : k.fcRun ∈ k.allow := by simp [Config.allow]

/-! ## Lengths -/

@[simp] theorem header_length (fc len : Byte) : (header fc len).length = 4 := rfl

@[simp] theorem covered_length (fc : Byte) (p : List Byte) : (covered fc p).length = 4 + p.length := by
  simp [covered]

@[simp] theorem frameBytes_length (fc : Byte) (p : List Byte) (cks : Byte) :
    (frameBytes fc p cks).length = frameLen p.length := by
  simp [frameBytes, frameLen]

@[simp] theorem encFrame_length (fc : Byte) (p : List Byte) : (encFrame fc p).length = frameLen p.length := by
  simp [encFrame]

theorem toNat_ofNat_length {p : List Byte} (h : p.length ≤ 255) : (BitVec.ofNat 8 p.length).toNat = p.length := by
  simp only [BitVec.toNat_ofNat]
  omega

/-! ## The checksum -/

@[simp] theorem sum8_nil : sum8 [] = 0 := rfl

theorem sum8_append (a b : List Byte) : sum8 (a ++ b) = sum8 a + sum8 b := by
  simp [sum8, BitVec.ofNat_add]

theorem sum8_cons (b : Byte) (s : List Byte) : sum8 (b :: s) = b + sum8 s := by
  simp [sum8, BitVec.ofNat_add]

end Sys2Proof
end

