-- ==== Sys2Proof/Laws/Memory.lean ====
section
/-! SUPPORT. The laws of the arrays: reading after writing, the canonical form, and one lemma for each access of
`Machine/Operands.lean` that says everything it can do. -/

namespace Sys2Proof.Machine

namespace Memory

@[simp] theorem read_nil (i : Nat) : Memory.read [] i = none := rfl

theorem read_write_same (m : Memory) (i : Nat) (b : Byte) : (Memory.write m i b).read i = some b := by
  induction m with
  | nil => simp [write, read]
  | cons x r ih =>
    obtain ⟨k, v⟩ := x
    by_cases h1 : i < k
    · simp [write, read, h1]
    · by_cases h2 : i = k
      · simp [write, read, h2]
      · simp [write, read, h1, h2, ih]

theorem read_write_other (m : Memory) {i j : Nat} (b : Byte) (h : j ≠ i) :
    (Memory.write m i b).read j = Memory.read m j := by
  induction m with
  | nil => simp [write, read, h]
  | cons x r ih =>
    obtain ⟨k, v⟩ := x
    by_cases h1 : i < k
    · simp [write, read, h1, h]
    · by_cases h2 : i = k
      · subst h2
        simp [write, read, h]
      · by_cases h3 : j = k <;> simp [write, read, h1, h2, h3, ih]

/-- A read after a write: the written byte at its index, the old byte elsewhere. -/
theorem read_write (m : Memory) (i j : Nat) (b : Byte) :
    (Memory.write m i b).read j = if j = i then some b else Memory.read m j := by
  by_cases h : j = i
  · simp [h, read_write_same]
  · simp [h, read_write_other m b h]

theorem mem_write {m : Memory} {i : Nat} {b : Byte} {x : Host.Cell} (h : x ∈ Memory.write m i b) :
    x = (i, b) ∨ x ∈ m := by
  induction m with
  | nil => simpa [write] using h
  | cons y r ih =>
    obtain ⟨k, v⟩ := y
    by_cases h1 : i < k
    · simp only [write, h1, if_true, List.mem_cons] at h
      simpa using h
    · by_cases h2 : i = k
      · simp only [write, h2, if_true, if_false, lt_irrefl, List.mem_cons] at h
        rcases h with h | h
        · exact .inl (by rw [h, h2])
        · exact .inr (List.mem_cons_of_mem _ h)
      · simp only [write, h1, h2, if_false, List.mem_cons] at h
        rcases h with h | h
        · exact .inr (by simp [h])
        · exact (ih h).imp_right (List.mem_cons_of_mem _)

/-- Writing keeps the canonical form. -/
theorem wf_write {m : Memory} (h : Memory.wf m) (i : Nat) (b : Byte) : Memory.wf (m.write i b) := by
  induction m with
  | nil => simp [write, wf]
  | cons x r ih =>
    obtain ⟨k, v⟩ := x
    simp only [wf, List.map_cons, List.pairwise_cons, List.mem_map] at h ih ⊢
    by_cases h1 : i < k
    · simp only [write, h1, if_true, List.map_cons, List.pairwise_cons, List.mem_cons, List.mem_map]
      refine ⟨?_, h.1, h.2⟩
      rintro a (rfl | ⟨y, hy, rfl⟩)
      · exact h1
      · exact lt_trans h1 (h.1 _ ⟨y, hy, rfl⟩)
    · by_cases h2 : i = k
      · subst h2
        simp only [write, lt_irrefl, if_true, if_false, List.map_cons, List.pairwise_cons, List.mem_map]
        exact h
      · simp only [write, h1, h2, if_false, List.map_cons, List.pairwise_cons, List.mem_map]
        refine ⟨?_, ih h.2⟩
        rintro a ⟨y, hy, rfl⟩
        rcases mem_write hy with rfl | hy
        · omega
        · exact h.1 _ ⟨y, hy, rfl⟩

/-- A read element is listed. -/
theorem mem_of_read {m : Memory} {i : Nat} {b : Byte} (h : Memory.read m i = some b) : (i, b) ∈ m := by
  induction m with
  | nil => simp at h
  | cons x r ih =>
    obtain ⟨k, v⟩ := x
    by_cases h1 : i = k
    · simp only [read, h1, if_true, Option.some.injEq] at h
      simp [h1, h]
    · simp only [read, h1, if_false] at h
      exact List.mem_cons_of_mem _ (ih h)

/-- Every listed index below a bound stays so when the written index is below it. -/
theorem bounded_write {m : Memory} {n i : Nat} (h : ∀ x ∈ m, x.1 < n) (hi : i < n) (b : Byte) :
    ∀ x ∈ m.write i b, x.1 < n := by
  intro x hx
  rcases mem_write hx with rfl | hx
  · exact hi
  · exact h x hx

end Memory

/-- `load` answers a byte exactly when the index is inside the array and the element has been written. -/
theorem load_eq_ok {k : Config} {sp : Space} {m : Memory} {i : Nat} {b : Byte} :
    load k sp m i = .ok b ↔ i < sp.size k ∧ m.read i = some b := by
  unfold load
  by_cases h : i < sp.size k
  · cases hr : m.read i <;> simp [h]
  · simp [h]

theorem load_ok_of_isSome {k : Config} {sp : Space} {m : Memory} {i : Nat} (hi : i < sp.size k)
    (h : (m.read i).isSome) : load k sp m i = .ok ((m.read i).getD 0) := by
  obtain ⟨b, hb⟩ := Option.isSome_iff_exists.1 h
  rw [load_eq_ok.2 ⟨hi, hb⟩, hb, Option.getD_some]

/-- `store` writes exactly when the index is inside the array. -/
theorem store_eq_ok {k : Config} {sp : Space} {m m' : Memory} {i : Nat} {b : Byte} :
    store k sp m i b = .ok m' ↔ i < sp.size k ∧ m' = m.write i b := by
  unfold store
  by_cases h : i < sp.size k <;> simp [h, eq_comm]

theorem store_ok {k : Config} {sp : Space} {m : Memory} {i : Nat} {b : Byte} (h : i < sp.size k) :
    store k sp m i b = .ok (m.write i b) := store_eq_ok.2 ⟨h, rfl⟩

/-- `loadRange` answers the bytes in order when all of them are inside the array and written. -/
theorem loadRange_ok {k : Config} {sp : Space} {m : Memory} (n i : Nat) (hb : i + n ≤ sp.size k)
    (h : ∀ j < n, (m.read (i + j)).isSome) :
    loadRange k sp m i n = .ok ((List.range n).map fun j => (m.read (i + j)).getD 0) := by
  induction n generalizing i with
  | zero => rfl
  | succ n ih =>
    have h0 := load_ok_of_isSome (k := k) (sp := sp) (m := m) (i := i) (by omega) (by simpa using h 0 (by omega))
    have h1 := ih (i + 1) (by omega) fun j hj => by
      have := h (j + 1) (by omega)
      rwa [show i + (j + 1) = i + 1 + j by omega] at this
    rw [loadRange, h0, h1]
    simp only [List.range_succ_eq_map, List.map_cons, List.map_map, Nat.add_zero]
    congr 2
    apply List.map_congr_left
    intro j _
    simp only [Function.comp, Nat.succ_eq_add_one]
    rw [show i + 1 + j = i + (j + 1) by omega]

/-- What `loadRange` answers, when it answers. -/
theorem loadRange_eq_ok {k : Config} {sp : Space} {m : Memory} {bs : List Byte} (n i : Nat)
    (h : loadRange k sp m i n = .ok bs) : bs.length = n ∧ ∀ j, (hj : j < bs.length) → m.read (i + j) = some bs[j] := by
  induction n generalizing i bs with
  | zero =>
    simp only [loadRange, Except.ok.injEq] at h
    subst h
    simp
  | succ n ih =>
    rw [loadRange] at h
    cases hl : load k sp m i with
    | error f => simp [hl] at h
    | ok b =>
      cases hr : loadRange k sp m (i + 1) n with
      | error f => simp [hl, hr] at h
      | ok cs =>
        simp only [hl, hr, Except.ok.injEq] at h
        subst h
        obtain ⟨hlen, hget⟩ := ih (i + 1) hr
        refine ⟨by simp [hlen], ?_⟩
        intro j hj
        cases j with
        | zero => simpa using (load_eq_ok.1 hl).2
        | succ j =>
          have := hget j (by simpa using hj)
          rw [show i + (j + 1) = i + 1 + j by omega]
          simpa using this

/-- `storeRange` writes the bytes in order when all of them are inside the array: the new bytes in their range, the old
ones outside it. -/
theorem storeRange_ok {k : Config} {sp : Space} (bs : List Byte) (m : Memory) (i : Nat)
    (hb : i + bs.length ≤ sp.size k) :
    ∃ m', storeRange k sp m i bs = .ok m' ∧
      (∀ j, m'.read j = if i ≤ j ∧ j < i + bs.length then bs[j - i]? else m.read j) ∧
      (Memory.wf m → Memory.wf m') ∧ (∀ n, i + bs.length ≤ n → (∀ x ∈ m, x.1 < n) → ∀ x ∈ m', x.1 < n) := by
  induction bs generalizing m i with
  | nil =>
    refine ⟨m, rfl, ?_, id, fun _ _ h => h⟩
    intro j
    simp only [List.length_nil, Nat.add_zero]
    rw [if_neg (by omega)]
  | cons b bs ih =>
    simp only [List.length_cons] at hb
    obtain ⟨m', hm', hread, hwf, hbd⟩ := ih (m.write i b) (i + 1) (by omega)
    refine ⟨m', ?_, ?_, fun h => hwf (Memory.wf_write h i b), ?_⟩
    · rw [storeRange, store_ok (by omega)]
      exact hm'
    · intro j
      rw [hread j, Memory.read_write]
      simp only [List.length_cons]
      by_cases h1 : i + 1 ≤ j ∧ j < i + 1 + bs.length
      · rw [if_pos h1, if_pos (by omega)]
        obtain ⟨d, rfl⟩ := Nat.exists_eq_add_of_le h1.1
        rw [show i + 1 + d - i = d + 1 by omega, show i + 1 + d - (i + 1) = d by omega]
        simp
      · rw [if_neg h1]
        by_cases h2 : j = i
        · subst h2
          rw [if_pos rfl, if_pos (by omega)]
          simp
        · rw [if_neg h2, if_neg (by omega)]
    · intro n hn h
      exact hbd n (by simp only [List.length_cons] at hn; omega)
        (Memory.bounded_write h (by simp only [List.length_cons] at hn; omega) b)

/-- `copyDown` towards lower or equal indexes moves the range as it was before the copy (R155: "ascending i, so overlapping
ranges copy correctly"); elements outside the destination keep their bytes. -/
theorem copyDown_ok {k : Config} {sp : Space} (n : Nat) (m : Memory) (src dst : Nat) (hd : dst ≤ src)
    (hb : src + n ≤ sp.size k) (hw : ∀ j < n, (m.read (src + j)).isSome) :
    ∃ m', copyDown k sp m src dst n = .ok m' ∧
      (∀ j, m'.read j = if dst ≤ j ∧ j < dst + n then m.read (src + (j - dst)) else m.read j) ∧
      (Memory.wf m → Memory.wf m') ∧ (∀ N, sp.size k ≤ N → (∀ x ∈ m, x.1 < N) → ∀ x ∈ m', x.1 < N) := by
  induction n generalizing m src dst with
  | zero =>
    refine ⟨m, rfl, ?_, id, fun _ _ h => h⟩
    intro j
    rw [if_neg (by omega)]
  | succ n ih =>
    obtain ⟨b, hbr⟩ := Option.isSome_iff_exists.1 (by simpa using hw 0 (by omega))
    have hl : load k sp m src = .ok b := load_eq_ok.2 ⟨by omega, hbr⟩
    obtain ⟨m', hm', hread, hwf, hbd⟩ := ih (m.write dst b) (src + 1) (dst + 1) (by omega) (by omega) fun j hj => by
      rw [Memory.read_write_other _ _ (by omega)]
      have := hw (j + 1) (by omega)
      rwa [show src + (j + 1) = src + 1 + j by omega] at this
    refine ⟨m', ?_, ?_, fun h => hwf (Memory.wf_write h dst b), ?_⟩
    · rw [copyDown, hl]
      simp only
      rw [store_ok (by omega)]
      exact hm'
    · intro j
      rw [hread j]
      by_cases h1 : dst + 1 ≤ j ∧ j < dst + 1 + n
      · rw [if_pos h1, if_pos (by omega), Memory.read_write_other _ _ (by omega)]
        rw [show src + 1 + (j - (dst + 1)) = src + (j - dst) by omega]
      · rw [if_neg h1, Memory.read_write]
        by_cases h2 : j = dst
        · subst h2
          rw [if_pos rfl, if_pos (by omega)]
          simp [hbr]
        · rw [if_neg h2, if_neg (by omega)]
    · intro N hN h
      exact hbd N hN (Memory.bounded_write h (by omega) b)

end Sys2Proof.Machine
end

