-- ==== Sys2Proof/Laws/PerInstr.lean ====
section
/-! SUPPORT. The family EncodeStart: what the first byte of an instruction's encoding says, one lemma per constructor. It is
what tells frames and operations apart in `decode` (30_encoding.md R93, R115). -/

namespace Sys2Proof.Laws.EncodeStart

/-- The encoding begins with `sync_byte_1` exactly for a frame, and with a tag of R115 for an operation. -/
def Statement (i : Instr) : Prop :=
  ∀ k : Config, ∃ b bs, encode k i = b :: bs ∧
    ((∃ fc len, b = sync1 ∧ (encode k i).take 4 = header fc len) ∨ b.toNat ≤ 10)

/-- A frame's encoding begins with its header. -/
theorem frame_start (fc : Byte) (p : List Byte) (cks : Byte) :
    ∃ b bs, frameBytes fc p cks = b :: bs ∧
      ((∃ fc' len, b = sync1 ∧ (frameBytes fc p cks).take 4 = header fc' len) ∨ b.toNat ≤ 10) :=
  ⟨_, _, rfl, .inl ⟨fc, BitVec.ofNat 8 p.length, rfl, rfl⟩⟩

theorem reset : Statement .reset := fun _ => ⟨_, _, rfl, .inr (by decide)⟩

theorem push (b : Byte) : Statement (.push b) := fun _ => ⟨_, _, rfl, .inr (by decide)⟩

theorem pushMany (bytes : List Byte) : Statement (.pushMany bytes) := fun _ => ⟨_, _, rfl, .inr (by decide)⟩

theorem hasData : Statement .hasData := fun _ => ⟨_, _, rfl, .inr (by decide)⟩

theorem takeByte : Statement .takeByte := fun _ => ⟨_, _, rfl, .inr (by decide)⟩

theorem service : Statement .service := fun _ => ⟨_, _, rfl, .inr (by decide)⟩

theorem dispatch (fc : Byte) (p : List Byte) : Statement (.dispatch fc p) :=
  fun _ => ⟨_, _, rfl, .inr (by decide)⟩

theorem sendFrame (fc : Byte) (p : List Byte) : Statement (.sendFrame fc p) :=
  fun _ => ⟨_, _, rfl, .inr (by decide)⟩

theorem transmitOne (b : Byte) : Statement (.transmitOne b) := fun _ => ⟨_, _, rfl, .inr (by decide)⟩

theorem snapshotRunningState : Statement .snapshotRunningState := fun _ => ⟨_, _, rfl, .inr (by decide)⟩

theorem snapshotConfig : Statement .snapshotConfig := fun _ => ⟨_, _, rfl, .inr (by decide)⟩

theorem frameUpdateRunningState (p : List Byte) (cks : Byte) : Statement (.frameUpdateRunningState p cks) :=
  fun k => frame_start k.fcRun p cks

theorem frameConfigUpdate (fc : Byte) (p : List Byte) (cks : Byte) : Statement (.frameConfigUpdate fc p cks) :=
  fun _ => frame_start fc p cks

theorem frameCardList (fc : Byte) (p : List Byte) (cks : Byte) : Statement (.frameCardList fc p cks) :=
  fun _ => frame_start fc p cks

theorem frameAlarmRecord (fc : Byte) (p : List Byte) (cks : Byte) : Statement (.frameAlarmRecord fc p cks) :=
  fun _ => frame_start fc p cks

theorem frameIllegal (fc len : Byte) : Statement (.frameIllegal fc len) :=
  fun _ => ⟨_, _, rfl, .inl ⟨fc, len, rfl, rfl⟩⟩

end Sys2Proof.Laws.EncodeStart
end

