-- ==== Sys2Proof/Laws/State.lean ====
section
/-! SUPPORT. For each shared update of the state, one lemma per field: what it holds afterwards. -/

namespace Sys2Proof.Machine

@[simp] theorem note_config (o : Obs) (s : State) : (note o s).config = s.config := rfl
@[simp] theorem note_rb (o : Obs) (s : State) : (note o s).rb = s.rb := rfl
@[simp] theorem note_wr (o : Obs) (s : State) : (note o s).wr = s.wr := rfl
@[simp] theorem note_rd (o : Obs) (s : State) : (note o s).rd = s.rd := rfl
@[simp] theorem note_sw (o : Obs) (s : State) : (note o s).sw = s.sw := rfl
@[simp] theorem note_fill (o : Obs) (s : State) : (note o s).fill = s.fill := rfl
@[simp] theorem note_off (o : Obs) (s : State) : (note o s).off = s.off := rfl
@[simp] theorem note_ph (o : Obs) (s : State) : (note o s).ph = s.ph := rfl
@[simp] theorem note_fcLatch (o : Obs) (s : State) : (note o s).fcLatch = s.fcLatch := rfl
@[simp] theorem note_lLatch (o : Obs) (s : State) : (note o s).lLatch = s.lLatch := rfl
@[simp] theorem note_sum (o : Obs) (s : State) : (note o s).sum = s.sum := rfl
@[simp] theorem note_idx (o : Obs) (s : State) : (note o s).idx = s.idx := rfl
@[simp] theorem note_txb (o : Obs) (s : State) : (note o s).txb = s.txb := rfl
@[simp] theorem note_txlen (o : Obs) (s : State) : (note o s).txlen = s.txlen := rfl
@[simp] theorem note_txi (o : Obs) (s : State) : (note o s).txi = s.txi := rfl
@[simp] theorem note_run (o : Obs) (s : State) : (note o s).run = s.run := rfl
@[simp] theorem note_cfg (o : Obs) (s : State) : (note o s).cfg = s.cfg := rfl
@[simp] theorem note_counters (o : Obs) (s : State) : (note o s).counters = s.counters := rfl
@[simp] theorem note_turns (o : Obs) (s : State) : (note o s).turns = s.turns := rfl
@[simp] theorem note_requests (o : Obs) (s : State) : (note o s).requests = s.requests := rfl
@[simp] theorem note_batch (o : Obs) (s : State) : (note o s).batch = s.batch := rfl
@[simp] theorem note_heldServices (o : Obs) (s : State) : (note o s).heldServices = s.heldServices := rfl
@[simp] theorem note_heldSends (o : Obs) (s : State) : (note o s).heldSends = s.heldSends := rfl
@[simp] theorem note_sinkAnswers (o : Obs) (s : State) : (note o s).sinkAnswers = s.sinkAnswers := rfl
@[simp] theorem note_trace (o : Obs) (s : State) : (note o s).trace = s.trace ++ [o] := rfl
@[simp] theorem note_accepted (o : Obs) (s : State) : (note o s).accepted = s.accepted := rfl
@[simp] theorem note_taken (o : Obs) (s : State) : (note o s).taken = s.taken := rfl
@[simp] theorem note_freeCount (o : Obs) (s : State) : (note o s).freeCount = s.freeCount := rfl

@[simp] theorem emit_config (e : Event) (l : Nat) (s : State) : (emit e l s).config = s.config := rfl
@[simp] theorem emit_rb (e : Event) (l : Nat) (s : State) : (emit e l s).rb = s.rb := rfl
@[simp] theorem emit_wr (e : Event) (l : Nat) (s : State) : (emit e l s).wr = s.wr := rfl
@[simp] theorem emit_rd (e : Event) (l : Nat) (s : State) : (emit e l s).rd = s.rd := rfl
@[simp] theorem emit_sw (e : Event) (l : Nat) (s : State) : (emit e l s).sw = s.sw := rfl
@[simp] theorem emit_fill (e : Event) (l : Nat) (s : State) : (emit e l s).fill = s.fill := rfl
@[simp] theorem emit_off (e : Event) (l : Nat) (s : State) : (emit e l s).off = s.off := rfl
@[simp] theorem emit_ph (e : Event) (l : Nat) (s : State) : (emit e l s).ph = s.ph := rfl
@[simp] theorem emit_fcLatch (e : Event) (l : Nat) (s : State) : (emit e l s).fcLatch = s.fcLatch := rfl
@[simp] theorem emit_lLatch (e : Event) (l : Nat) (s : State) : (emit e l s).lLatch = s.lLatch := rfl
@[simp] theorem emit_sum (e : Event) (l : Nat) (s : State) : (emit e l s).sum = s.sum := rfl
@[simp] theorem emit_idx (e : Event) (l : Nat) (s : State) : (emit e l s).idx = s.idx := rfl
@[simp] theorem emit_txb (e : Event) (l : Nat) (s : State) : (emit e l s).txb = s.txb := rfl
@[simp] theorem emit_txlen (e : Event) (l : Nat) (s : State) : (emit e l s).txlen = s.txlen := rfl
@[simp] theorem emit_txi (e : Event) (l : Nat) (s : State) : (emit e l s).txi = s.txi := rfl
@[simp] theorem emit_run (e : Event) (l : Nat) (s : State) : (emit e l s).run = s.run := rfl
@[simp] theorem emit_cfg (e : Event) (l : Nat) (s : State) : (emit e l s).cfg = s.cfg := rfl
@[simp] theorem emit_counters (e : Event) (l : Nat) (s : State) : (emit e l s).counters = s.counters.bump s.config e := rfl
@[simp] theorem emit_turns (e : Event) (l : Nat) (s : State) : (emit e l s).turns = s.turns := rfl
@[simp] theorem emit_requests (e : Event) (l : Nat) (s : State) : (emit e l s).requests = s.requests := rfl
@[simp] theorem emit_batch (e : Event) (l : Nat) (s : State) : (emit e l s).batch = s.batch := rfl
@[simp] theorem emit_heldServices (e : Event) (l : Nat) (s : State) : (emit e l s).heldServices = s.heldServices := rfl
@[simp] theorem emit_heldSends (e : Event) (l : Nat) (s : State) : (emit e l s).heldSends = s.heldSends := rfl
@[simp] theorem emit_sinkAnswers (e : Event) (l : Nat) (s : State) : (emit e l s).sinkAnswers = s.sinkAnswers := rfl
@[simp] theorem emit_trace (e : Event) (l : Nat) (s : State) : (emit e l s).trace = s.trace ++ [.event e l] := rfl
@[simp] theorem emit_accepted (e : Event) (l : Nat) (s : State) : (emit e l s).accepted = s.accepted := rfl
@[simp] theorem emit_taken (e : Event) (l : Nat) (s : State) : (emit e l s).taken = s.taken := rfl
@[simp] theorem emit_freeCount (e : Event) (l : Nat) (s : State) : (emit e l s).freeCount = s.freeCount := rfl

@[simp] theorem endScan_config (s : State) : (endScan s).config = s.config := rfl
@[simp] theorem endScan_rb (s : State) : (endScan s).rb = s.rb := rfl
@[simp] theorem endScan_wr (s : State) : (endScan s).wr = s.wr := rfl
@[simp] theorem endScan_rd (s : State) : (endScan s).rd = s.rd := rfl
@[simp] theorem endScan_sw (s : State) : (endScan s).sw = s.sw := rfl
@[simp] theorem endScan_fill (s : State) : (endScan s).fill = s.fill := rfl
@[simp] theorem endScan_off (s : State) : (endScan s).off = s.off := rfl
@[simp] theorem endScan_ph (s : State) : (endScan s).ph = .compact := rfl
@[simp] theorem endScan_fcLatch (s : State) : (endScan s).fcLatch = s.fcLatch := rfl
@[simp] theorem endScan_lLatch (s : State) : (endScan s).lLatch = s.lLatch := rfl
@[simp] theorem endScan_sum (s : State) : (endScan s).sum = s.sum := rfl
@[simp] theorem endScan_idx (s : State) : (endScan s).idx = s.idx := rfl
@[simp] theorem endScan_txb (s : State) : (endScan s).txb = s.txb := rfl
@[simp] theorem endScan_txlen (s : State) : (endScan s).txlen = s.txlen := rfl
@[simp] theorem endScan_txi (s : State) : (endScan s).txi = s.txi := rfl
@[simp] theorem endScan_run (s : State) : (endScan s).run = s.run := rfl
@[simp] theorem endScan_cfg (s : State) : (endScan s).cfg = s.cfg := rfl
@[simp] theorem endScan_counters (s : State) : (endScan s).counters = s.counters := rfl
@[simp] theorem endScan_turns (s : State) : (endScan s).turns = s.turns := rfl
@[simp] theorem endScan_requests (s : State) : (endScan s).requests = s.requests := rfl
@[simp] theorem endScan_batch (s : State) : (endScan s).batch = s.batch := rfl
@[simp] theorem endScan_heldServices (s : State) : (endScan s).heldServices = s.heldServices := rfl
@[simp] theorem endScan_heldSends (s : State) : (endScan s).heldSends = s.heldSends := rfl
@[simp] theorem endScan_sinkAnswers (s : State) : (endScan s).sinkAnswers = s.sinkAnswers := rfl
@[simp] theorem endScan_trace (s : State) : (endScan s).trace = s.trace := rfl
@[simp] theorem endScan_accepted (s : State) : (endScan s).accepted = s.accepted := rfl
@[simp] theorem endScan_taken (s : State) : (endScan s).taken = s.taken := rfl
@[simp] theorem endScan_freeCount (s : State) : (endScan s).freeCount = s.freeCount := rfl

@[simp] theorem advance_config (n : Nat) (s : State) : (advance n s).config = s.config := rfl
@[simp] theorem advance_rb (n : Nat) (s : State) : (advance n s).rb = s.rb := rfl
@[simp] theorem advance_wr (n : Nat) (s : State) : (advance n s).wr = s.wr := rfl
@[simp] theorem advance_rd (n : Nat) (s : State) : (advance n s).rd = s.rd := rfl
@[simp] theorem advance_sw (n : Nat) (s : State) : (advance n s).sw = s.sw := rfl
@[simp] theorem advance_fill (n : Nat) (s : State) : (advance n s).fill = s.fill := rfl
@[simp] theorem advance_off (n : Nat) (s : State) : (advance n s).off = s.off + n := rfl
@[simp] theorem advance_ph (n : Nat) (s : State) : (advance n s).ph = s.ph := rfl
@[simp] theorem advance_fcLatch (n : Nat) (s : State) : (advance n s).fcLatch = s.fcLatch := rfl
@[simp] theorem advance_lLatch (n : Nat) (s : State) : (advance n s).lLatch = s.lLatch := rfl
@[simp] theorem advance_sum (n : Nat) (s : State) : (advance n s).sum = s.sum := rfl
@[simp] theorem advance_idx (n : Nat) (s : State) : (advance n s).idx = s.idx := rfl
@[simp] theorem advance_txb (n : Nat) (s : State) : (advance n s).txb = s.txb := rfl
@[simp] theorem advance_txlen (n : Nat) (s : State) : (advance n s).txlen = s.txlen := rfl
@[simp] theorem advance_txi (n : Nat) (s : State) : (advance n s).txi = s.txi := rfl
@[simp] theorem advance_run (n : Nat) (s : State) : (advance n s).run = s.run := rfl
@[simp] theorem advance_cfg (n : Nat) (s : State) : (advance n s).cfg = s.cfg := rfl
@[simp] theorem advance_counters (n : Nat) (s : State) : (advance n s).counters = s.counters := rfl
@[simp] theorem advance_turns (n : Nat) (s : State) : (advance n s).turns = s.turns := rfl
@[simp] theorem advance_requests (n : Nat) (s : State) : (advance n s).requests = s.requests := rfl
@[simp] theorem advance_batch (n : Nat) (s : State) : (advance n s).batch = s.batch := rfl
@[simp] theorem advance_heldServices (n : Nat) (s : State) : (advance n s).heldServices = s.heldServices := rfl
@[simp] theorem advance_heldSends (n : Nat) (s : State) : (advance n s).heldSends = s.heldSends := rfl
@[simp] theorem advance_sinkAnswers (n : Nat) (s : State) : (advance n s).sinkAnswers = s.sinkAnswers := rfl
@[simp] theorem advance_trace (n : Nat) (s : State) : (advance n s).trace = s.trace := rfl
@[simp] theorem advance_accepted (n : Nat) (s : State) : (advance n s).accepted = s.accepted := rfl
@[simp] theorem advance_taken (n : Nat) (s : State) : (advance n s).taken = s.taken := rfl
@[simp] theorem advance_freeCount (n : Nat) (s : State) : (advance n s).freeCount = s.freeCount := rfl

@[simp] theorem latch_config (fc : Byte) (l : Nat) (s : State) : (latch fc l s).config = s.config := rfl
@[simp] theorem latch_rb (fc : Byte) (l : Nat) (s : State) : (latch fc l s).rb = s.rb := rfl
@[simp] theorem latch_wr (fc : Byte) (l : Nat) (s : State) : (latch fc l s).wr = s.wr := rfl
@[simp] theorem latch_rd (fc : Byte) (l : Nat) (s : State) : (latch fc l s).rd = s.rd := rfl
@[simp] theorem latch_sw (fc : Byte) (l : Nat) (s : State) : (latch fc l s).sw = s.sw := rfl
@[simp] theorem latch_fill (fc : Byte) (l : Nat) (s : State) : (latch fc l s).fill = s.fill := rfl
@[simp] theorem latch_off (fc : Byte) (l : Nat) (s : State) : (latch fc l s).off = s.off := rfl
@[simp] theorem latch_ph (fc : Byte) (l : Nat) (s : State) : (latch fc l s).ph = s.ph := rfl
@[simp] theorem latch_fcLatch (fc : Byte) (l : Nat) (s : State) : (latch fc l s).fcLatch = fc := rfl
@[simp] theorem latch_lLatch (fc : Byte) (l : Nat) (s : State) : (latch fc l s).lLatch = BitVec.ofNat 8 l := rfl
@[simp] theorem latch_sum (fc : Byte) (l : Nat) (s : State) : (latch fc l s).sum = s.sum := rfl
@[simp] theorem latch_idx (fc : Byte) (l : Nat) (s : State) : (latch fc l s).idx = s.idx := rfl
@[simp] theorem latch_txb (fc : Byte) (l : Nat) (s : State) : (latch fc l s).txb = s.txb := rfl
@[simp] theorem latch_txlen (fc : Byte) (l : Nat) (s : State) : (latch fc l s).txlen = s.txlen := rfl
@[simp] theorem latch_txi (fc : Byte) (l : Nat) (s : State) : (latch fc l s).txi = s.txi := rfl
@[simp] theorem latch_run (fc : Byte) (l : Nat) (s : State) : (latch fc l s).run = s.run := rfl
@[simp] theorem latch_cfg (fc : Byte) (l : Nat) (s : State) : (latch fc l s).cfg = s.cfg := rfl
@[simp] theorem latch_counters (fc : Byte) (l : Nat) (s : State) : (latch fc l s).counters = s.counters := rfl
@[simp] theorem latch_turns (fc : Byte) (l : Nat) (s : State) : (latch fc l s).turns = s.turns := rfl
@[simp] theorem latch_requests (fc : Byte) (l : Nat) (s : State) : (latch fc l s).requests = s.requests := rfl
@[simp] theorem latch_batch (fc : Byte) (l : Nat) (s : State) : (latch fc l s).batch = s.batch := rfl
@[simp] theorem latch_heldServices (fc : Byte) (l : Nat) (s : State) : (latch fc l s).heldServices = s.heldServices := rfl
@[simp] theorem latch_heldSends (fc : Byte) (l : Nat) (s : State) : (latch fc l s).heldSends = s.heldSends := rfl
@[simp] theorem latch_sinkAnswers (fc : Byte) (l : Nat) (s : State) : (latch fc l s).sinkAnswers = s.sinkAnswers := rfl
@[simp] theorem latch_trace (fc : Byte) (l : Nat) (s : State) : (latch fc l s).trace = s.trace := rfl
@[simp] theorem latch_accepted (fc : Byte) (l : Nat) (s : State) : (latch fc l s).accepted = s.accepted := rfl
@[simp] theorem latch_taken (fc : Byte) (l : Nat) (s : State) : (latch fc l s).taken = s.taken := rfl
@[simp] theorem latch_freeCount (fc : Byte) (l : Nat) (s : State) : (latch fc l s).freeCount = s.freeCount := rfl

@[simp] theorem sumUp_config (fc : Byte) (p : List Byte) (s : State) : (sumUp fc p s).config = s.config := rfl
@[simp] theorem sumUp_rb (fc : Byte) (p : List Byte) (s : State) : (sumUp fc p s).rb = s.rb := rfl
@[simp] theorem sumUp_wr (fc : Byte) (p : List Byte) (s : State) : (sumUp fc p s).wr = s.wr := rfl
@[simp] theorem sumUp_rd (fc : Byte) (p : List Byte) (s : State) : (sumUp fc p s).rd = s.rd := rfl
@[simp] theorem sumUp_sw (fc : Byte) (p : List Byte) (s : State) : (sumUp fc p s).sw = s.sw := rfl
@[simp] theorem sumUp_fill (fc : Byte) (p : List Byte) (s : State) : (sumUp fc p s).fill = s.fill := rfl
@[simp] theorem sumUp_off (fc : Byte) (p : List Byte) (s : State) : (sumUp fc p s).off = s.off := rfl
@[simp] theorem sumUp_ph (fc : Byte) (p : List Byte) (s : State) : (sumUp fc p s).ph = s.ph := rfl
@[simp] theorem sumUp_fcLatch (fc : Byte) (p : List Byte) (s : State) : (sumUp fc p s).fcLatch = s.fcLatch := rfl
@[simp] theorem sumUp_lLatch (fc : Byte) (p : List Byte) (s : State) : (sumUp fc p s).lLatch = s.lLatch := rfl
@[simp] theorem sumUp_sum (fc : Byte) (p : List Byte) (s : State) : (sumUp fc p s).sum = sum8 (covered fc p) := rfl
@[simp] theorem sumUp_idx (fc : Byte) (p : List Byte) (s : State) : (sumUp fc p s).idx = 4 + p.length := rfl
@[simp] theorem sumUp_txb (fc : Byte) (p : List Byte) (s : State) : (sumUp fc p s).txb = s.txb := rfl
@[simp] theorem sumUp_txlen (fc : Byte) (p : List Byte) (s : State) : (sumUp fc p s).txlen = s.txlen := rfl
@[simp] theorem sumUp_txi (fc : Byte) (p : List Byte) (s : State) : (sumUp fc p s).txi = s.txi := rfl
@[simp] theorem sumUp_run (fc : Byte) (p : List Byte) (s : State) : (sumUp fc p s).run = s.run := rfl
@[simp] theorem sumUp_cfg (fc : Byte) (p : List Byte) (s : State) : (sumUp fc p s).cfg = s.cfg := rfl
@[simp] theorem sumUp_counters (fc : Byte) (p : List Byte) (s : State) : (sumUp fc p s).counters = s.counters := rfl
@[simp] theorem sumUp_turns (fc : Byte) (p : List Byte) (s : State) : (sumUp fc p s).turns = s.turns := rfl
@[simp] theorem sumUp_requests (fc : Byte) (p : List Byte) (s : State) : (sumUp fc p s).requests = s.requests := rfl
@[simp] theorem sumUp_batch (fc : Byte) (p : List Byte) (s : State) : (sumUp fc p s).batch = s.batch := rfl
@[simp] theorem sumUp_heldServices (fc : Byte) (p : List Byte) (s : State) : (sumUp fc p s).heldServices = s.heldServices := rfl
@[simp] theorem sumUp_heldSends (fc : Byte) (p : List Byte) (s : State) : (sumUp fc p s).heldSends = s.heldSends := rfl
@[simp] theorem sumUp_sinkAnswers (fc : Byte) (p : List Byte) (s : State) : (sumUp fc p s).sinkAnswers = s.sinkAnswers := rfl
@[simp] theorem sumUp_trace (fc : Byte) (p : List Byte) (s : State) : (sumUp fc p s).trace = s.trace := rfl
@[simp] theorem sumUp_accepted (fc : Byte) (p : List Byte) (s : State) : (sumUp fc p s).accepted = s.accepted := rfl
@[simp] theorem sumUp_taken (fc : Byte) (p : List Byte) (s : State) : (sumUp fc p s).taken = s.taken := rfl
@[simp] theorem sumUp_freeCount (fc : Byte) (p : List Byte) (s : State) : (sumUp fc p s).freeCount = s.freeCount := rfl

@[simp] theorem endSend_config (s : State) : (endSend s).config = s.config := rfl
@[simp] theorem endSend_rb (s : State) : (endSend s).rb = s.rb := rfl
@[simp] theorem endSend_wr (s : State) : (endSend s).wr = s.wr := rfl
@[simp] theorem endSend_rd (s : State) : (endSend s).rd = s.rd := rfl
@[simp] theorem endSend_sw (s : State) : (endSend s).sw = s.sw := rfl
@[simp] theorem endSend_fill (s : State) : (endSend s).fill = s.fill := rfl
@[simp] theorem endSend_off (s : State) : (endSend s).off = s.off := rfl
@[simp] theorem endSend_ph (s : State) : (endSend s).ph = s.ph := rfl
@[simp] theorem endSend_fcLatch (s : State) : (endSend s).fcLatch = s.fcLatch := rfl
@[simp] theorem endSend_lLatch (s : State) : (endSend s).lLatch = s.lLatch := rfl
@[simp] theorem endSend_sum (s : State) : (endSend s).sum = s.sum := rfl
@[simp] theorem endSend_idx (s : State) : (endSend s).idx = s.idx := rfl
@[simp] theorem endSend_txb (s : State) : (endSend s).txb = s.txb := rfl
@[simp] theorem endSend_txlen (s : State) : (endSend s).txlen = 0 := rfl
@[simp] theorem endSend_txi (s : State) : (endSend s).txi = 0 := rfl
@[simp] theorem endSend_run (s : State) : (endSend s).run = s.run := rfl
@[simp] theorem endSend_cfg (s : State) : (endSend s).cfg = s.cfg := rfl
@[simp] theorem endSend_counters (s : State) : (endSend s).counters = s.counters := rfl
@[simp] theorem endSend_turns (s : State) : (endSend s).turns = s.turns := rfl
@[simp] theorem endSend_requests (s : State) : (endSend s).requests = s.requests := rfl
@[simp] theorem endSend_batch (s : State) : (endSend s).batch = s.batch := rfl
@[simp] theorem endSend_heldServices (s : State) : (endSend s).heldServices = s.heldServices := rfl
@[simp] theorem endSend_heldSends (s : State) : (endSend s).heldSends = s.heldSends := rfl
@[simp] theorem endSend_sinkAnswers (s : State) : (endSend s).sinkAnswers = s.sinkAnswers := rfl
@[simp] theorem endSend_trace (s : State) : (endSend s).trace = s.trace := rfl
@[simp] theorem endSend_accepted (s : State) : (endSend s).accepted = s.accepted := rfl
@[simp] theorem endSend_taken (s : State) : (endSend s).taken = s.taken := rfl
@[simp] theorem endSend_freeCount (s : State) : (endSend s).freeCount = s.freeCount := rfl

@[simp] theorem transmitOp_config (b : Byte) (s : State) : (transmitOp b s).config = s.config := rfl
@[simp] theorem transmitOp_rb (b : Byte) (s : State) : (transmitOp b s).rb = s.rb := rfl
@[simp] theorem transmitOp_wr (b : Byte) (s : State) : (transmitOp b s).wr = s.wr := rfl
@[simp] theorem transmitOp_rd (b : Byte) (s : State) : (transmitOp b s).rd = s.rd := rfl
@[simp] theorem transmitOp_sw (b : Byte) (s : State) : (transmitOp b s).sw = s.sw := rfl
@[simp] theorem transmitOp_fill (b : Byte) (s : State) : (transmitOp b s).fill = s.fill := rfl
@[simp] theorem transmitOp_off (b : Byte) (s : State) : (transmitOp b s).off = s.off := rfl
@[simp] theorem transmitOp_ph (b : Byte) (s : State) : (transmitOp b s).ph = s.ph := rfl
@[simp] theorem transmitOp_fcLatch (b : Byte) (s : State) : (transmitOp b s).fcLatch = s.fcLatch := rfl
@[simp] theorem transmitOp_lLatch (b : Byte) (s : State) : (transmitOp b s).lLatch = s.lLatch := rfl
@[simp] theorem transmitOp_sum (b : Byte) (s : State) : (transmitOp b s).sum = s.sum := rfl
@[simp] theorem transmitOp_idx (b : Byte) (s : State) : (transmitOp b s).idx = s.idx := rfl
@[simp] theorem transmitOp_txb (b : Byte) (s : State) : (transmitOp b s).txb = s.txb := rfl
@[simp] theorem transmitOp_txlen (b : Byte) (s : State) : (transmitOp b s).txlen = s.txlen := rfl
@[simp] theorem transmitOp_txi (b : Byte) (s : State) : (transmitOp b s).txi = s.txi := rfl
@[simp] theorem transmitOp_run (b : Byte) (s : State) : (transmitOp b s).run = s.run := rfl
@[simp] theorem transmitOp_cfg (b : Byte) (s : State) : (transmitOp b s).cfg = s.cfg := rfl
@[simp] theorem transmitOp_counters (b : Byte) (s : State) : (transmitOp b s).counters = s.counters := rfl
@[simp] theorem transmitOp_turns (b : Byte) (s : State) : (transmitOp b s).turns = s.turns := rfl
@[simp] theorem transmitOp_requests (b : Byte) (s : State) : (transmitOp b s).requests = s.requests := rfl
@[simp] theorem transmitOp_batch (b : Byte) (s : State) : (transmitOp b s).batch = s.batch := rfl
@[simp] theorem transmitOp_heldServices (b : Byte) (s : State) : (transmitOp b s).heldServices = s.heldServices := rfl
@[simp] theorem transmitOp_heldSends (b : Byte) (s : State) : (transmitOp b s).heldSends = s.heldSends := rfl
@[simp] theorem transmitOp_sinkAnswers (b : Byte) (s : State) : (transmitOp b s).sinkAnswers = s.sinkAnswers.tail := rfl
@[simp] theorem transmitOp_trace (b : Byte) (s : State) : (transmitOp b s).trace = s.trace ++ [.transmit b (sinkAnswer s)] := rfl
@[simp] theorem transmitOp_accepted (b : Byte) (s : State) : (transmitOp b s).accepted = s.accepted := rfl
@[simp] theorem transmitOp_taken (b : Byte) (s : State) : (transmitOp b s).taken = s.taken := rfl
@[simp] theorem transmitOp_freeCount (b : Byte) (s : State) : (transmitOp b s).freeCount = s.freeCount := rfl

@[simp] theorem resetOp_config (s : State) : (resetOp s).config = s.config := rfl
@[simp] theorem resetOp_rb (s : State) : (resetOp s).rb = [] := rfl
@[simp] theorem resetOp_wr (s : State) : (resetOp s).wr = 0 := rfl
@[simp] theorem resetOp_rd (s : State) : (resetOp s).rd = 0 := rfl
@[simp] theorem resetOp_sw (s : State) : (resetOp s).sw = [] := rfl
@[simp] theorem resetOp_fill (s : State) : (resetOp s).fill = 0 := rfl
@[simp] theorem resetOp_off (s : State) : (resetOp s).off = 0 := rfl
@[simp] theorem resetOp_ph (s : State) : (resetOp s).ph = .idle := rfl
@[simp] theorem resetOp_fcLatch (s : State) : (resetOp s).fcLatch = 0 := rfl
@[simp] theorem resetOp_lLatch (s : State) : (resetOp s).lLatch = 0 := rfl
@[simp] theorem resetOp_sum (s : State) : (resetOp s).sum = 0 := rfl
@[simp] theorem resetOp_idx (s : State) : (resetOp s).idx = 0 := rfl
@[simp] theorem resetOp_txb (s : State) : (resetOp s).txb = [] := rfl
@[simp] theorem resetOp_txlen (s : State) : (resetOp s).txlen = 0 := rfl
@[simp] theorem resetOp_txi (s : State) : (resetOp s).txi = 0 := rfl
@[simp] theorem resetOp_run (s : State) : (resetOp s).run = freeBytes s.freeCount s.config.runSize := rfl
@[simp] theorem resetOp_cfg (s : State) : (resetOp s).cfg = freeBytes (s.freeCount + s.config.runSize) s.config.cfgSize := rfl
@[simp] theorem resetOp_counters (s : State) : (resetOp s).counters = Counters.zero := rfl
@[simp] theorem resetOp_turns (s : State) : (resetOp s).turns = s.turns := rfl
@[simp] theorem resetOp_requests (s : State) : (resetOp s).requests = s.requests := rfl
@[simp] theorem resetOp_batch (s : State) : (resetOp s).batch = s.batch := rfl
@[simp] theorem resetOp_heldServices (s : State) : (resetOp s).heldServices = 0 := rfl
@[simp] theorem resetOp_heldSends (s : State) : (resetOp s).heldSends = [] := rfl
@[simp] theorem resetOp_sinkAnswers (s : State) : (resetOp s).sinkAnswers = s.sinkAnswers := rfl
@[simp] theorem resetOp_trace (s : State) : (resetOp s).trace = [] := rfl
@[simp] theorem resetOp_accepted (s : State) : (resetOp s).accepted = [] := rfl
@[simp] theorem resetOp_taken (s : State) : (resetOp s).taken = [] := rfl
@[simp] theorem resetOp_freeCount (s : State) : (resetOp s).freeCount = s.freeCount + s.config.runSize + s.config.cfgSize := rfl

end Sys2Proof.Machine
end

