-- ==== Sys2Proof/Laws/Ring.lean ====
section
/-! SUPPORT. The ring buffer: cursor arithmetic and occupancy, and what PUSH and TAKE_BYTE do to the live bytes. -/

namespace Sys2Proof.Machine

/-! ## Cursors and occupancy -/

theorem incC_lt {k : Config} {x : Nat} (h : x < k.c) : incC k x < k.c := by
  unfold incC
  split <;> omega

/-- The successor by compare is the successor modulo `C`. -/
theorem incC_eq_mod {k : Config} {x : Nat} (h : x < k.c) : incC k x = (x + 1) % k.c := by
  unfold incC
  split
  · next h1 => rw [h1, Nat.mod_self]
  · rw [Nat.mod_eq_of_lt (by omega)]

/-- The occupancy without the remainder: the two cases of where the cursors stand. -/
theorem occ_cases {s : State} (h : CursorsInRange s) :
    s.rd ≤ s.wr ∧ occ s = s.wr - s.rd ∨ s.wr < s.rd ∧ occ s = s.wr + s.config.c - s.rd := by
  obtain ⟨hr, hw⟩ := h
  unfold occ
  by_cases hle : s.rd ≤ s.wr
  · refine .inl ⟨hle, ?_⟩
    rw [show s.wr + s.config.c - s.rd = (s.wr - s.rd) + s.config.c by omega, Nat.add_mod_right,
      Nat.mod_eq_of_lt (by omega)]
  · exact .inr ⟨by omega, Nat.mod_eq_of_lt (by omega)⟩

theorem occ_lt {s : State} (h : CursorsInRange s) : occ s < s.config.c := by
  have := occ_cases h
  obtain ⟨hr, hw⟩ := h
  omega

/-- Empty exactly when the cursors are equal (R118). -/
theorem occ_eq_zero {s : State} (h : CursorsInRange s) : occ s = 0 ↔ s.rd = s.wr := by
  have := occ_cases h
  obtain ⟨hr, hw⟩ := h
  omega

/-- Full exactly when the write cursor's successor is the read cursor (R118). -/
theorem occ_full {s : State} (h : CursorsInRange s) (hc : 2 ≤ s.config.c) :
    incC s.config s.wr = s.rd ↔ occ s + 1 = s.config.c := by
  have := occ_cases h
  obtain ⟨hr, hw⟩ := h
  unfold incC
  split <;> omega

/-- The write cursor from the read cursor and the occupancy. -/
theorem wr_eq {s : State} (h : CursorsInRange s) : s.wr = (s.rd + occ s) % s.config.c := by
  have := occ_cases h
  obtain ⟨hr, hw⟩ := h
  rcases this with ⟨h1, h2⟩ | ⟨h1, h2⟩
  · rw [h2, show s.rd + (s.wr - s.rd) = s.wr by omega, Nat.mod_eq_of_lt hw]
  · rw [h2, show s.rd + (s.wr + s.config.c - s.rd) = s.wr + s.config.c by omega, Nat.add_mod_right,
      Nat.mod_eq_of_lt hw]

@[simp] theorem liveBytes_length (s : State) : (liveBytes s).length = occ s := by
  simp [liveBytes]

@[simp] theorem windowBytes_length (s : State) : (windowBytes s).length = s.fill := by
  simp [windowBytes]

/-- The live bytes depend on the ring's fields only. -/
theorem liveBytes_congr {s t : State} (h1 : t.config = s.config) (h2 : t.rb = s.rb) (h3 : t.wr = s.wr)
    (h4 : t.rd = s.rd) : liveBytes t = liveBytes s := by
  simp [liveBytes, occ, h1, h2, h3, h4]

/-- The window's bytes depend on SW and FILL only. -/
theorem windowBytes_congr {s t : State} (h1 : t.sw = s.sw) (h2 : t.fill = s.fill) :
    windowBytes t = windowBytes s := by
  simp [windowBytes, h1, h2]

/-! ## PUSH -/

/-- Everything PUSH can do in a state whose cursors are in range (R119, R120): drop with EV_DROP when full, else store the byte
at `WR` and move `WR`. -/
theorem pushOp_cases {s : State} (b : Byte) (h : CursorsInRange s) :
    incC s.config s.wr = s.rd ∧ pushOp b s = .ok (emit .drop 0 s) ∨
    incC s.config s.wr ≠ s.rd ∧
      pushOp b s = .ok { s with
        rb := s.rb.write s.wr b, wr := incC s.config s.wr, accepted := s.accepted ++ [b] } := by
  unfold pushOp
  by_cases hf : incC s.config s.wr = s.rd
  · exact .inl ⟨hf, by rw [if_pos hf]⟩
  · refine .inr ⟨hf, ?_⟩
    rw [if_neg hf, store_ok (show s.wr < Space.size s.config .rb from h.2)]

/-- The occupancy after an accepted PUSH. -/
theorem occ_push {s : State} (m : Memory) (a : List Byte) (h : CursorsInRange s)
    (hf : incC s.config s.wr ≠ s.rd) :
    occ { s with rb := m, wr := incC s.config s.wr, accepted := a } = occ s + 1 := by
  have h2 : CursorsInRange { s with rb := m, wr := incC s.config s.wr, accepted := a } :=
    ⟨h.1, incC_lt h.2⟩
  have h1 := occ_cases h
  have h3 := occ_cases h2
  obtain ⟨hr, hw⟩ := h
  simp only at h3
  revert h3 hf
  unfold incC
  split <;> intros <;> omega

theorem mod_cases {a c : Nat} (h : a < 2 * c) : a < c ∧ a % c = a ∨ c ≤ a ∧ a % c = a - c := by
  by_cases h1 : a < c
  · exact .inl ⟨h1, Nat.mod_eq_of_lt h1⟩
  · refine .inr ⟨by omega, ?_⟩
    rw [Nat.mod_eq_sub_mod (by omega), Nat.mod_eq_of_lt (by omega)]

/-- No live slot is the slot the next PUSH stores into. -/
theorem slot_ne_wr {s : State} (h : CursorsInRange s) {j : Nat} (hj : j < occ s) :
    (s.rd + j) % s.config.c ≠ s.wr := by
  have hlt := occ_lt h
  have hr := h.1
  rw [wr_eq h]
  have h1 := mod_cases (a := s.rd + occ s) (c := s.config.c) (by omega)
  have h2 := mod_cases (a := s.rd + j) (c := s.config.c) (by omega)
  omega

/-- An accepted PUSH appends its byte to the live bytes. -/
theorem liveBytes_push {s : State} (b : Byte) (a : List Byte) (h : CursorsInRange s)
    (hf : incC s.config s.wr ≠ s.rd) :
    liveBytes { s with rb := s.rb.write s.wr b, wr := incC s.config s.wr, accepted := a } =
      liveBytes s ++ [b] := by
  unfold liveBytes
  rw [occ_push _ _ h hf, List.range_succ, List.map_append]
  congr 1
  · apply List.map_congr_left
    intro j hj
    simp only [Memory.read_write]
    rw [if_neg (slot_ne_wr h (List.mem_range.1 hj))]
  · simp only [List.map_cons, List.map_nil, Memory.read_write]
    rw [if_pos (wr_eq h).symm]
    simp

/-! ## TAKE_BYTE -/

/-- Everything TAKE_BYTE can do on a ring that is not empty (R126): return the oldest live byte and move `RD`. -/
theorem takeOp_ok {s : State} (h : RingInv s) (hd : s.rd ≠ s.wr) :
    takeOp s = .ok ((s.rb.read s.rd).getD 0, { s with
      rd := incC s.config s.rd, taken := s.taken ++ [(s.rb.read s.rd).getD 0] }) := by
  obtain ⟨hc, -, -, hlive⟩ := h
  have hpos : 0 < occ s := Nat.pos_of_ne_zero (mt (occ_eq_zero hc).1 hd)
  have h0 := hlive 0 hpos
  rw [Nat.add_zero, Nat.mod_eq_of_lt hc.1] at h0
  unfold takeOp
  rw [load_ok_of_isSome (show s.rd < Space.size s.config .rb from hc.1) h0]

/-- The occupancy after a take. -/
theorem occ_take {s : State} (a : List Byte) (h : CursorsInRange s) (hd : s.rd ≠ s.wr) :
    occ { s with rd := incC s.config s.rd, taken := a } + 1 = occ s := by
  have h2 : CursorsInRange { s with rd := incC s.config s.rd, taken := a } := ⟨incC_lt h.1, h.2⟩
  have h1 := occ_cases h
  have h3 := occ_cases h2
  obtain ⟨hr, hw⟩ := h
  simp only at h3
  revert h3
  unfold incC
  split <;> intros <;> omega

/-- A take removes the oldest live byte. -/
theorem liveBytes_take {s : State} (a : List Byte) (h : CursorsInRange s) (hd : s.rd ≠ s.wr) :
    liveBytes s = (s.rb.read s.rd).getD 0 ::
      liveBytes { s with rd := incC s.config s.rd, taken := a } := by
  unfold liveBytes
  rw [← occ_take a h hd, List.range_succ_eq_map, List.map_cons, List.map_map]
  congr 1
  · rw [Nat.add_zero, Nat.mod_eq_of_lt h.1]
  · apply List.map_congr_left
    intro j _
    simp only [Function.comp, Nat.succ_eq_add_one]
    rw [incC_eq_mod h.1, Nat.mod_add_mod]
    congr 3
    omega

end Sys2Proof.Machine
end

