-- ==== Sys2Proof/Laws/Scan.lean ====
section
/-! SUPPORT. The scan on lists of bytes: its bound does not matter, and one equation for each test that can fire
(41_frame_scanner.md R141 to R152). The provers cite these and never unfold `scanFrom`. -/

namespace Sys2Proof.Machine

@[simp] theorem scanFrom_nil (k : Config) (n : Nat) : scanFrom k n [] = ([], []) := by
  cases n <;> rfl

/-- Any bound that reaches the length gives the same scan. -/
theorem scanFrom_bound {k : Config} : ∀ {n m : Nat} {r : List Byte}, r.length ≤ n → r.length ≤ m →
    scanFrom k n r = scanFrom k m r
  | 0, m, r, hn, _ => by
    rw [List.length_eq_zero_iff.1 (Nat.le_zero.1 hn), scanFrom_nil, scanFrom_nil]
  | n + 1, 0, r, _, hm => by
    rw [List.length_eq_zero_iff.1 (Nat.le_zero.1 hm), scanFrom_nil, scanFrom_nil]
  | n + 1, m + 1, r, hn, hm => by
    have key : ∀ j, 1 ≤ j → scanFrom k n (r.drop j) = scanFrom k m (r.drop j) := fun j hj =>
      scanFrom_bound (by rw [List.length_drop]; omega) (by rw [List.length_drop]; omega)
    unfold scanFrom
    split
    · next b0 b1 fc len body =>
      simp only [key 1 (Nat.le_refl 1), key (frameLen len.toNat) (by unfold frameLen; omega),
        key (len.toNat + 1) (by omega)]
    · rfl

/-- Fewer than four bytes: test 0 ends the scan (R141). -/
theorem scanBytes_short {k : Config} {r : List Byte} (h : r.length < 4) : scanBytes k r = ([], r) := by
  match r, h with
  | [], _ => rfl
  | [_], _ => rfl
  | [_, _], _ => rfl
  | [_, _, _], _ => rfl
  | _ :: _ :: _ :: _ :: body, h => simp only [List.length_cons] at h; omega

/-- One iteration of the scan, the rest scanned as a window of its own (R157, R159). -/
theorem scanBytes_step (k : Config) (b0 b1 fc len : Byte) (body : List Byte) :
    scanBytes k (b0 :: b1 :: fc :: len :: body) =
      let r := b0 :: b1 :: fc :: len :: body
      let l := len.toNat
      if ¬(b0 = sync1 ∧ b1 = sync2) then
        (.event .sync 0 :: (scanBytes k (r.drop 1)).1, (scanBytes k (r.drop 1)).2)
      else if fc ∉ k.allow then
        (.event .fc 0 :: (scanBytes k (r.drop 1)).1, (scanBytes k (r.drop 1)).2)
      else if oversize k l then
        (.event .oversize l :: (scanBytes k (r.drop 1)).1, (scanBytes k (r.drop 1)).2)
      else if r.length < frameLen l then ([], r)
      else if r[4 + l]? = some (sum8 (r.take (4 + l))) then
        (acceptObs k fc ((r.drop 4).take l) ++ (scanBytes k (r.drop (frameLen l))).1,
          (scanBytes k (r.drop (frameLen l))).2)
      else
        (.event .cks l :: (scanBytes k (r.drop (l + 1))).1, (scanBytes k (r.drop (l + 1))).2) := by
  have key : ∀ j, 1 ≤ j → scanFrom k (body.length + 3) ((b0 :: b1 :: fc :: len :: body).drop j) =
      scanBytes k ((b0 :: b1 :: fc :: len :: body).drop j) := fun j hj =>
    scanFrom_bound (by simp only [List.length_drop, List.length_cons]; omega) (Nat.le_refl _)
  show scanFrom k (body.length + 3 + 1) (b0 :: b1 :: fc :: len :: body) = _
  unfold scanFrom
  simp only [key 1 (Nat.le_refl 1), key (frameLen len.toNat) (by unfold frameLen; omega),
    key (len.toNat + 1) (by omega)]

/-- No sync marker: one byte on with EV_SYNC (R142). -/
theorem scanBytes_noMarker {k : Config} {b0 b1 b2 b3 : Byte} {body : List Byte} (h : ¬(b0 = sync1 ∧ b1 = sync2)) :
    scanBytes k (b0 :: b1 :: b2 :: b3 :: body) =
      (.event .sync 0 :: (scanBytes k (b1 :: b2 :: b3 :: body)).1, (scanBytes k (b1 :: b2 :: b3 :: body)).2) := by
  rw [scanBytes_step]
  simp only [h, not_false_eq_true, if_true, List.drop_succ_cons, List.drop_zero]

/-- A whole frame inside ALLOW that is not oversize: accepted, or skipped by `L + 1` with EV_CKS (R150 to R152). -/
theorem scanBytes_frame {k : Config} {fc : Byte} {p rest : List Byte} {cks : Byte} (hp : p.length ≤ 255)
    (ha : fc ∈ k.allow) (ho : oversize k p.length = false) :
    scanBytes k (frameBytes fc p cks ++ rest) =
      if cks = sum8 (covered fc p) then (acceptObs k fc p ++ (scanBytes k rest).1, (scanBytes k rest).2)
      else
        (.event .cks p.length :: (scanBytes k ((frameBytes fc p cks ++ rest).drop (p.length + 1))).1,
          (scanBytes k ((frameBytes fc p cks ++ rest).drop (p.length + 1))).2) := by
  have hl := toNat_ofNat_length hp
  have hshape : frameBytes fc p cks ++ rest =
      sync1 :: sync2 :: fc :: BitVec.ofNat 8 p.length :: (p ++ cks :: rest) := by
    simp [frameBytes, covered, header]
  have hcov : covered fc p = sync1 :: sync2 :: fc :: BitVec.ofNat 8 p.length :: p := rfl
  rw [hshape, scanBytes_step]
  simp only [hl, ho, ha, not_true_eq_false, and_self, if_false, Bool.false_eq_true]
  rw [if_neg (by simp only [List.length_cons, List.length_append, frameLen]; omega)]
  have hget : (sync1 :: sync2 :: fc :: BitVec.ofNat 8 p.length :: (p ++ cks :: rest))[4 + p.length]? = some cks := by
    rw [Nat.add_comm]
    simp
  have htake : (sync1 :: sync2 :: fc :: BitVec.ofNat 8 p.length :: (p ++ cks :: rest)).take (4 + p.length) =
      covered fc p := by
    rw [hcov, Nat.add_comm]
    simp
  have hdrop : (sync1 :: sync2 :: fc :: BitVec.ofNat 8 p.length :: (p ++ cks :: rest)).drop (frameLen p.length) =
      rest := by
    rw [show frameLen p.length = (p.length + 1) + 4 by unfold frameLen; omega]
    simp [List.drop_append]
  rw [hget, htake, hdrop]
  simp only [Option.some.injEq]
  have hpay : ((sync1 :: sync2 :: fc :: BitVec.ofNat 8 p.length :: (p ++ cks :: rest)).drop 4).take p.length = p := by
    simp
  rw [hpay]

end Sys2Proof.Machine
end

