-- ==== Sys2Proof/Laws/Step.lean ====
section
/-! SUPPORT. What a step can do, turn by turn, and one lemma for each shared operation of the scanner, the dispatcher and the
builder. -/

namespace Sys2Proof.Machine

/-! ## Steps are turns -/

/-- What a fetched turn answers. -/
theorem step_eq (s : State) :
    step s = match fetch s with
      | .instr i t => exec i t
      | .done o => o := rfl

/-- A step with a chosen turn is that agent's turn at the state itself. -/
theorem stepTurn_eq (t : Turn) (s : State) :
    stepTurn t s = match takeTurn t s with
      | .instr i u => exec i u
      | .done o => o := rfl

/-- Every step is the turn of the agent whose turn it is, at the state with that turn used up. -/
theorem step_is_turn (s : State) : step s = stepTurn (nextTurn s) { s with turns := s.turns.tail } := rfl

theorem nextTurn_cons {s : State} {t : Turn} {ts : List Turn} (h : s.turns = t :: ts) : nextTurn s = t := by
  rw [nextTurn, h]

/-- Everything a request turn can do. -/
theorem requestTurn_cases (s : State) :
    (∃ i rest, decodeOp s.requests = .ok (i, rest) ∧ offered i = true ∧
      requestTurn s = .instr i { s with requests := rest }) ∨
    (∃ i rest, decodeOp s.requests = .ok (i, rest) ∧ offered i = false ∧
      requestTurn s = .done (.refused (.notOffered (s.requests.headD 0)))) ∨
    (decodeOp s.requests = .error .noBytes ∧ requestTurn s = .done (.next s)) ∨
    (∃ t, decodeOp s.requests = .error (.unusedTag t) ∧ requestTurn s = .done (.refused (.unusedTag t))) ∨
    ∃ e, decodeOp s.requests = .error e ∧ e ≠ .noBytes ∧ (∀ t, e ≠ .unusedTag t) ∧
      requestTurn s = .done (.refused .badOperands) := by
  unfold requestTurn
  cases h : decodeOp s.requests with
  | ok x =>
    obtain ⟨i, rest⟩ := x
    cases ho : offered i
    · exact .inr (.inl ⟨i, rest, rfl, ho, by simp [ho]⟩)
    · exact .inl ⟨i, rest, rfl, ho, by simp [ho]⟩
  | error e =>
    cases e with
    | noBytes => exact .inr (.inr (.inl ⟨rfl, rfl⟩))
    | unusedTag t => exact .inr (.inr (.inr (.inl ⟨t, rfl, rfl⟩)))
    | badOperands => exact .inr (.inr (.inr (.inr ⟨_, rfl, nofun, nofun, rfl⟩)))
    | shortHeader => exact .inr (.inr (.inr (.inr ⟨_, rfl, nofun, nofun, rfl⟩)))
    | noMarker => exact .inr (.inr (.inr (.inr ⟨_, rfl, nofun, nofun, rfl⟩)))
    | incomplete fc len => exact .inr (.inr (.inr (.inr ⟨_, rfl, nofun, nofun, rfl⟩)))

@[simp] theorem runTurns_nil (s : State) : runTurns [] s = .next s := rfl

theorem runTurns_cons_next {t : Turn} {s s' : State} (ts : List Turn) (h : stepTurn t s = .next s') :
    runTurns (t :: ts) s = runTurns ts s' := by
  simp [runTurns, h]

/-- Two runs one after the other are one run. -/
theorem runTurns_append {a b : List Turn} {s s' : State} (h : runTurns a s = .next s') :
    runTurns (a ++ b) s = runTurns b s' := by
  induction a generalizing s with
  | nil =>
    simp only [runTurns_nil, Host.Outcome.next.injEq] at h
    rw [List.nil_append, h]
  | cons t ts ih =>
    cases hs : stepTurn t s with
    | next u =>
      rw [runTurns_cons_next _ hs] at h
      rw [List.cons_append, runTurns_cons_next _ hs]
      exact ih h
    | fault f => simp [runTurns, hs] at h
    | refused r => simp [runTurns, hs] at h

/-! ## Counters -/

/-- R214: a code names the event that has it. -/
@[simp] theorem Event.ofCode_code (e : Event) : Event.ofCode e.code = some e := by cases e <;> rfl

/-- R214: an event found by its code has that code, so the table's codes are those and no others. -/
theorem Event.code_of_ofCode {n : Nat} {e : Event} (h : Event.ofCode n = some e) : e.code = n := by
  unfold Event.ofCode at h
  split at h <;> cases h <;> rfl

/-- R214: no two events share a code. -/
theorem Event.code_inj {e e' : Event} : e.code = e'.code ↔ e = e' :=
  ⟨fun h => Option.some.inj (by rw [← Event.ofCode_code e, h, Event.ofCode_code]), fun h => h ▸ rfl⟩

/-- R214: the codes are 1 to 10. -/
theorem Event.code_range (e : Event) : 1 ≤ e.code ∧ e.code ≤ 10 := by cases e <;> decide

/-- An event moves its own counter by one, modulo `2 ^ CNT_W`, and no other (R51). -/
theorem Counters.get_bump (k : Config) (c : Counters) (e e' : Event) :
    (c.bump k e).get e' = if e' = e then (c.get e + 1) % 2 ^ k.cntW else c.get e' := by
  cases e <;> cases e' <;> rfl

/-! ## Dispatcher -/

/-- Everything DISPATCH does (R168, R171 to R173). -/
theorem dispatchOp_eq (fc : Byte) (p : List Byte) (s : State) :
    dispatchOp fc p s =
      if fc = s.config.fcRun then
        if p.length = s.config.runSize then { note (.dispatch fc p.length p) s with run := p }
        else emit .dlen 0 (note (.dispatch fc p.length p) s)
      else emit .noHandler 0 (note (.dispatch fc p.length p) s) := rfl

/-- DISPATCH of a length that can be presented is the operation that the accept step runs (R167, R168). -/
theorem exec_dispatch (fc : Byte) {p : List Byte} (s : State) (hp : p.length ≤ 255) :
    exec (.dispatch fc p) s = .next (dispatchOp fc p s) := by
  simp [exec, execDispatch, payloadFits, hp]

/-- What the accept step does to RUN, the counters and the trace is EV_FRAME and then DISPATCH, whatever was latched. -/
theorem acceptFrame_dispatch (fc : Byte) (p : List Byte) (s : State) :
    let t := acceptFrame fc p (sumUp fc p (latch fc p.length s))
    let u := dispatchOp fc p (emit .frame p.length s)
    t.run = u.run ∧ t.counters = u.counters ∧ t.trace = u.trace := by
  by_cases h1 : fc = s.config.fcRun <;> by_cases h2 : p.length = s.config.runSize <;>
    simp [acceptFrame, advance, dispatchOp_eq, sumUp, latch, h1, h2]

/-- What DISPATCH adds to the trace. -/
theorem dispatchOp_trace (fc : Byte) (p : List Byte) (s : State) :
    (dispatchOp fc p s).trace = s.trace ++ dispatchObs s.config fc p := by
  rw [dispatchOp_eq, dispatchObs]
  split
  · split <;> simp
  · simp

/-- DISPATCH changes nothing but RUN, the counters and the trace. -/
theorem dispatchOp_frame (fc : Byte) (p : List Byte) (s : State) :
    dispatchOp fc p s = { s with
      run := (dispatchOp fc p s).run
      counters := (dispatchOp fc p s).counters
      trace := (dispatchOp fc p s).trace } := by
  rw [dispatchOp_eq]
  split
  · split <;> rfl
  · rfl

/-- RUN after a DISPATCH. -/
theorem dispatchOp_run (fc : Byte) (p : List Byte) (s : State) :
    (dispatchOp fc p s).run = if fc = s.config.fcRun ∧ p.length = s.config.runSize then p else s.run := by
  rw [dispatchOp_eq]
  by_cases h1 : fc = s.config.fcRun <;> by_cases h2 : p.length = s.config.runSize <;> simp [h1, h2]

/-! ## Scanner -/

/-- The shape of a scan iteration: which of its outcomes it is, the first test that fires deciding (R157, R229). -/
theorem frameIteration_cases (fc : Byte) (p : List Byte) (cks : Byte) (s : State) :
    windowExhausted s = true ∧ frameIteration fc p cks s = endScan s ∨
    windowExhausted s = false ∧ fc ∉ s.config.allow ∧ frameIteration fc p cks s = rejectCode fc s ∨
    windowExhausted s = false ∧ fc ∈ s.config.allow ∧ oversize s.config p.length = true ∧
      frameIteration fc p cks s = rejectOversize fc p.length s ∨
    windowExhausted s = false ∧ fc ∈ s.config.allow ∧ oversize s.config p.length = false ∧
      candidateIncomplete p.length s = true ∧ frameIteration fc p cks s = endScan (latch fc p.length s) ∨
    windowExhausted s = false ∧ fc ∈ s.config.allow ∧ oversize s.config p.length = false ∧
      candidateIncomplete p.length s = false ∧ sum8 (covered fc p) = cks ∧
      frameIteration fc p cks s = acceptFrame fc p (sumUp fc p (latch fc p.length s)) ∨
    windowExhausted s = false ∧ fc ∈ s.config.allow ∧ oversize s.config p.length = false ∧
      candidateIncomplete p.length s = false ∧ sum8 (covered fc p) ≠ cks ∧
      frameIteration fc p cks s = rejectChecksum p.length (sumUp fc p (latch fc p.length s)) := by
  unfold frameIteration
  cases windowExhausted s
  · by_cases h1 : fc ∈ s.config.allow
    · cases oversize s.config p.length
      · cases candidateIncomplete p.length s
        · by_cases h2 : sum8 (covered fc p) = cks <;> simp [h1, h2]
        · simp [h1]
      · simp [h1]
    · simp [h1]
  · simp

/-- What a scan iteration may change: the scanner's registers, RUN, six counters and the trace (R67). -/
theorem frameIteration_frame (fc : Byte) (p : List Byte) (cks : Byte) {s t : State}
    (ht : frameIteration fc p cks s = t) :
    t = { s with
      off := t.off, ph := t.ph, fcLatch := t.fcLatch, lLatch := t.lLatch, sum := t.sum, idx := t.idx
      run := t.run, trace := t.trace
      counters := { s.counters with
        fc := t.counters.fc, oversize := t.counters.oversize, cks := t.counters.cks, frame := t.counters.frame
        noHandler := t.counters.noHandler, dlen := t.counters.dlen } } := by
  subst ht
  rcases frameIteration_cases fc p cks s with h | h | h | h | h | h
  · rw [h.2]; rfl
  · rw [h.2.2]; rfl
  · rw [h.2.2.2]; rfl
  · rw [h.2.2.2.2]; rfl
  · rw [h.2.2.2.2.2]
    simp only [acceptFrame, advance, dispatchOp_eq]
    split
    · split <;> rfl
    · rfl
  · rw [h.2.2.2.2.2]; rfl

/-- Every meaning of a frame inside ALLOW is the one scan iteration. -/
theorem exec_frameOf {k : Config} {fc : Byte} (p : List Byte) (cks : Byte) {s : State} (hk : s.config = k)
    (h : k.classOf fc ≠ .illegal) : exec (frameOf k fc p cks) s = .next (frameIteration fc p cks s) := by
  subst hk
  unfold frameOf
  cases hc : s.config.classOf fc with
  | handled =>
    rw [Config.classOf_handled] at hc
    subst hc
    rfl
  | reserved q => cases q <;> rfl
  | illegal => exact absurd hc h

/-- The window's unscanned rest as the scanner reads it. -/
theorem loadRange_rest {s : State} (h : WindowInv s) (ho : s.off ≤ s.fill) :
    loadRange s.config .sw s.sw s.off (s.fill - s.off) = .ok ((windowBytes s).drop s.off) := by
  obtain ⟨hf, -, -, hw, -⟩ := h
  rw [loadRange_ok _ _ (by simp only [Space.size]; omega) fun j hj => hw _ (by omega)]
  congr 1
  apply List.ext_getElem
  · simp
  · intro j h1 h2
    simp [windowBytes]

/-- DRAIN_STEP in a state that meets the invariants (R136). -/
theorem drainStep_ok {s : State} (hr : RingInv s) (hd : s.rd ≠ s.wr) (hf : s.fill < s.config.w) :
    drainStep s = .ok { s with
      rd := incC s.config s.rd
      taken := s.taken ++ [(s.rb.read s.rd).getD 0]
      sw := s.sw.write s.fill ((s.rb.read s.rd).getD 0)
      fill := s.fill + 1 } := by
  unfold drainStep
  rw [takeOp_ok hr hd]
  simp only
  rw [store_ok (show s.fill < Space.size s.config .sw from hf)]

/-- A drained byte is appended to the window's bytes. -/
theorem windowBytes_append (s : State) (b : Byte) (rd : Nat) (a : List Byte) :
    windowBytes { s with rd := rd, taken := a, sw := s.sw.write s.fill b, fill := s.fill + 1 } =
      windowBytes s ++ [b] := by
  unfold windowBytes
  rw [List.range_succ, List.map_append]
  congr 1
  · apply List.map_congr_left
    intro j hj
    simp only
    rw [Memory.read_write_other _ _ (by have := List.mem_range.1 hj; omega)]
  · simp [Memory.read_write_same]

/-- COMPACT in a state that meets the invariants: the tail stands at offset 0, the elements behind it keep their bytes
(R155). -/
theorem compactOp_ok {s : State} (h : WindowInv s) (ho : s.off ≤ s.fill) :
    ∃ m, compactOp s = .ok { s with sw := m, fill := s.fill - s.off, idx := s.fill - s.off, ph := .idle } ∧
      (∀ j, m.read j = if j < s.fill - s.off then s.sw.read (s.off + j) else s.sw.read j) ∧
      Memory.wf m ∧ ∀ x ∈ m, x.1 < s.config.w := by
  obtain ⟨hf, hwf, hbd, hw, -⟩ := h
  obtain ⟨m, hm, hread, hwf', hbd'⟩ := copyDown_ok (k := s.config) (sp := .sw) (s.fill - s.off) s.sw s.off 0
    (Nat.zero_le _) (by simp only [Space.size]; omega) fun j hj => hw _ (by omega)
  refine ⟨m, ?_, ?_, hwf' hwf, hbd' s.config.w (Nat.le_refl _) hbd⟩
  · unfold compactOp
    rw [hm]
  · intro j
    rw [hread j]
    simp

/-- The window's bytes after a compaction. -/
theorem windowBytes_compact {s : State} {m : Memory} {i : Nat} {ph : Phase}
    (hread : ∀ j, m.read j = if j < s.fill - s.off then s.sw.read (s.off + j) else s.sw.read j) :
    windowBytes { s with sw := m, fill := s.fill - s.off, idx := i, ph := ph } =
      (windowBytes s).drop s.off := by
  apply List.ext_getElem
  · simp
  · intro j h1 h2
    simp only [windowBytes, List.length_map, List.length_range] at h1
    simp [windowBytes, hread, h1]

/-! ## Builder -/

/-- The writes of BUILD: TXB holds the frame from offset 0 on, and what stood behind it (R186). -/
theorem buildWrites_ok (k : Config) (fc : Byte) {p : List Byte} (m : Memory) (hp : p.length ≤ 255) :
    ∃ m', buildWrites k fc p m = .ok m' ∧
      (∀ j, m'.read j = if j < frameLen p.length then (encFrame fc p)[j]? else m.read j) ∧
      (Memory.wf m → Memory.wf m') ∧ ((∀ x ∈ m, x.1 < 260) → ∀ x ∈ m', x.1 < 260) := by
  have hsz : Space.size k .txb = 260 := rfl
  obtain ⟨m1, h1, hr1, hw1, hb1⟩ := storeRange_ok (k := k) (sp := .txb) p (m.write 2 fc) 4 (by rw [hsz]; omega)
  have key : ∀ j, ((((m1.write 0 sync1).write 1 sync2).write 3 (BitVec.ofNat 8 p.length)).read j) =
      if j < 4 + p.length then (covered fc p)[j]? else m.read j := by
    intro j
    rw [Memory.read_write, Memory.read_write, Memory.read_write, hr1 j, Memory.read_write]
    by_cases h3 : j = 3
    · subst h3
      rw [if_pos rfl, if_pos (by omega)]
      rfl
    · by_cases hj1 : j = 1
      · subst hj1
        rw [if_neg h3, if_pos rfl, if_pos (by omega)]
        rfl
      · by_cases hj0 : j = 0
        · subst hj0
          rw [if_neg h3, if_neg hj1, if_pos rfl, if_pos (by omega)]
          rfl
        · rw [if_neg h3, if_neg hj1, if_neg hj0]
          by_cases hj2 : j = 2
          · subst hj2
            rw [if_neg (by omega), if_pos rfl, if_pos (by omega)]
            rfl
          · by_cases hjp : j < 4 + p.length
            · rw [if_pos (by omega), if_pos hjp, covered, List.getElem?_append_right (by simp; omega)]
              simp
            · rw [if_neg (by omega), if_neg hj2, if_neg hjp]
  have hload := loadRange_ok (k := k) (sp := .txb)
    (m := ((m1.write 0 sync1).write 1 sync2).write 3 (BitVec.ofNat 8 p.length)) (4 + p.length) 0
    (by rw [hsz]; omega) fun j hj => by
      rw [Nat.zero_add, key j, if_pos hj, List.getElem?_eq_getElem (by simpa using hj)]
      rfl
  have hcov : ((List.range (4 + p.length)).map fun j =>
      ((((m1.write 0 sync1).write 1 sync2).write 3 (BitVec.ofNat 8 p.length)).read (0 + j)).getD 0) =
      covered fc p := by
    apply List.ext_getElem
    · simp
    · intro j h2 h3
      simp only [List.length_map, List.length_range] at h2
      simp only [List.getElem_map, List.getElem_range, Nat.zero_add]
      rw [key j, if_pos h2, List.getElem?_eq_getElem h3]
      rfl
  refine ⟨(((m1.write 0 sync1).write 1 sync2).write 3 (BitVec.ofNat 8 p.length)).write (4 + p.length)
    (sum8 (covered fc p)), ?_, ?_, ?_, ?_⟩
  · simp only [buildWrites, bind, Except.bind]
    rw [store_ok (by rw [hsz]; omega)]
    simp only
    rw [h1]
    simp only
    rw [store_ok (by rw [hsz]; omega)]
    simp only
    rw [store_ok (by rw [hsz]; omega)]
    simp only
    rw [store_ok (by rw [hsz]; omega)]
    simp only
    rw [hload]
    simp only
    rw [hcov, store_ok (by rw [hsz]; omega)]
  · intro j
    rw [Memory.read_write, key j]
    have hlen : (covered fc p).length = 4 + p.length := covered_length fc p
    by_cases h2 : j = 4 + p.length
    · rw [if_pos h2, if_pos (by unfold frameLen; omega), encFrame, frameBytes,
        List.getElem?_append_right (by omega), h2, hlen, Nat.sub_self]
      rfl
    · rw [if_neg h2]
      by_cases h3 : j < 4 + p.length
      · rw [if_pos h3, if_pos (by unfold frameLen; omega), encFrame, frameBytes,
          List.getElem?_append_left (by omega)]
      · rw [if_neg h3, if_neg (by unfold frameLen; omega)]
  · intro h
    exact Memory.wf_write (Memory.wf_write (Memory.wf_write (Memory.wf_write (hw1 (Memory.wf_write h _ _)) _ _)
      _ _) _ _) _ _
  · intro h
    exact Memory.bounded_write (Memory.bounded_write (Memory.bounded_write (Memory.bounded_write
      (hb1 260 (by omega) (Memory.bounded_write h (by omega) _)) (by omega) _) (by omega) _) (by omega) _)
      (by omega) _

/-- Everything SERIALIZE_STEP can do: not enabled, the offer alone; on ok TXI moves on, or the send ends behind the last byte;
else the send ends with EV_SINKFAIL (R193 to R195). -/
theorem serializeByte_cases (b : Byte) (s : State) :
    s.txlen ≤ s.txi ∧ serializeByte b s = transmitOp b s ∨
    s.txi < s.txlen ∧ sinkAnswer s = true ∧ s.txi + 1 = s.txlen ∧ serializeByte b s = endSend (transmitOp b s) ∨
    s.txi < s.txlen ∧ sinkAnswer s = true ∧ s.txi + 1 ≠ s.txlen ∧
      serializeByte b s = { transmitOp b s with txi := s.txi + 1 } ∨
    s.txi < s.txlen ∧ sinkAnswer s = false ∧ serializeByte b s = endSend (emit .sinkFail 0 (transmitOp b s)) := by
  unfold serializeByte
  by_cases h : s.txlen ≤ s.txi
  · exact .inl ⟨h, by rw [if_pos h]⟩
  · have hlt : s.txi < s.txlen := by omega
    cases ha : sinkAnswer s
    · exact .inr (.inr (.inr ⟨hlt, rfl, by rw [if_neg h]; rfl⟩))
    · by_cases h1 : s.txi + 1 = s.txlen
      · exact .inr (.inl ⟨hlt, rfl, h1, by simp [h, h1]⟩)
      · exact .inr (.inr (.inl ⟨hlt, rfl, h1, by simp [h, h1]⟩))

/-- SERIALIZE_STEP changes only TXI, TXLEN, the answers, the trace and one counter. -/
theorem serializeByte_frame (b : Byte) (s : State) :
    serializeByte b s = { s with
      txlen := (serializeByte b s).txlen, txi := (serializeByte b s).txi
      sinkAnswers := (serializeByte b s).sinkAnswers, trace := (serializeByte b s).trace
      counters := { s.counters with sinkFail := (serializeByte b s).counters.sinkFail } } := by
  rcases serializeByte_cases b s with ⟨-, h⟩ | ⟨-, -, -, h⟩ | ⟨-, -, -, h⟩ | ⟨-, -, h⟩ <;> rw [h] <;> rfl

/-- The sender's turn while a send is in progress runs TRANSMIT_ONE of the byte at TXI, which BUILD has written (R62, R193). -/
theorem senderTurn_busy {s : State} (h : BuilderInv s) (hb : s.txlen ≠ 0) :
    ∃ b, s.txb.read s.txi = some b ∧ senderTurn s = .instr (.transmitOne b) s := by
  obtain ⟨hl, -, -, hw⟩ := h
  have hlt : s.txi < s.txlen := by omega
  have hsz : s.txi < Space.size s.config .txb := show s.txi < 260 by omega
  obtain ⟨b, hr⟩ := Option.isSome_iff_exists.1 (hw _ hlt)
  refine ⟨b, hr, ?_⟩
  have hbusy : txBusy s = true := by simpa [txBusy] using hb
  unfold senderTurn
  rw [if_pos hbusy, if_neg (by omega), load_eq_ok.2 ⟨hsz, hr⟩]

end Sys2Proof.Machine
end

