-- ==== Sys2Proof/Tests/Slice0.lean ====
section
/-! SUPPORT. The model's own tests and, for every statement with hypotheses, a state and operands that meet them.
Expected results are those of spec/95_test_vectors.md (named in each docstring) or are worked out by hand from the rules. -/

namespace Sys2Proof.Tests

open Sys2Proof.Machine

/-! ## Helpers -/

/-- `o` is a next state of which `f` holds. -/
def nextAnd (o : Answer) (f : State → Bool) : Bool :=
  match o with
  | .next t => f t
  | _ => false

/-- `bs` decodes to `i` with `rest` left over. -/
def decodesTo (bs : List Byte) (i : Instr) (rest : List Byte) : Bool :=
  match decode Config.tcA bs with
  | .ok x => x = (i, rest)
  | .error _ => false

/-- `bs` is refused for the reason `e`. -/
def rejects (bs : List Byte) (e : DecodeError) : Bool :=
  match decode Config.tcA bs with
  | .ok _ => false
  | .error f => f = e

/-- An array with `bs` written from index 0 on. -/
def cells (bs : List Byte) : Memory := (List.range bs.length).zip bs

/-- `C = 4`, the ring of vector B1. -/
def tcB1 : Config := { Config.tcA with c := 4 }

/-- B1 after step 2: two bytes live. -/
def ringTwo : State :=
  { State.reset with config := tcB1, rb := cells [0x11, 0x22], wr := 2, accepted := [0x11, 0x22] }

/-- B1 after step 3: full. -/
def ringFull : State :=
  { State.reset with config := tcB1, rb := cells [0x11, 0x22, 0x33], wr := 3, accepted := [0x11, 0x22, 0x33] }

/-- B1 after step 6: one byte live, the next PUSH wraps WR. -/
def ringOne : State :=
  { ringFull with rd := 2, taken := [0x11, 0x22], trace := [.event .drop 0, .tookByte 0x11, .tookByte 0x22]
                  counters := { Counters.zero with drop := 1 } }

/-- B1 after step 10: RD stands at the last slot. -/
def ringWrap : State :=
  { State.reset with
    config := tcB1, rb := cells [0x66, 0x22, 0x33, 0x55], wr := 1, rd := 3
    accepted := [0x11, 0x22, 0x33, 0x55, 0x66], taken := [0x11, 0x22, 0x33] }

/-- B1 after step 12: empty, with RB written. -/
def ringEmpty : State :=
  { State.reset with
    config := tcB1, rb := cells [0x66, 0x22, 0x33, 0x55], wr := 1, rd := 1
    accepted := [0x11, 0x22, 0x33, 0x55, 0x66], taken := [0x11, 0x22, 0x33, 0x55, 0x66] }

/-- The window holds `bs`, the scanner is in phase `ph` at offset `off`. -/
def window (bs : List Byte) (ph : Phase) (off : Nat) : State :=
  { State.reset with sw := cells bs, fill := bs.length, ph := ph, off := off }

/-- A send of E1 in progress with `n` bytes offered. -/
def sending (n : Nat) : State :=
  { State.reset with txb := cells [0xAA, 0x55, 0x01, 0x02, 0x10, 0x20, 0x32], txlen := 7, txi := n }

/-! ## Well-formedness refuses the ill-formed (R96, R106, R183) -/

/-- 256 payload bytes. -/
def tooLong : List Byte := List.replicate 256 0

theorem test_payload_too_long : payloadFits tooLong = false := by
  rw [payloadFits, tooLong, List.length_replicate]
  decide

theorem test_wf_dispatch_payload : WellFormed Config.tcA (.dispatch 1 tooLong) = false := test_payload_too_long

theorem test_wf_sendFrame_payload : WellFormed Config.tcA (.sendFrame 1 tooLong) = false := test_payload_too_long

theorem test_wf_run_payload : WellFormed Config.tcA (.frameUpdateRunningState tooLong 0) = false := test_payload_too_long

theorem test_wf_config_payload : WellFormed Config.tcA (.frameConfigUpdate 2 tooLong 0) = false := by
  rw [WellFormed, test_payload_too_long, Bool.false_and]

theorem test_wf_card_payload : WellFormed Config.tcA (.frameCardList 3 tooLong 0) = false := by
  rw [WellFormed, test_payload_too_long, Bool.false_and]

theorem test_wf_alarm_payload : WellFormed Config.tcA (.frameAlarmRecord 4 tooLong 0) = false := by
  rw [WellFormed, test_payload_too_long, Bool.false_and]

theorem test_wf_config_class : WellFormed Config.tcA (.frameConfigUpdate 1 [] 0) = false := by decide

theorem test_wf_card_class : WellFormed Config.tcA (.frameCardList 2 [] 0) = false := by decide

theorem test_wf_alarm_class : WellFormed Config.tcA (.frameAlarmRecord 9 [] 0) = false := by decide

theorem test_wf_illegal_class : WellFormed Config.tcA (.frameIllegal 4 0) = false := by decide

/-! ## Decoding: words written out (R115, R91; vectors E1, E5, E6, E8, V6) -/

theorem test_decode_operations :
    decodesTo [0x00] .reset [] ∧ decodesTo [0x01, 0x42, 0x99] (.push 0x42) [0x99] ∧
    decodesTo [0x02, 0x01, 0x11, 0x01, 0x22, 0x00, 0x05] (.pushMany [0x11, 0x22]) [0x05] ∧
    decodesTo [0x03] .hasData [] ∧ decodesTo [0x04] .takeByte [] ∧ decodesTo [0x05] .service [] ∧
    decodesTo [0x06, 0x09, 0x02, 0x10, 0x20] (.dispatch 0x09 [0x10, 0x20]) [] ∧
    decodesTo [0x07, 0x7F, 0x03, 0x00, 0x00, 0x00] (.sendFrame 0x7F [0, 0, 0]) [] ∧
    decodesTo [0x08, 0xAA] (.transmitOne 0xAA) [] ∧ decodesTo [0x09] .snapshotRunningState [] ∧
    decodesTo [0x0A, 0x00] .snapshotConfig [0x00] := by decide

theorem test_decode_frames :
    decodesTo [0xAA, 0x55, 0x01, 0x02, 0x10, 0x20, 0x32] (.frameUpdateRunningState [0x10, 0x20] 0x32) [] ∧
    decodesTo [0xAA, 0x55, 0x02, 0x01, 0x77, 0x79] (.frameConfigUpdate 0x02 [0x77] 0x79) [] ∧
    decodesTo [0xAA, 0x55, 0x03, 0x03, 0xAA, 0x55, 0x01, 0x05] (.frameCardList 0x03 [0xAA, 0x55, 0x01] 0x05) [] ∧
    decodesTo [0xAA, 0x55, 0x04, 0x00, 0x03, 0xAA] (.frameAlarmRecord 0x04 [] 0x03) [0xAA] ∧
    decodesTo [0xAA, 0x55, 0x09, 0x02, 0x10] (.frameIllegal 0x09 0x02) [0x10] := by decide

theorem test_decode_rejects :
    rejects [] .noBytes ∧ rejects [0x0B] (.unusedTag 0x0B) ∧ rejects [0x10] (.unusedTag 0x10) ∧
    rejects [0x01] .badOperands ∧ rejects [0x02, 0x02, 0x00] .badOperands ∧
    rejects [0x07, 0x01, 0x02, 0x10] .badOperands ∧ rejects [0xAA, 0x54, 0x01, 0x00, 0x00] .noMarker ∧
    rejects [0xAA, 0x55, 0x01] .shortHeader ∧
    rejects [0xAA, 0x55, 0x01, 0x02, 0x10, 0x20] (.incomplete 0x01 0x02) := by decide

theorem test_encode_vectors :
    encFrame 0xFF [0xFF] = [0xAA, 0x55, 0xFF, 0x01, 0xFF, 0xFE] ∧
    encFrame 0x01 [0x80, 0x80] = [0xAA, 0x55, 0x01, 0x02, 0x80, 0x80, 0x02] ∧
    encFrame 0x7F [0, 0, 0] = [0xAA, 0x55, 0x7F, 0x03, 0, 0, 0, 0x81] ∧
    decFrame [0xAA, 0x55, 0x01, 0x02, 0x10, 0x21, 0x32] = none ∧
    decFrame [0xAA, 0x54, 0x01, 0x02, 0x10, 0x20, 0x31] = none := by decide

theorem test_decode_table_words :
    decodeTableWord 8 0x5 = some .service ∧ decodeTableWord 8 0xB = none ∧
    decodeTableWord 32 0xAA550000 = some (.frameIllegal 0 0) ∧
    decodeTableWord 32 0xAA550302 = some (.frameCardList 3 [0, 0] 0) := by decide

/-! ## The codes of the events, from the table of R214 -/

theorem test_event_codes : [Event.drop, .sync, .fc, .oversize, .cks, .frame, .noHandler, .dlen, .sinkFail, .underrun].map Event.code =
    [1, 2, 3, 4, 5, 6, 7, 8, 9, 10] := by decide

theorem test_no_other_event_code : Event.ofCode 0 = none ∧ Event.ofCode 11 = none := by decide

/-! ## One step -/

/-- R57 to R61. -/
theorem test_reset_clears : nextAnd (exec .reset { ringFull with counters := { Counters.zero with drop := 3 } })
    (fun t => t.wr = 0 && t.rd = 0 && t.counters = Counters.zero && t.run.length = 2 && t.config = tcB1) := by decide

theorem test_reset_drops_held : nextAnd (exec .reset { sending 3 with heldSends := [(1, [])], heldServices := 2 })
    (fun t => t.txlen = 0 && t.txi = 0 && t.heldSends = [] && t.heldServices = 0) := by decide

/-- B1 step 4. -/
theorem test_push_full : nextAnd (exec (.push 0x44) ringFull)
    (fun t => t.wr = 3 && t.rb = ringFull.rb && t.counters.drop = 1 && t.trace = [.event .drop 0]) := by decide

/-- B1 step 7. -/
theorem test_push_wraps : nextAnd (exec (.push 0x55) ringOne)
    (fun t => t.wr = 0 && t.rb = cells [0x11, 0x22, 0x33, 0x55] && liveBytes t = [0x33, 0x55]) := by decide

/-- B3: the last byte that fits is stored, the one after it dropped. -/
theorem test_pushMany_overflow :
    nextAnd (execThen (.pushMany [0x33, 0x44]) [.producer, .producer] ringTwo)
      (fun t => liveBytes t = [0x11, 0x22, 0x33] && t.batch = [] && t.counters.drop = 1) := by decide

theorem test_pushMany_waits : nextAnd (exec (.pushMany [0x33, 0x44]) ringTwo)
    (fun t => t.wr = 2 && t.batch = [0x33, 0x44]) := by decide

/-- B1 steps 3 and 12. -/
theorem test_hasData_true : nextAnd (exec .hasData ringFull) (fun t => t.trace = [.hasData true]) := by decide

theorem test_hasData_false : nextAnd (exec .hasData ringEmpty) (fun t => t.trace = [.hasData false]) := by decide

/-- B1 step 11. -/
theorem test_takeByte_wraps : nextAnd (exec .takeByte ringWrap)
    (fun t => t.rd = 0 && t.trace = [.tookByte 0x55] && liveBytes t = [0x66]) := by decide

/-- B1 step 13. -/
theorem test_takeByte_empty : nextAnd (exec .takeByte ringEmpty)
    (fun t => t.rd = 1 && t.trace = [.event .underrun 0, .tookByte 0] && t.counters.underrun = 1) := by decide

/-- R133, R134. -/
theorem test_service_begins : nextAnd (exec .service ringTwo) (fun t => t.ph = .drain && t.rd = 0) := by decide

theorem test_service_held : nextAnd (exec .service (window [] .gate 0))
    (fun t => t.ph = .gate && t.heldServices = 1) := by decide

/-- R171, and H4 for the length. -/
theorem test_dispatch_run :
    nextAnd (exec (.dispatch 1 [0x10, 0x20]) State.reset)
      (fun t => t.run = [0x10, 0x20] && t.trace = [.dispatch 1 2 [0x10, 0x20]]) ∧
    nextAnd (exec (.dispatch 1 [1, 2, 3]) State.reset) (fun t => t.run = [0, 0] && t.counters.dlen = 1) := by decide

/-- T1, the build step. -/
theorem test_sendFrame_builds : nextAnd (exec (.sendFrame 1 [0x10, 0x20]) State.reset)
    (fun t => t.txb = cells [0xAA, 0x55, 0x01, 0x02, 0x10, 0x20, 0x32] && t.txlen = 7 && t.txi = 0) := by decide

/-- T8: the second request waits. -/
theorem test_sendFrame_held : nextAnd (exec (.sendFrame 4 []) (sending 3))
    (fun t => t.heldSends = [(4, [])] && t.txlen = 7 && t.txi = 3) := by decide

/-- T1: the last byte ends the send. -/
theorem test_transmitOne_ok : nextAnd (step { sending 6 with turns := [.sender] })
    (fun t => t.trace = [.transmit 0x32 true] && t.txlen = 0 && t.txi = 0) := by decide

/-- T4: the fourth byte is refused. -/
theorem test_transmitOne_fail :
    nextAnd (exec (.transmitOne 0x02) { sending 3 with sinkAnswers := [false, true] })
      (fun t => t.trace = [.transmit 0x02 false, .event .sinkFail 0] && t.sinkAnswers = [true] && t.txlen = 0 &&
        emittedBytes t.trace = []) := by decide

/-- H7, the meaning alone, with EV_NOHANDLER by log 20. -/
theorem test_dispatch_unknown : nextAnd (exec (.dispatch 9 []) State.reset)
    (fun t => t.run = [0, 0] && t.trace = [.dispatch 9 0 [], .event .noHandler 0]) := by decide

/-- H2, H6. -/
theorem test_snapshot_run : nextAnd (exec .snapshotRunningState { State.reset with run := [0x10, 0x20] })
    (fun t => t.trace = [.snapshotRun [0x10, 0x20]]) := by decide

theorem test_snapshot_config : nextAnd (exec .snapshotConfig { State.reset with cfg := [0x07, 0x08] })
    (fun t => t.trace = [.snapshotConfig [0x07, 0x08]]) := by decide

/-- V1, the scan iteration. -/
theorem test_frame_run_accepted :
    nextAnd (step { window [0xAA, 0x55, 1, 2, 0x10, 0x20, 0x32] .scan 0 with turns := [.consumer] })
      (fun t => t.off = 7 && t.run = [0x10, 0x20] && t.counters.frame = 1 &&
        t.trace = [.event .frame 2, .dispatch 1 2 [0x10, 0x20]]) := by decide

/-- V15: OFF 0 to 3. -/
theorem test_frame_run_bad_checksum :
    nextAnd (step { window [0xAA, 0x55, 1, 2, 0x10, 0x20, 0x33] .scan 0 with turns := [.consumer] })
      (fun t => t.off = 3 && t.run = [0, 0] && t.sum = 0x32 && t.trace = [.event .cks 2]) := by decide

/-- V7. -/
theorem test_frame_config_consumed :
    nextAnd (step { window [0xAA, 0x55, 2, 1, 0x77, 0x79] .scan 0 with turns := [.consumer] })
      (fun t => t.off = 6 && t.run = [0, 0] && t.cfg = [0, 0] &&
        t.trace = [.event .frame 1, .dispatch 2 1 [0x77], .event .noHandler 0]) := by decide

/-- V11: the length can never fit. -/
theorem test_frame_config_oversize :
    nextAnd (step { window [0xAA, 0x55, 2, 0x0C, 0, 0, 0, 0] .scan 0 with turns := [.consumer] })
      (fun t => t.off = 1 && t.lLatch = 0x0C && t.trace = [.event .oversize 12]) := by decide

/-- V14's frame with E5's payload, behind one scanned byte. -/
theorem test_frame_card_consumed :
    nextAnd (step { window [0, 0xAA, 0x55, 3, 3, 0xAA, 0x55, 1, 5] .scan 1 with turns := [.consumer] })
      (fun t => t.off = 9 && t.trace = [.event .frame 3, .dispatch 3 3 [0xAA, 0x55, 1], .event .noHandler 0]) := by
  decide

/-- V4's wait, with a card-list code. -/
theorem test_frame_card_waits :
    nextAnd (step { window [0xAA, 0x55, 3, 1, 0x77] .scan 0 with turns := [.consumer] })
      (fun t => t.off = 0 && t.ph = .compact && t.fcLatch = 3 && t.lLatch = 1 && t.trace = []) := by decide

/-- E6. -/
theorem test_frame_alarm_consumed :
    nextAnd (step { window [0xAA, 0x55, 4, 0, 3] .scan 0 with turns := [.consumer] })
      (fun t => t.off = 5 && t.trace = [.event .frame 0, .dispatch 4 0 [], .event .noHandler 0]) := by decide

theorem test_frame_alarm_bad_checksum :
    nextAnd (step { window [0xAA, 0x55, 4, 0, 4] .scan 0 with turns := [.consumer] })
      (fun t => t.off = 1 && t.trace = [.event .cks 0]) := by decide

/-- V6: OFF 0 to 1. -/
theorem test_frame_illegal_skips :
    nextAnd (step { window [0xAA, 0x55, 9, 2, 0x10, 0x20, 0x3A] .scan 0 with turns := [.consumer] })
      (fun t => t.off = 1 && t.fcLatch = 9 && t.lLatch = 0 && t.trace = [.event .fc 0]) := by decide

/-- V6: the four-byte header alone is enough. -/
theorem test_frame_illegal_header_only :
    nextAnd (step { window [0xAA, 0x55, 0, 0] .scan 0 with turns := [.consumer] })
      (fun t => t.off = 1 && t.trace = [.event .fc 0]) := by decide

/-- V15: compaction keeps the last three bytes. -/
theorem test_compact_moves_tail :
    nextAnd (step { window [0xAA, 0x55, 1, 2, 0x10, 0x20, 0x33] .compact 4 with turns := [.consumer] })
      (fun t => windowBytes t = [0x10, 0x20, 0x33] && t.ph = .idle) := by decide

/-- A table word placed after reset is what the next step runs. -/
theorem test_withFetchWord_frame : nextAnd (step (State.reset.withFetchWord 32 0xAA550000))
    (fun t => t.trace = [.event .fc 0]) := by decide

theorem test_withFetchWord_dispatch : nextAnd (step (State.reset.withFetchWord 8 0x6))
    (fun t => t.trace = [.event .frame 0, .dispatch 0 0 [], .event .noHandler 0] && t.turns = []) := by decide

theorem test_withFetchWord_transmit : nextAnd (step (State.reset.withFetchWord 8 0x8))
    (fun t => t.trace = [.transmit 0 true] && t.txi = 1 && t.turns = []) := by decide

theorem test_withFetchWord_op : nextAnd (step (State.reset.withFetchWord 8 0x4))
    (fun t => t.trace = [.event .underrun 0, .tookByte 0]) := by decide

/-! ## Witnesses: states and operands that meet the hypotheses of the statements, clause by clause -/

/-- 255 payload bytes, the longest payload. -/
def longest : List Byte := List.replicate 255 0xFF

theorem longest_length : longest.length = 255 := List.length_replicate

theorem longest_fits : payloadFits longest = true := by
  rw [payloadFits, longest_length]
  decide

theorem witness_DecodeOfEncode :
    WellFormed Config.tcA (.sendFrame 0xFF longest) = true ∧
    WellFormed Config.tcA (.frameUpdateRunningState longest 0) = true ∧
    WellFormed Config.tcA (.frameConfigUpdate 2 [] 0) = true ∧
    WellFormed Config.tcA (.frameCardList 3 [0xAA, 0x55] 5) = true ∧
    WellFormed Config.tcA (.frameAlarmRecord 4 [] 3) = true ∧
    WellFormed Config.tcA (.frameIllegal 5 255) = true :=
  ⟨longest_fits, longest_fits, by decide, by decide, by decide, by decide⟩

theorem witness_DecodedBytesAreTheEncoding :
    decode Config.tcA [0x02, 0x01, 0x11, 0x00, 0x05] = .ok (.pushMany [0x11], [0x05]) ∧
    decode Config.tcA [0xAA, 0x55, 0x04, 0x00, 0x03, 0xAA] = .ok (.frameAlarmRecord 4 [] 3, [0xAA]) := ⟨rfl, rfl⟩

theorem witness_WordsWrittenOutDecode :
    11 ≤ (0x0B : Byte).toNat ∧ 11 ≤ (0x10 : Byte).toNat ∧ 11 ≤ (0xFF : Byte).toNat := by decide

theorem witness_FrameCodecRoundTrip :
    ([] : List Byte).length ≤ 255 ∧ longest.length ≤ 255 ∧
    wellFormedFrame [0xAA, 0x55, 0x01, 0x02, 0x10, 0x20, 0x32] = true ∧
    wellFormedFrame [0xAA, 0x55, 0x04, 0x00, 0x03] = true :=
  ⟨by decide, Nat.le_of_eq longest_length, by decide, by decide⟩

theorem witness_ChecksumIdentity : ([] : List Byte).length ≤ 255 ∧ longest.length ≤ 255 :=
  ⟨by decide, Nat.le_of_eq longest_length⟩

theorem witness_ChecksumIgnoresOrder : List.Perm [(0x01 : Byte), 0xFF, 0x80] [0x80, 0x01, 0xFF] := by decide

theorem witness_SingleByteChangeIsDetected :
    ∃ (h0 : 0 < [(0xFF : Byte), 0x20].length) (h1 : 1 < [(0xFF : Byte), 0x20].length),
      (0x00 : Byte) ≠ [(0xFF : Byte), 0x20][0] ∧ (0x21 : Byte) ≠ [(0xFF : Byte), 0x20][1] :=
  ⟨by decide, by decide, by decide, by decide⟩

/-- E1 at `OFF = 1` of a scan. -/
def scanE1 : State := window [0x00, 0xAA, 0x55, 0x01, 0x02, 0x10, 0x20, 0x32] .scan 1

theorem witness_StepRunsTheDecodedInstruction_request :
    nextTurn { ringTwo with turns := [.request, .sender], requests := [0x04, 0x05] } = .request ∧
    nextTurn { ringTwo with requests := [0x04, 0x05] } = .request ∧
    decodeOp [0x04, 0x05] = .ok (.takeByte, [0x05]) ∧ offered .takeByte = true := ⟨rfl, by decide, rfl, rfl⟩

theorem witness_StepRunsTheDecodedInstruction_consumer :
    nextTurn scanE1 = .consumer ∧ scanE1.ph = .scan ∧ windowExhausted scanE1 = false ∧
    loadRange scanE1.config .sw scanE1.sw scanE1.off (scanE1.fill - scanE1.off) =
      .ok [0xAA, 0x55, 0x01, 0x02, 0x10, 0x20, 0x32] ∧
    decodeFrame scanE1.config [0xAA, 0x55, 0x01, 0x02, 0x10, 0x20, 0x32] =
      .ok (.frameUpdateRunningState [0x10, 0x20] 0x32, []) ∧
    nextTurn { ringTwo with heldServices := 1 } = .consumer ∧ ringTwo.ph = .idle :=
  ⟨by decide, rfl, by decide, rfl, rfl, by decide, rfl⟩

theorem witness_StepRunsTheDecodedInstruction_batch :
    nextTurn { ringFull with batch := [0x44] } = .producer ∧ ({ ringFull with batch := [0x44] }).batch = 0x44 :: [] :=
  ⟨by decide, rfl⟩

theorem witness_StepRunsTheDecodedInstruction_sender :
    nextTurn (sending 6) = .sender ∧ (sending 6).txi < (sending 6).txlen ∧
    load (sending 6).config .txb (sending 6).txb (sending 6).txi = .ok 0x32 ∧
    nextTurn { ringTwo with heldSends := [(4, [])] } = .sender ∧ ringTwo.txlen = 0 :=
  ⟨by decide, by decide, rfl, by decide, rfl⟩

theorem witness_NothingRunsUnrequested :
    ringTwo.turns = [] ∧ ringTwo.requests = [] ∧ ringTwo.batch = [] ∧ ringTwo.txlen = 0 ∧ ringTwo.heldSends = [] ∧
    ringTwo.ph = .idle ∧ ringTwo.heldServices = 0 := by decide

theorem witness_NonStoringInstructionsKeepEveryByte :
    (∃ t, exec .takeByte ringWrap = .next t) ∧ (∃ t, exec .service ringTwo = .next t) ∧
    (∃ t, exec (.dispatch 1 [0x10, 0x20]) ringTwo = .next t) ∧ (∃ t, exec (.transmitOne 1) ringTwo = .next t) ∧
    (∃ t, exec (.pushMany [1]) ringFull = .next t) ∧
    ∃ t, exec (.frameUpdateRunningState [0x10, 0x20] 0x32) scanE1 = .next t :=
  ⟨⟨_, rfl⟩, ⟨_, rfl⟩, ⟨_, rfl⟩, ⟨_, rfl⟩, ⟨_, rfl⟩, ⟨_, rfl⟩⟩

theorem witness_PushStoresOnlyAtWr :
    (∃ t, exec (.push 0x55) ringOne = .next t) ∧ rbFull ringOne = false ∧ ringOne.wr + 1 = ringOne.config.c ∧
    (∃ t, exec (.push 0x44) ringFull = .next t) ∧ rbFull ringFull = true :=
  ⟨⟨_, rfl⟩, by decide, by decide, ⟨_, rfl⟩, by decide⟩

theorem witness_InstructionsChangeOnlyTheirRegisters :
    (∃ t, exec .reset ringTwo = .next t) ∧ (Instr.push 1 ≠ .reset ∧ ∃ t, exec (.push 1) ringTwo = .next t) ∧
    (∃ t, exec (.pushMany [1]) ringTwo = .next t) ∧ (∃ t, exec .hasData ringTwo = .next t) ∧
    (∃ t, exec .takeByte ringTwo = .next t) ∧ (∃ t, exec .service ringTwo = .next t) ∧
    (∃ t, exec (.dispatch 1 []) ringTwo = .next t) ∧ (∃ t, exec (.sendFrame 4 []) ringTwo = .next t) ∧
    (∃ t, exec (.transmitOne 1) ringTwo = .next t) ∧ (∃ t, exec .snapshotRunningState ringTwo = .next t) ∧
    (∃ t, exec .snapshotConfig ringTwo = .next t) ∧
    (LegalFrame scanE1.config (.frameUpdateRunningState [0x10, 0x20] 0x32) 1 [0x10, 0x20] 0x32 ∧
      ∃ t, exec (.frameUpdateRunningState [0x10, 0x20] 0x32) scanE1 = .next t) ∧
    ∃ t, exec (.frameIllegal 9 2) scanE1 = .next t :=
  ⟨⟨_, rfl⟩, ⟨by decide, _, rfl⟩, ⟨_, rfl⟩, ⟨_, rfl⟩, ⟨_, rfl⟩, ⟨_, rfl⟩, ⟨_, rfl⟩, ⟨_, rfl⟩, ⟨_, rfl⟩, ⟨_, rfl⟩,
    ⟨_, rfl⟩, ⟨by decide, _, rfl⟩, ⟨_, rfl⟩⟩

theorem witness_PushStoresOrDrops :
    ringFull.config.wf ∧ CursorsInRange ringFull ∧ rbFull ringFull = true ∧ ringOne.config.wf ∧
    CursorsInRange ringOne ∧ rbFull ringOne = false ∧ occ ringTwo + 2 = ringTwo.config.c ∧
    rbFull ringTwo = false := by decide

theorem witness_PushManyKeepsThePrefixThatFits :
    Inv ringTwo ∧ ringTwo.batch = [] ∧ 2 ≤ [(0x33 : Byte), 0x44].length ∧ Inv ringFull ∧ ringFull.batch = [] ∧
    1 ≤ [(0x44 : Byte)].length ∧ Inv ringEmpty ∧ ringEmpty.batch = [] ∧ 0 ≤ ([] : List Byte).length := by
  and_intros <;> decide

theorem witness_HasDataReportsTheCursors :
    ringFull.config.wf ∧ CursorsInRange ringFull ∧ ringFull.rd ≠ ringFull.wr ∧
    (∃ t, step { ringFull with batch := [0x44] } = .next t ∧ t.rd = ringFull.rd ∧
      ∀ u, fetch { ringFull with batch := [0x44] } ≠ .instr .reset u) ∧
    CursorsInRange ringEmpty ∧ ringEmpty.rd = ringEmpty.wr :=
  ⟨by decide, by decide, by decide, ⟨_, rfl, rfl, fun _ h => nomatch h⟩, by decide, by decide⟩

theorem witness_TakeByteRemovesTheOldest :
    Inv ringWrap ∧ ringWrap.rd ≠ ringWrap.wr ∧ ringWrap.rd + 1 = ringWrap.config.c ∧
    Inv ringEmpty ∧ ringEmpty.rd = ringEmpty.wr := by
  and_intros <;> decide

theorem witness_OccupancyDecidesEmptyAndFull :
    ringEmpty.config.wf ∧ CursorsInRange ringEmpty ∧ occ ringEmpty = 0 ∧ CursorsInRange ringFull ∧
    occ ringFull = ringFull.config.c - 1 ∧ nextAnd (step ringFull) (fun _ => true) = true := by decide

theorem witness_CursorsMoveByOne :
    0 < tcB1.c ∧ 3 < tcB1.c ∧ nextAnd (step { ringOne with batch := [0x55] }) (fun t => t.wr = 0) ∧
    nextAnd (step { ringWrap with requests := [0x04] }) (fun t => t.rd = 0) ∧
    nextAnd (step { ringFull with requests := [0x00] }) (fun t => t.wr = 0) := by decide

theorem witness_FifoIsKept :
    Inv ringOne ∧ Fifo ringOne ∧ nextAnd (step { ringOne with batch := [0x55] }) (fun _ => true) ∧
    Inv ringWrap ∧ Fifo ringWrap ∧ nextAnd (step { ringWrap with requests := [0x04] }) (fun _ => true) := by
  and_intros <;> decide

theorem witness_InvIsKept :
    Inv scanE1 ∧ nextAnd (step scanE1) (fun _ => true) ∧ Inv (sending 6) ∧
    nextAnd (step (sending 6)) (fun _ => true) := by
  and_intros <;> decide

theorem witness_NoStepFaults : Inv scanE1 ∧ Inv ringWrap ∧ Inv (sending 6) := by
  and_intros <;> decide

/-- Two bytes live, and the request stream `bs`. -/
def requesting (bs : List Byte) : State := { ringTwo with requests := bs }

theorem witness_OnlyMalformedRequestsAreRefused :
    (Inv (requesting [0x0B]) ∧ nextTurn (requesting [0x0B]) = .request ∧ 11 ≤ (0x0B : Byte).toNat ∧
      step (requesting [0x0B]) = .refused (.unusedTag 0x0B)) ∧
    (Inv (requesting [0x01]) ∧ decodeOp [0x01] = .error .badOperands ∧
      step (requesting [0x01]) = .refused .badOperands) ∧
    (Inv (requesting [0x08, 0x5A]) ∧ decodeOp [0x08, 0x5A] = .ok (.transmitOne 0x5A, []) ∧
      step (requesting [0x08, 0x5A]) = .refused (.notOffered 0x08)) ∧
    Inv (requesting [0x06, 0x09, 0x00]) ∧ decodeOp [0x06, 0x09, 0x00] = .ok (.dispatch 9 [], []) ∧
      step (requesting [0x06, 0x09, 0x00]) = .refused (.notOffered 0x06) :=
  ⟨⟨by decide, by decide, by decide, rfl⟩, ⟨by decide, rfl, rfl⟩, ⟨by decide, rfl, rfl⟩, by decide, rfl, rfl⟩

theorem witness_CountersCountTheirEvents :
    CountersExact ringOne ∧ nextAnd (step { ringOne with requests := [0x04] }) (fun _ => true) ∧
    CountersExact { State.reset with
      config := { Config.tcA with cntW := 1 }, trace := [.event .underrun 0]
      counters := { Counters.zero with underrun := 1 } } := by decide

/-- A pass that drained three bytes, one of them noise already skipped. -/
def conserved : State :=
  { window [0x00, 0xAA, 0x55] .compact 1 with
    wr := 3, rd := 3, rb := cells [0x00, 0xAA, 0x55], accepted := [0x00, 0xAA, 0x55], taken := [0x00, 0xAA, 0x55]
    trace := [.event .sync 0], counters := { Counters.zero with sync := 1 } }

theorem witness_EveryTakenByteIsAccountedFor :
    Inv conserved ∧ BytesConserved conserved ∧ nextAnd (step conserved) (fun t =>
      BytesConserved t ∧ t.ph = .idle ∧ tookRequested t.trace = 0 ∧ countEvent .underrun t.trace = 0) := by
  and_intros <;> decide

theorem witness_ServiceBeginsOrWaits :
    ringTwo.ph = .idle ∧ scanE1.ph ≠ .idle ∧ ({ ringTwo with heldServices := 1 }).ph = .idle ∧
    ({ ringTwo with heldServices := 1 }).heldServices = 0 + 1 := by decide

/-- The drain phase with room for one more byte. -/
def draining : State := { ringTwo with config := { tcB1 with w := 5 }, sw := cells [1, 2, 3, 4], fill := 4, ph := .drain }

theorem witness_DrainMovesTheOldestByte :
    Inv draining ∧ draining.ph = .drain ∧ draining.fill + 1 = draining.config.w ∧ draining.rd ≠ draining.wr ∧
    Inv { draining with sw := cells [1, 2, 3, 4, 5], fill := 5 } ∧
    Inv { draining with rd := 2 } ∧ ({ draining with rd := 2 }).rd = draining.wr := by
  and_intros <;> decide

theorem witness_GateWaitsForAHeader :
    (window [1, 2, 3] .gate 0).ph = .gate ∧ (window [1, 2, 3] .gate 0).fill < 4 ∧
    (window [1, 2, 3, 4] .gate 0).ph = .gate ∧ 4 ≤ (window [1, 2, 3, 4] .gate 0).fill := by decide

theorem witness_ScanIterationFollowsTheTests_early :
    (Inv (window [0, 0xAA, 0x55, 1] .scan 1) ∧ ((windowBytes (window [0, 0xAA, 0x55, 1] .scan 1)).drop 1).length < 4) ∧
    (Inv (window [0xAA, 0xAA, 0x55, 1] .scan 0) ∧
      windowBytes (window [0xAA, 0xAA, 0x55, 1] .scan 0) = 0xAA :: 0xAA :: 0x55 :: 1 :: []) ∧
    (Inv (window [0xAA, 0x55, 5, 0] .scan 0) ∧ (5 : Byte) ∉ Config.tcA.allow ∧
      windowBytes (window [0xAA, 0x55, 5, 0] .scan 0) = 0xAA :: 0x55 :: 5 :: 0 :: []) ∧
    (Inv (window [0xAA, 0x55, 4, 0x0C] .scan 0) ∧ (4 : Byte) ∈ Config.tcA.allow ∧
      Config.tcA.w < 4 + (0x0C : Byte).toNat + 1) ∧
    (Inv (window [0xAA, 0x55, 4, 0x0B] .scan 0) ∧
      ¬(Config.tcA.forceAdvance = true ∧ Config.tcA.w < 4 + (0x0B : Byte).toNat + 1) ∧
      ([] : List Byte).length < (0x0B : Byte).toNat + 1) := by
  and_intros <;> decide

theorem witness_ScanIterationFollowsTheTests_checksum :
    (Inv scanE1 ∧ scanE1.ph = .scan ∧
      (windowBytes scanE1).drop scanE1.off = 0xAA :: 0x55 :: 1 :: 2 :: ([0x10, 0x20] ++ 0x32 :: []) ∧
      [(0x10 : Byte), 0x20].length = (2 : Byte).toNat ∧ (0x32 : Byte) = sum8 (0xAA :: 0x55 :: 1 :: 2 :: [0x10, 0x20])) ∧
    (Inv (window [0xAA, 0x55, 4, 0, 4] .scan 0) ∧
      windowBytes (window [0xAA, 0x55, 4, 0, 4] .scan 0) = 0xAA :: 0x55 :: 4 :: 0 :: ([] ++ 4 :: []) ∧
      (4 : Byte) ≠ sum8 (0xAA :: 0x55 :: 4 :: 0 :: [])) := by
  and_intros <;> decide

theorem witness_IllegalCodeAdvancesByOne :
    4 ≤ (window [0xAA, 0x55, 5, 0] .scan 0).fill - (window [0xAA, 0x55, 5, 0] .scan 0).off ∧
    (window [0xAA, 0x55, 5, 0] .scan 1).fill - (window [0xAA, 0x55, 5, 0] .scan 1).off < 4 := by decide

theorem witness_UpdateFrameReplacesRun :
    oversize scanE1.config 2 = false ∧ scanE1.off + frameLen 2 ≤ scanE1.fill ∧ 2 = scanE1.config.runSize ∧
    oversize Config.tcA 11 = false ∧ 0 + frameLen 11 ≤ (window (encFrame 1 (List.replicate 11 0)) .scan 0).fill ∧
    11 ≠ Config.tcA.runSize := by decide

theorem witness_ReservedFramesAreConsumed :
    ReservedFrame Config.tcA (.frameConfigUpdate 2 [0x77] 0x79) 2 [0x77] (sum8 (covered 2 [0x77])) ∧
    ReservedFrame Config.tcA (.frameCardList 3 [0x77] 0x7A) 3 [0x77] (sum8 (covered 3 [0x77])) ∧
    ReservedFrame Config.tcA (.frameAlarmRecord 4 [0x77] 0x7B) 4 [0x77] (sum8 (covered 4 [0x77])) ∧
    oversize Config.tcA 1 = false ∧ 0 + frameLen 1 ≤ (window [0xAA, 0x55, 3, 1, 0x77, 0x7A] .scan 0).fill := by decide

theorem witness_BadChecksumSkipsLPlusOne :
    LegalFrame Config.tcA (.frameUpdateRunningState [0x77] 0) 1 [0x77] 0 ∧
    LegalFrame Config.tcA (.frameConfigUpdate 2 [0x77] 0) 2 [0x77] 0 ∧
    LegalFrame Config.tcA (.frameCardList 3 [0x77] 0) 3 [0x77] 0 ∧
    LegalFrame Config.tcA (.frameAlarmRecord 4 [0x77] 0) 4 [0x77] 0 ∧ oversize Config.tcA 1 = false ∧
    0 + frameLen 1 ≤ (window [0xAA, 0x55, 4, 1, 0x77, 0] .scan 0).fill ∧ (0 : Byte) ≠ sum8 (covered 4 [0x77]) := by
  decide

theorem witness_OversizeAdvancesIncompleteWaits :
    LegalFrame Config.tcA (.frameAlarmRecord 4 (List.replicate 12 0) 0) 4 (List.replicate 12 0) 0 ∧
    (window [0xAA, 0x55, 4] .scan 0).fill - (window [0xAA, 0x55, 4] .scan 0).off < 4 ∧
    4 ≤ (window [0xAA, 0x55, 4, 12] .scan 0).fill - (window [0xAA, 0x55, 4, 12] .scan 0).off ∧
    Config.tcA.forceAdvance = true ∧ Config.tcA.w < 4 + (List.replicate 12 (0 : Byte)).length + 1 ∧
    ¬(Config.tcA.w < 4 + (List.replicate 11 (0 : Byte)).length + 1) ∧
    (window [0xAA, 0x55, 4, 11] .scan 0).fill < 0 + 4 + (List.replicate 11 (0 : Byte)).length + 1 := by decide

theorem witness_CompactionMovesTheTail :
    Inv conserved ∧ conserved.ph = .compact ∧ Inv (window [1, 2, 3, 4, 5] .compact 5) ∧
    Inv (window [1, 2, 3, 4, 5] .compact 0) := by
  and_intros <;> decide

theorem witness_PassIsTheBigStepFunction :
    Inv ringTwo ∧ ringTwo.ph = .idle ∧ Inv (window [0xAA, 0x55, 4] .idle 0) ∧ Inv ringEmpty ∧ ringEmpty.ph = .idle := by
  and_intros <;> decide

theorem witness_EncodedFrameIsDispatchedOnce :
    ([] : List Byte).length ≤ 255 ∧ (4 : Byte) ∈ Config.tcA.allow ∧ frameLen ([] : List Byte).length ≤ Config.tcA.w ∧
    (List.replicate 11 (0 : Byte)).length ≤ 255 ∧ frameLen (List.replicate 11 (0 : Byte)).length = Config.tcA.w := by
  decide

theorem witness_NoiseCostsOneSyncEach :
    (∀ b ∈ [(0x00 : Byte), 0x55, 0xA9], b ≠ sync1) ∧ ([] : List Byte).length ≤ 255 ∧ (4 : Byte) ∈ Config.tcA.allow ∧
    frameLen ([] : List Byte).length ≤ Config.tcA.w := by decide

theorem witness_CorruptedPayloadIsRejected :
    ∃ (h : 1 < [(0x10 : Byte), 0x20].length), [(0x10 : Byte), 0x20].length ≤ 255 ∧ (1 : Byte) ∈ Config.tcA.allow ∧
      frameLen [(0x10 : Byte), 0x20].length ≤ Config.tcA.w ∧ (0x21 : Byte) ≠ [(0x10 : Byte), 0x20][1] :=
  ⟨by decide, by decide, by decide, by decide, by decide⟩

/-- V12 after pass 2 (TC-E): the window is full behind a candidate of 17 bytes. -/
def stalled : State :=
  { State.reset with
    config := { Config.tcA with forceAdvance := false }
    sw := cells ([0xAA, 0x55, 2, 0x0C] ++ List.replicate 11 0 ++ [0xAA]), fill := 16 }

theorem witness_OversizeStallsWithoutForceAdvance :
    Inv stalled ∧ stalled.ph = .idle ∧ stalled.config.forceAdvance = false ∧ stalled.fill = stalled.config.w ∧
    windowBytes stalled = sync1 :: sync2 :: 2 :: 0x0C :: (List.replicate 11 0 ++ [0xAA]) ∧
    (2 : Byte) ∈ stalled.config.allow ∧ stalled.config.w < frameLen (0x0C : Byte).toNat := by
  and_intros <;> decide

theorem witness_IdlePassChangesNothing :
    Inv (window [0xAA, 0x55, 1] .idle 0) ∧ (window [0xAA, 0x55, 1] .idle 0).fill < 4 ∧
    Inv (window [0xAA, 0x55, 1, 0] .idle 0) ∧
    windowBytes (window [0xAA, 0x55, 1, 0] .idle 0) = sync1 :: sync2 :: 1 :: 0 :: [] ∧
    (1 : Byte) ∈ Config.tcA.allow ∧ oversize Config.tcA (0 : Byte).toNat = false ∧ 4 < frameLen (0 : Byte).toNat ∧
    State.reset.rd = State.reset.wr := by
  and_intros <;> decide

theorem witness_PassShortensTheRingAndLeavesRoom :
    Inv ringFull ∧ ringFull.ph = .idle ∧ ringFull.config.forceAdvance = true ∧ ringFull.fill < ringFull.config.w ∧
    Inv { draining with ph := .idle } ∧ draining.config.forceAdvance = true ∧ draining.fill + 1 = draining.config.w := by
  and_intros <;> decide

theorem witness_SentFrameIsDispatchedByTheReceiver :
    Inv State.reset ∧ State.reset.txlen = 0 ∧ State.reset.sinkAnswers = [] ∧ State.reset.ph = .idle ∧
    State.reset.rd = State.reset.wr ∧ State.reset.fill = 0 ∧ State.reset.batch = [] ∧
    (1 : Byte) ∈ State.reset.config.allow ∧ frameLen 10 ≤ State.reset.config.w ∧
    frameLen 10 = State.reset.config.c - 1 := by
  and_intros <;> decide

theorem witness_DispatchReplacesRejectsOrIgnores :
    [(1 : Byte), 2].length ≤ 255 ∧ (1 : Byte) = Config.tcA.fcRun ∧ [(1 : Byte), 2].length = Config.tcA.runSize ∧
    longest.length ≤ 255 ∧ [(1 : Byte), 2, 3].length ≠ Config.tcA.runSize ∧ (9 : Byte) ≠ Config.tcA.fcRun ∧
    Inv scanE1 ∧ ∃ t, step scanE1 = .next t ∧ Obs.dispatch 1 2 [0x10, 0x20] ∈ t.trace.drop scanE1.trace.length :=
  ⟨by decide, by decide, by decide, Nat.le_of_eq longest_length, by decide, by decide, by decide, _, rfl,
    by decide⟩

theorem witness_UnpresentableLengthsAreRefused : 255 < tooLong.length := by
  rw [tooLong, List.length_replicate]
  decide

theorem witness_RunIsReplacedWholeCfgNever :
    step scanE1 = .next (frameIteration 1 [0x10, 0x20] 0x32 scanE1) ∧ ∀ u, fetch scanE1 ≠ .instr .reset u :=
  ⟨rfl, fun _ h => nomatch h⟩

theorem witness_BuildPlacesTheFrame :
    longest.length ≤ 255 ∧ ringTwo.txlen = 0 ∧ 4 + longest.length + 1 = 260 ∧ ([] : List Byte).length ≤ 255 :=
  ⟨Nat.le_of_eq longest_length, rfl, by rw [longest_length], by decide⟩

theorem witness_SecondSendWaits :
    longest.length ≤ 255 ∧ (sending 3).txlen ≠ 0 ∧ ({ ringTwo with heldSends := [(4, [])] }).txlen = 0 ∧
    ({ ringTwo with heldSends := [(4, [])] }).heldSends = (4, []) :: [] :=
  ⟨Nat.le_of_eq longest_length, by decide, rfl, rfl⟩

theorem witness_TransmitOneTakesOneAnswer :
    (sending 5).sinkAnswers.headD true = true ∧ (sending 5).txi + 1 < (sending 5).txlen ∧
    (sending 6).txi + 1 = (sending 6).txlen ∧ ({ sending 6 with sinkAnswers := [false] }).sinkAnswers.headD true = false ∧
    (sending 6).txi < (sending 6).txlen ∧ ringTwo.txlen ≤ ringTwo.txi := by decide

theorem witness_SerializerOffersOneByte :
    Inv (sending 5) ∧ (sending 5).txlen ≠ 0 ∧ (sending 5).sinkAnswers.headD true = true ∧
    (sending 5).txi + 1 < (sending 5).txlen ∧ Inv (sending 6) ∧ (sending 6).txi + 1 = (sending 6).txlen ∧
    ({ sending 6 with sinkAnswers := [false] }).sinkAnswers.headD true = false := by
  and_intros <;> decide

theorem witness_SendEmitsTheEncodedFrame :
    ([] : List Byte).length ≤ 255 ∧ ringTwo.txlen = 0 ∧
    (∀ ok ∈ ([true, true, true, true, true, false]).take (frameLen ([] : List Byte).length), ok = true) ∧
    0 < frameLen ([] : List Byte).length ∧ 4 < frameLen ([] : List Byte).length := by decide

theorem witness_SinkFailureCutsTheFrameShort :
    ([] : List Byte).length ≤ 255 ∧ ringTwo.txlen = 0 ∧ 4 < frameLen ([] : List Byte).length ∧
    ([true, true, true, true, false]) = List.replicate 4 true ++ false :: [] ∧
    ([false, true]) = List.replicate 0 true ++ false :: [true] := by decide

theorem witness_ResetLeavesTheResetValues : ringFull.config.wf ∧ { tcB1 with c := 2, w := 5 }.wf := by decide

theorem witness_AgentsWriteOnlyWhatTheyOwn :
    (∃ t, stepTurn .producer { ringTwo with batch := [0x33] } = .next t) ∧
    (∃ t, stepTurn .consumer scanE1 = .next t) ∧ (∃ t, stepTurn .sender (sending 6) = .next t) :=
  ⟨⟨_, rfl⟩, ⟨_, rfl⟩, ⟨_, rfl⟩⟩

theorem witness_IndependentAgentsCommute :
    Inv { conserved with batch := [0x33] } ∧ conserved.ph ≠ .drain ∧ Inv { sending 6 with batch := [0x33] } ∧
    Inv scanE1 ∧ nextAnd (stepTurn .consumer scanE1) (fun _ => true) := by
  and_intros <;> decide

end Sys2Proof.Tests
end

section
/-! PROOFS. The statements of 00_scope.md: what a step runs, which lengths can be presented, and the SINK's answer. -/

namespace Sys2Proof.Machine

/-! ## The turns that fetch an instruction -/

/-- A request turn runs the request at the front of the stream, if an agent can make it (R114). -/
theorem stepTurn_request {s : State} {i : Instr} {rest : List Byte} (hd : decodeOp s.requests = .ok (i, rest))
    (ho : offered i = true) : stepTurn .request s = exec i { s with requests := rest } := by
  rw [stepTurn_eq, takeTurn, requestTurn, hd]
  simp only [ho, if_true]

/-- A producer turn pushes the next byte of the batch (R122). -/
theorem stepTurn_producer_cons {s : State} {b : Byte} {bs : List Byte} (h : s.batch = b :: bs) :
    stepTurn .producer s = exec (.push b) { s with batch := bs } := by
  rw [stepTurn_eq, takeTurn, producerTurn, h]

/-- A consumer turn of the scan runs the candidate decoded from the rest of the window (R33). -/
theorem stepTurn_scan_decoded {s : State} {bs rest : List Byte} {i : Instr} (hp : s.ph = .scan)
    (hw : windowExhausted s = false) (hl : loadRange s.config .sw s.sw s.off (s.fill - s.off) = .ok bs)
    (hd : decodeFrame s.config bs = .ok (i, rest)) : stepTurn .consumer s = exec i s := by
  have hscan : scanTurn s = .instr i s := by
    rw [scanTurn, hw, if_neg Bool.false_ne_true, hl]
    simp only [hd]
  rw [stepTurn_eq, takeTurn, consumerTurn, hp]
  simp only [hscan]

/-- Between passes a consumer turn runs a held SERVICE (R134). -/
theorem stepTurn_heldService {s : State} {n : Nat} (hp : s.ph = .idle) (h : s.heldServices = n + 1) :
    stepTurn .consumer s = exec .service { s with heldServices := n } := by
  rw [stepTurn_eq, takeTurn, consumerTurn, hp, h]

/-- A sender turn of a send runs TRANSMIT_ONE of the byte at TXI (R193). -/
theorem stepTurn_sender_offers {s : State} {b : Byte} (h : s.txi < s.txlen)
    (hl : load s.config .txb s.txb s.txi = .ok b) : stepTurn .sender s = exec (.transmitOne b) s := by
  have hb : txBusy s = true := decide_eq_true (Nat.ne_of_gt (Nat.zero_lt_of_lt h))
  rw [stepTurn_eq, takeTurn, senderTurn, if_pos hb, if_neg (Nat.not_le.2 h), hl]

/-- Between sends a sender turn runs the oldest held SEND_FRAME (R198). -/
theorem stepTurn_heldSend {s : State} {fc : Byte} {p : List Byte} {rest : List (Byte × List Byte)}
    (h : s.txlen = 0) (hs : s.heldSends = (fc, p) :: rest) :
    stepTurn .sender s = exec (.sendFrame fc p) { s with heldSends := rest } := by
  have hb : ¬txBusy s = true := fun hb => of_decide_eq_true hb h
  rw [stepTurn_eq, takeTurn, senderTurn, if_neg hb, hs]

/-- A step is the stated agent's turn, with the turn used up (R10). -/
theorem step_of_nextTurn {s : State} {t : Turn} (h : nextTurn s = t) :
    step s = stepTurn t { s with turns := s.turns.tail } := by
  rw [step_is_turn, h]

/-- Settles O8: the step is the turn of the agent whose turn it is, and one lemma for each kind of turn says what it runs. -/
theorem stepRunsTheDecodedInstruction : Obligations.StepRunsTheDecodedInstruction := by
  intro s
  refine ⟨fun i rest ht hd ho => ?request, fun bs i rest ht hp hw hl hd => ?scan, fun n ht hp hn => ?heldService,
    fun b bs ht hb => ?producer, fun b ht hlt hl => ?sending, fun fc p rest ht hz hs => ?heldSend⟩ <;>
    rw [step_of_nextTurn ht]
  case request => exact stepTurn_request hd ho
  case scan => exact stepTurn_scan_decoded hp hw hl hd
  case heldService => exact stepTurn_heldService hp hn
  case producer => exact stepTurn_producer_cons hb
  case sending => exact stepTurn_sender_offers hlt hl
  case heldSend => exact stepTurn_heldSend hz hs

/-! ## Lengths that cannot be presented -/

/-- A payload of more than 255 bytes has no 8-bit length (R20, R21). -/
theorem payloadFits_eq_false {p : List Byte} (h : 255 < p.length) : payloadFits p = false :=
  decide_eq_false (Nat.not_le.2 h)

/-- Settles O48: both operations test the length before anything else. -/
theorem unpresentableLengthsAreRefused : Obligations.UnpresentableLengthsAreRefused := by
  intro s fc p hp
  have hfit : payloadFits p = false := payloadFits_eq_false hp
  constructor
  · simp [exec, execDispatch, hfit]
  · simp [exec, execSendFrame, hfit]

/-! ## TRANSMIT_ONE and the SINK's answer -/

/-- TRANSMIT_ONE is the serializer's step on its byte (R193). -/
theorem exec_transmitOne (b : Byte) (s : State) : exec (.transmitOne b) s = .next (serializeByte b s) := rfl

/-- The offer uses up one answer and shows it with the byte (R22). -/
theorem transmitOp_of_answer (b : Byte) {s : State} {ok : Bool} (h : sinkAnswer s = ok) :
    transmitOp b s = { s with
      sinkAnswers := s.sinkAnswers.tail, trace := s.trace ++ [.transmit b ok] } := by
  rw [← h]
  rfl

/-- Not enabled, SERIALIZE_STEP makes the offer alone (log 18). -/
theorem serializeByte_of_not_enabled (b : Byte) {s : State} (h : s.txlen ≤ s.txi) :
    serializeByte b s = transmitOp b s := if_pos h

/-- On ok with bytes left TXI moves on (R193). -/
theorem serializeByte_of_ok (b : Byte) {s : State} (ha : sinkAnswer s = true) (h : s.txi + 1 < s.txlen) :
    serializeByte b s = { transmitOp b s with txi := s.txi + 1 } := by
  rw [serializeByte, if_neg (by omega), if_pos ha, if_neg (by omega)]

/-- On ok at the last byte the send ends (R195). -/
theorem serializeByte_of_ok_last (b : Byte) {s : State} (ha : sinkAnswer s = true) (h : s.txi + 1 = s.txlen) :
    serializeByte b s = endSend (transmitOp b s) := by
  rw [serializeByte, if_neg (by omega), if_pos ha, if_pos h]

/-- On not ok the send ends with EV_SINKFAIL (R195). -/
theorem serializeByte_of_not_ok (b : Byte) {s : State} (ha : sinkAnswer s = false) (h : s.txi < s.txlen) :
    serializeByte b s = endSend (emit .sinkFail 0 (transmitOp b s)) := by
  rw [serializeByte, if_neg (by omega), if_neg (by simp [ha])]

/-- Settles O53, by the four outcomes of SERIALIZE_STEP. -/
theorem transmitOneTakesOneAnswer : Obligations.TransmitOneTakesOneAnswer := by
  intro s b
  simp only [exec_transmitOne]
  refine ⟨fun ha h => ?ok, fun ha h => ?last, fun ha h => ?failed, fun h => ?notEnabled⟩
  case ok => rw [serializeByte_of_ok b ha h, transmitOp_of_answer b ha]
  case last => rw [serializeByte_of_ok_last b ha h, transmitOp_of_answer b ha, endSend]
  case failed =>
    rw [serializeByte_of_not_ok b ha h, transmitOp_of_answer b ha]
    simp [endSend, emit, note]
  case notEnabled => rw [serializeByte_of_not_enabled b h, transmitOp_of_answer b rfl, sinkAnswer]

end Sys2Proof.Machine
end

section
/-! PROOFS. What one step can do: the one inversion lemma of `step`, from which the statements of 10_state.md are derived.
A step first uses up what waits (a turn, a request, a byte of the batch, a held request) and then has one of the effects
listed here, faults for one of the reasons listed here, or refuses. -/

namespace Sys2Proof.Machine

/-! ## The ways a step can end -/

/-- Only what waits outside the registers differs, and every new held send has a payload that can be presented. -/
structure SameButWaiting (s u : State) : Prop where
  same : u = { s with
    turns := u.turns, requests := u.requests, batch := u.batch
    heldServices := u.heldServices, heldSends := u.heldSends }
  held : ∀ x ∈ u.heldSends, x ∈ s.heldSends ∨ x.2.length ≤ 255

/-- What a scan iteration leaves: one constructor for each row of the table of R157, with what the row's tests say of the
window. -/
inductive Scanned (s : State) : State → Prop
  | ended : Scanned s (endScan s)
  | endedLatched (fc : Byte) (l : Nat) : Scanned s (endScan (latch fc l s))
  | noMarker (hw : windowExhausted s = false) : Scanned s (rejectSync s)
  | illegalCode (fc : Byte) (hw : windowExhausted s = false) : Scanned s (rejectCode fc s)
  | oversized (fc : Byte) (l : Nat) (hw : windowExhausted s = false) : Scanned s (rejectOversize fc l s)
  | badChecksum (fc : Byte) (p : List Byte) (hc : candidateIncomplete p.length s = false) :
      Scanned s (rejectChecksum p.length (sumUp fc p (latch fc p.length s)))
  | accepted (fc : Byte) (p : List Byte) (hc : candidateIncomplete p.length s = false) :
      Scanned s (acceptFrame fc p (sumUp fc p (latch fc p.length s)))

/-- What a step other than RESET leaves, once it has used up what waited. -/
inductive Effect (s : State) : State → Prop
  | nothing : Effect s s
  | dropped (hf : incC s.config s.wr = s.rd) : Effect s (emit .drop 0 s)
  | stored (b : Byte) (hf : incC s.config s.wr ≠ s.rd) (hw : s.wr < s.config.c) :
      Effect s { s with rb := s.rb.write s.wr b, wr := incC s.config s.wr, accepted := s.accepted ++ [b] }
  | shown (o : Obs)
      (ho : o = .hasData (hasDataFlag s) ∨ o = .snapshotRun s.run ∨ o = .snapshotConfig s.cfg) : Effect s (note o s)
  | took (v : Byte) (hd : s.rd ≠ s.wr) (hv : s.rb.read s.rd = some v) :
      Effect s (note (.tookByte v) { s with rd := incC s.config s.rd, taken := s.taken ++ [v] })
  | underrun (hd : s.rd = s.wr) : Effect s (note (.tookByte 0) (emit .underrun 0 s))
  | passBegun (hp : s.ph = .idle) : Effect s { s with ph := .drain }
  | drained (v : Byte) (hp : s.ph = .drain) (hf : s.fill < s.config.w) (hd : s.rd ≠ s.wr)
      (hv : s.rb.read s.rd = some v) :
      Effect s { s with
        rd := incC s.config s.rd, taken := s.taken ++ [v], sw := s.sw.write s.fill v, fill := s.fill + 1 }
  | drainEnded (hp : s.ph = .drain) : Effect s { s with ph := .gate }
  | gated (hp : s.ph = .gate) : Effect s (gateTurn s)
  | scanned (t : State) (hp : s.ph = .scan) (ht : Scanned s t) : Effect s t
  | compacted (m : Memory) (hp : s.ph = .compact)
      (hm : copyDown s.config .sw s.sw s.off 0 (s.fill - s.off) = .ok m) :
      Effect s { s with sw := m, fill := s.fill - s.off, idx := s.fill - s.off, ph := .idle }
  | built (fc : Byte) (p : List Byte) (m : Memory) (hp : p.length ≤ 255)
      (hm : buildWrites s.config fc p s.txb = .ok m) :
      Effect s { s with txb := m, txlen := frameLen p.length, txi := 0 }
  | offered (b : Byte) (hl : s.txi < s.txlen) : Effect s (serializeByte b s)
  | sendEnded : Effect s (endSend s)

/-- Why a step faults, once it has used up what waited. -/
inductive Stops (s : State) (f : Fault) : Prop
  | push (b : Byte) (h : pushOp b s = .error f)
  | take (hd : s.rd ≠ s.wr) (h : takeOp s = .error f)
  | drain (hf : s.fill < s.config.w) (hd : s.rd ≠ s.wr) (h : drainStep s = .error f)
  | scan (hp : s.ph = .scan) (h : loadRange s.config .sw s.sw s.off (s.fill - s.off) = .error f)
  | compact (hp : s.ph = .compact) (h : compactOp s = .error f)
  | build (fc : Byte) (p : List Byte) (hp : p.length ≤ 255) (h : buildOp fc p s = .error f)
  | offer (hl : s.txi < s.txlen) (h : load s.config .txb s.txb s.txi = .error f)

/-- An answer is a next state that an effect leaves, a fault with its reason, or a refusal. -/
def Explained (s : State) : Answer → Prop
  | .next t => Effect s t
  | .fault f => Stops s f
  | .refused _ => True

/-- The answer is explained at the state in which what waited is used up. -/
def ComesFrom (s : State) (o : Answer) : Prop := ∃ u, SameButWaiting s u ∧ Explained u o

theorem SameButWaiting.refl (s : State) : SameButWaiting s s := ⟨rfl, fun _ => .inl⟩

theorem SameButWaiting.trans {s u v : State} (h1 : SameButWaiting s u) (h2 : SameButWaiting u v) :
    SameButWaiting s v := by
  refine ⟨?_, fun x hx => (h2.held x hx).elim (h1.held x) .inr⟩
  rw [h2.same, h1.same]

theorem Explained.comesFrom {s : State} {o : Answer} (h : Explained s o) : ComesFrom s o :=
  ⟨s, .refl s, h⟩

theorem ComesFrom.of_waiting {s u : State} {o : Answer} (hw : SameButWaiting s u) (h : ComesFrom u o) :
    ComesFrom s o := by
  obtain ⟨v, hv, ho⟩ := h
  exact ⟨v, hw.trans hv, ho⟩

theorem sameButWaiting_turns (s : State) (ts : List Turn) : SameButWaiting s { s with turns := ts } :=
  ⟨rfl, fun _ => .inl⟩

theorem sameButWaiting_requests (s : State) (bs : List Byte) : SameButWaiting s { s with requests := bs } :=
  ⟨rfl, fun _ => .inl⟩

theorem sameButWaiting_batch (s : State) (bs : List Byte) : SameButWaiting s { s with batch := bs } :=
  ⟨rfl, fun _ => .inl⟩

theorem sameButWaiting_heldServices (s : State) (n : Nat) : SameButWaiting s { s with heldServices := n } :=
  ⟨rfl, fun _ => .inl⟩

theorem sameButWaiting_heldSends {s : State} {xs : List (Byte × List Byte)}
    (h : ∀ x ∈ xs, x ∈ s.heldSends ∨ x.2.length ≤ 255) : SameButWaiting s { s with heldSends := xs } :=
  ⟨rfl, h⟩

theorem explained_next {s t : State} (h : Effect s t) : Explained s (.next t) := h

theorem explained_fault {s : State} {f : Fault} (h : Stops s f) : Explained s (.fault f) := h

theorem explained_refused (s : State) (r : Refusal) : Explained s (.refused r) := trivial

/-- A turn that only moves something among what waits. -/
theorem comesFrom_next {s u : State} (hw : SameButWaiting s u) : ComesFrom s (.next u) :=
  ⟨u, hw, .nothing⟩

theorem explained_answerOf {s : State} {r : Except Fault State} (hok : ∀ t, r = .ok t → Effect s t)
    (herr : ∀ f, r = .error f → Stops s f) : Explained s (answerOf r) := by
  cases r with
  | ok t => exact hok t rfl
  | error f => exact herr f rfl

/-! ## The shared operations, by what they answer -/

/-- An accepted PUSH stores at `WR`, inside the ring; a full ring drops (R119, R120). -/
theorem pushOp_effect {b : Byte} {s t : State} (h : pushOp b s = .ok t) : Effect s t := by
  unfold pushOp at h
  split at h
  next hf =>
    cases h
    exact .dropped hf
  next hf =>
    cases hm : store s.config .rb s.rb s.wr b with
    | error f => simp [hm] at h
    | ok m =>
      obtain ⟨hw, rfl⟩ := store_eq_ok.1 hm
      rw [hm] at h
      cases h
      exact .stored b hf hw

/-- A take returns the byte at `RD` and moves `RD` (R126). -/
theorem takeOp_eq_ok {v : Byte} {s t : State} (h : takeOp s = .ok (v, t)) :
    s.rb.read s.rd = some v ∧ t = { s with rd := incC s.config s.rd, taken := s.taken ++ [v] } := by
  unfold takeOp at h
  cases hl : load s.config .rb s.rb s.rd with
  | error f => simp [hl] at h
  | ok w =>
    rw [hl] at h
    cases h
    exact ⟨(load_eq_ok.1 hl).2, rfl⟩

/-- A drain step moves the byte at `RD` to `SW[FILL]` (R136). -/
theorem drainStep_effect {s t : State} (hp : s.ph = .drain) (hf : s.fill < s.config.w) (hd : s.rd ≠ s.wr)
    (h : drainStep s = .ok t) : Effect s t := by
  unfold drainStep at h
  cases ht : takeOp s with
  | error f => simp [ht] at h
  | ok x =>
    obtain ⟨v, u⟩ := x
    obtain ⟨hv, rfl⟩ := takeOp_eq_ok ht
    simp only [ht, store_ok (show s.fill < Space.size s.config .sw from hf)] at h
    cases h
    exact .drained v hp hf hd hv

theorem compactOp_effect {s t : State} (hp : s.ph = .compact) (h : compactOp s = .ok t) : Effect s t := by
  unfold compactOp at h
  cases hm : copyDown s.config .sw s.sw s.off 0 (s.fill - s.off) with
  | error f => simp [hm] at h
  | ok m =>
    rw [hm] at h
    cases h
    exact .compacted m hp hm

theorem buildOp_effect {fc : Byte} {p : List Byte} {s t : State} (hp : p.length ≤ 255)
    (h : buildOp fc p s = .ok t) : Effect s t := by
  unfold buildOp at h
  cases hm : buildWrites s.config fc p s.txb with
  | error f => simp [hm] at h
  | ok m =>
    rw [hm] at h
    cases h
    exact .built fc p m hp hm

/-! ## The instructions that can be requested -/

theorem exec_push_explained (b : Byte) (s : State) : Explained s (exec (.push b) s) :=
  explained_answerOf (fun _ => pushOp_effect) fun _ => .push b

theorem exec_takeByte_explained (s : State) : Explained s (exec .takeByte s) := by
  simp only [exec, execTakeByte]
  split
  next hd => exact explained_next (Effect.underrun hd)
  next hd =>
    cases ht : takeOp s with
    | error f => exact explained_fault (Stops.take hd ht)
    | ok x =>
      obtain ⟨v, u⟩ := x
      obtain ⟨hv, rfl⟩ := takeOp_eq_ok ht
      exact explained_next (Effect.took v hd hv)

/-- SERVICE begins a pass, or is counted (R133, R134). -/
theorem exec_service_comesFrom (s : State) : ComesFrom s (exec .service s) := by
  simp only [exec, execService]
  split
  next hp => exact (explained_next (Effect.passBegun hp)).comesFrom
  next => exact comesFrom_next (sameButWaiting_heldServices s _)

/-- SEND_FRAME builds, is queued, or is refused (R186, R198, R21). -/
theorem exec_sendFrame_comesFrom (fc : Byte) (p : List Byte) (s : State) : ComesFrom s (exec (.sendFrame fc p) s) := by
  simp only [exec, execSendFrame]
  split
  next hfit =>
    have hp : p.length ≤ 255 := of_decide_eq_true hfit
    split
    next =>
      refine comesFrom_next (sameButWaiting_heldSends fun x hx => ?_)
      rcases List.mem_append.1 hx with hx | hx
      · exact .inl hx
      · exact .inr (List.mem_singleton.1 hx ▸ hp)
    next => exact (explained_answerOf (fun _ => buildOp_effect hp) fun _ => .build fc p hp).comesFrom
  next => exact (explained_refused _ _).comesFrom

/-- Every operation that can be requested, but RESET. -/
theorem exec_offered_comesFrom {i : Instr} (s : State) (ho : offered i = true) (hr : i ≠ .reset) :
    ComesFrom s (exec i s) := by
  cases i with
  | reset => exact absurd rfl hr
  | push b => exact (exec_push_explained b s).comesFrom
  | pushMany bytes => exact comesFrom_next (sameButWaiting_batch s _)
  | hasData => exact (explained_next (Effect.shown _ (.inl rfl))).comesFrom
  | takeByte => exact (exec_takeByte_explained s).comesFrom
  | service => exact exec_service_comesFrom s
  | sendFrame fc p => exact exec_sendFrame_comesFrom fc p s
  | snapshotRunningState => exact (explained_next (Effect.shown _ (.inr (.inl rfl)))).comesFrom
  | snapshotConfig => exact (explained_next (Effect.shown _ (.inr (.inr rfl)))).comesFrom
  | dispatch | transmitOne | frameUpdateRunningState | frameConfigUpdate | frameCardList | frameAlarmRecord
  | frameIllegal => cases ho

/-! ## The scan iteration -/

theorem frameIteration_scanned (fc : Byte) (p : List Byte) (cks : Byte) (s : State) :
    Scanned s (frameIteration fc p cks s) := by
  rcases frameIteration_cases fc p cks s with ⟨-, h⟩ | ⟨hw, -, h⟩ | ⟨hw, -, -, h⟩ | ⟨-, -, -, -, h⟩ |
    ⟨-, -, -, hc, -, h⟩ | ⟨-, -, -, hc, -, h⟩ <;> rw [h]
  · exact .ended
  · exact .illegalCode fc hw
  · exact .oversized fc _ hw
  · exact .endedLatched fc _
  · exact .accepted fc p hc
  · exact .badChecksum fc p hc

/-- A decoded candidate is an illegal header or a frame of its code's class (R106, R140). -/
theorem decodeFrame_eq_ok {k : Config} {bs rest : List Byte} {i : Instr} (h : decodeFrame k bs = .ok (i, rest)) :
    (∃ fc len, i = .frameIllegal fc len) ∨ ∃ fc p cks, k.classOf fc ≠ .illegal ∧ i = frameOf k fc p cks := by
  unfold decodeFrame at h
  split at h
  next b0 b1 fc len body =>
    split at h
    next =>
      split at h
      next =>
        cases h
        exact .inl ⟨fc, len, rfl⟩
      next hc =>
        split at h
        next p cks rest' ht =>
          cases h
          exact .inr ⟨fc, p, cks, hc, rfl⟩
        next => cases h
    next => cases h
  next => cases h

/-- Running a decoded candidate is a scan iteration. -/
theorem exec_decoded_frame {s : State} {bs rest : List Byte} {i : Instr}
    (h : decodeFrame s.config bs = .ok (i, rest)) : ∃ t, exec i s = .next t ∧ Scanned s t := by
  rcases decodeFrame_eq_ok h with ⟨fc, len, rfl⟩ | ⟨fc, p, cks, hc, rfl⟩
  · cases hw : windowExhausted s
    · exact ⟨_, by simp [exec, execFrameIllegal, hw], .illegalCode fc hw⟩
    · exact ⟨_, by simp [exec, execFrameIllegal, hw], .ended⟩
  · exact ⟨_, exec_frameOf p cks rfl hc, frameIteration_scanned fc p cks s⟩

/-! ## The turns -/

/-- What a fetched turn answers; `step` and `stepTurn` are this at their own fetch. -/
def Fetched.answer : Fetched → Answer
  | .instr i s => exec i s
  | .done o => o

theorem step_eq_answer (s : State) : step s = (fetch s).answer := by
  rw [step_eq]
  cases fetch s <;> rfl

/-- What the scan turn makes of the decoder's answer. -/
def scanDecoded (s : State) : Except DecodeError (Instr × List Byte) → Fetched
  | .ok (i, _) => .instr i s
  | .error (.incomplete fc len) =>
    if oversize s.config len.toNat then .done (.next (rejectOversize fc len.toNat s))
    else .done (.next (endScan (latch fc len.toNat s)))
  | .error .noMarker => .done (.next (rejectSync s))
  | .error _ => .done (.next (endScan s))

theorem scanTurn_eq_scanDecoded {s : State} {bs : List Byte} (hw : windowExhausted s = false)
    (hl : loadRange s.config .sw s.sw s.off (s.fill - s.off) = .ok bs) :
    scanTurn s = scanDecoded s (decodeFrame s.config bs) := by
  rw [scanTurn, hw, if_neg Bool.false_ne_true, hl]
  rfl

/-- Once the window's rest is read, the candidate runs or the fetch ends the iteration. -/
theorem scanDecoded_scanned {s : State} {r : Except DecodeError (Instr × List Byte)}
    (hw : windowExhausted s = false) (hr : ∀ i rest, r = .ok (i, rest) → ∃ t, exec i s = .next t ∧ Scanned s t) :
    ∃ t, (scanDecoded s r).answer = .next t ∧ Scanned s t := by
  cases r with
  | ok x => exact hr x.1 x.2 rfl
  | error e =>
    cases e with
    | incomplete fc len =>
      by_cases ho : oversize s.config len.toNat = true
      · exact ⟨_, congrArg Fetched.answer (if_pos ho), .oversized fc _ hw⟩
      · exact ⟨_, congrArg Fetched.answer (if_neg ho), .endedLatched fc _⟩
    | noMarker => exact ⟨_, rfl, .noMarker hw⟩
    | noBytes | unusedTag | badOperands | shortHeader => exact ⟨_, rfl, .ended⟩

theorem scanTurn_explained {s : State} (hp : s.ph = .scan) : Explained s (scanTurn s).answer := by
  cases hw : windowExhausted s with
  | true =>
    rw [scanTurn, if_pos hw]
    exact explained_next (.scanned _ hp .ended)
  | false =>
    cases hl : loadRange s.config .sw s.sw s.off (s.fill - s.off) with
    | ok bs =>
      obtain ⟨t, ht, hs⟩ := scanDecoded_scanned hw fun i rest => exec_decoded_frame (s := s) (bs := bs)
      rw [scanTurn_eq_scanDecoded hw hl, ht]
      exact explained_next (.scanned t hp hs)
    | error f =>
      rw [scanTurn, hw, if_neg Bool.false_ne_true, hl]
      exact explained_fault (.scan hp hl)

theorem drainTurn_explained {s : State} (hp : s.ph = .drain) : Explained s (answerOf (drainTurn s)) := by
  unfold drainTurn
  split
  next h =>
    have hd : s.rd ≠ s.wr := of_decide_eq_true h.2
    exact explained_answerOf (fun _ => drainStep_effect hp h.1 hd) fun _ => .drain h.1 hd
  next => exact explained_next (Effect.drainEnded hp)

theorem consumerTurn_comesFrom (s : State) : ComesFrom s (consumerTurn s).answer := by
  unfold consumerTurn
  split
  next hp =>
    split
    next => exact comesFrom_next (.refl s)
    next n hn => exact .of_waiting (sameButWaiting_heldServices s n) (exec_service_comesFrom _)
  next hp => exact (drainTurn_explained hp).comesFrom
  next hp => exact (explained_next (Effect.gated hp)).comesFrom
  next hp => exact (scanTurn_explained hp).comesFrom
  next hp => exact (explained_answerOf (fun _ => compactOp_effect hp) fun _ => .compact hp).comesFrom

theorem senderTurn_comesFrom (s : State) : ComesFrom s (senderTurn s).answer := by
  unfold senderTurn
  split
  next =>
    split
    next => exact (explained_next Effect.sendEnded).comesFrom
    next hl =>
      have hl : s.txi < s.txlen := Nat.lt_of_not_le hl
      split
      next f hf => exact (explained_fault (Stops.offer hl hf)).comesFrom
      next b hb => exact (explained_next (Effect.offered b hl)).comesFrom
  next =>
    split
    next => exact comesFrom_next (.refl s)
    next fc p rest hs =>
      have hw : SameButWaiting s { s with heldSends := rest } :=
        sameButWaiting_heldSends fun x hx => .inl (hs ▸ List.mem_cons_of_mem _ hx)
      exact .of_waiting hw (exec_sendFrame_comesFrom fc p _)

theorem producerTurn_comesFrom (s : State) : ComesFrom s (producerTurn s).answer := by
  unfold producerTurn
  split
  next => exact comesFrom_next (.refl s)
  next b bs hb => exact .of_waiting (sameButWaiting_batch s bs) (exec_push_explained b _).comesFrom

/-- A request turn issues RESET, or its answer is explained. -/
theorem requestTurn_comesFrom (s : State) :
    (∃ u, requestTurn s = .instr .reset u ∧ SameButWaiting s u) ∨ ComesFrom s (requestTurn s).answer := by
  rcases requestTurn_cases s with ⟨i, rest, -, ho, h⟩ | ⟨_, _, -, -, h⟩ | ⟨-, h⟩ | ⟨_, -, h⟩ | ⟨_, -, -, -, h⟩ <;>
    rw [h]
  · by_cases hr : i = .reset
    · subst hr
      exact .inl ⟨_, rfl, sameButWaiting_requests s rest⟩
    · exact .inr (.of_waiting (sameButWaiting_requests s rest) (exec_offered_comesFrom _ ho hr))
  · exact .inr ((explained_refused _ _).comesFrom)
  · exact .inr (comesFrom_next (.refl s))
  · exact .inr ((explained_refused _ _).comesFrom)
  · exact .inr ((explained_refused _ _).comesFrom)

/-- Everything a step can do: it is RESET, or its answer is explained. -/
theorem step_cases (s : State) :
    (∃ u, fetch s = .instr .reset u ∧ SameButWaiting s u) ∨ ComesFrom s (step s) := by
  have hw : SameButWaiting s { s with turns := s.turns.tail } := sameButWaiting_turns s _
  have hturn : (∃ u, fetch s = .instr .reset u ∧ SameButWaiting { s with turns := s.turns.tail } u) ∨
      ComesFrom { s with turns := s.turns.tail } (fetch s).answer := by
    unfold fetch
    cases nextTurn s with
    | request => exact requestTurn_comesFrom _
    | producer => exact .inr (producerTurn_comesFrom _)
    | consumer => exact .inr (consumerTurn_comesFrom _)
    | sender => exact .inr (senderTurn_comesFrom _)
  rw [step_eq_answer]
  exact hturn.imp (fun ⟨u, hf, hu⟩ => ⟨u, hf, hw.trans hu⟩) (.of_waiting hw)

/-- A step with a next state is RESET, or has one of the effects. -/
theorem step_next_cases {s t : State} (h : step s = .next t) :
    ∃ u, SameButWaiting s u ∧ (fetch s = .instr .reset u ∧ t = resetOp u ∨ Effect u t) := by
  rcases step_cases s with ⟨u, hf, hu⟩ | ⟨u, hu, he⟩
  · rw [step_eq, hf] at h
    cases h
    exact ⟨u, hu, .inl ⟨hf, rfl⟩⟩
  · rw [h] at he
    exact ⟨u, hu, .inr he⟩

/-- A step that faults does so for one of the reasons. -/
theorem step_fault_cases {s : State} {f : Fault} (h : step s = .fault f) : ∃ u, SameButWaiting s u ∧ Stops u f := by
  rcases step_cases s with ⟨u, hf, -⟩ | ⟨u, hu, he⟩
  · rw [step_eq, hf] at h
    cases h
  · rw [h] at he
    exact ⟨u, hu, he⟩

end Sys2Proof.Machine
end

section
/-! PROOFS. What an effect does to each part of the state: the records, counters and trace; the ring; the window; the
builder. Each part has one lemma over the effects, and each statement of 10_state.md takes the parts it speaks of. -/

namespace Sys2Proof.Machine

/-! ## Records, counters and trace -/

/-- `t` is `s` after the observations `os`: they stand behind the trace, each event has bumped its counter and RUN is what
the dispatches left; a dispatch shows the length of its payload. -/
structure Shows (s t : State) (os : List Obs) : Prop where
  config : t.config = s.config
  cfg : t.cfg = s.cfg
  trace : t.trace = s.trace ++ os
  counters : t.counters = countersAfter s.config s.counters os
  run : t.run = runAfter s.config s.run os
  lengths : ∀ fc l p, .dispatch fc l p ∈ os → l = p.length

theorem countersAfter_append (k : Config) (c : Counters) (xs ys : List Obs) :
    countersAfter k c (xs ++ ys) = countersAfter k (countersAfter k c xs) ys := List.foldl_append

theorem runAfter_append (k : Config) (r : List Byte) (xs ys : List Obs) :
    runAfter k r (xs ++ ys) = runAfter k (runAfter k r xs) ys := List.foldl_append

theorem countersAfter_event (k : Config) (c : Counters) (e : Event) (l : Nat) (os : List Obs) :
    countersAfter k c (.event e l :: os) = countersAfter k (c.bump k e) os := rfl

theorem countersAfter_of_not_event (k : Config) (c : Counters) {o : Obs} (ho : o.isEvent = false) (os : List Obs) :
    countersAfter k c (o :: os) = countersAfter k c os := by
  cases o with
  | event e l => cases ho
  | dispatch | transmit | hasData | tookByte | snapshotRun | snapshotConfig => rfl

theorem Shows.trans {s t u : State} {xs ys : List Obs} (h1 : Shows s t xs) (h2 : Shows t u ys) :
    Shows s u (xs ++ ys) where
  config := h2.config.trans h1.config
  cfg := h2.cfg.trans h1.cfg
  trace := by rw [h2.trace, h1.trace, List.append_assoc]
  counters := by rw [countersAfter_append, h2.counters, h1.counters, h1.config]
  run := by rw [runAfter_append, h2.run, h1.run, h1.config]
  lengths fc l p h := (List.mem_append.1 h).elim (h1.lengths fc l p) (h2.lengths fc l p)

/-- A change of other registers shows nothing. -/
theorem shows_nil {s t : State} (hk : t.config = s.config) (hc : t.cfg = s.cfg) (ht : t.trace = s.trace)
    (hn : t.counters = s.counters) (hr : t.run = s.run) : Shows s t [] :=
  ⟨hk, hc, by rw [ht, List.append_nil], hn, hr, nofun⟩

theorem SameButWaiting.shows {s u : State} (h : SameButWaiting s u) : Shows s u [] := by
  rw [h.same]
  exact shows_nil rfl rfl rfl rfl rfl

/-- An emitted event, whatever other registers change with it. -/
theorem shows_event {s t : State} (e : Event) (l : Nat) (hk : t.config = s.config) (hc : t.cfg = s.cfg)
    (ht : t.trace = s.trace ++ [.event e l]) (hn : t.counters = s.counters.bump s.config e) (hr : t.run = s.run) :
    Shows s t [.event e l] :=
  ⟨hk, hc, ht, hn, hr, by simp⟩

/-- A result shown at a port is neither an event nor a dispatch. -/
theorem shows_result {s t : State} {o : Obs} (he : o.isEvent = false) (hd : ∀ fc l p, o ≠ .dispatch fc l p)
    (hk : t.config = s.config) (hc : t.cfg = s.cfg) (ht : t.trace = s.trace ++ [o]) (hn : t.counters = s.counters)
    (hr : t.run = s.run) : Shows s t [o] where
  config := hk
  cfg := hc
  trace := ht
  counters := hn.trans (countersAfter_of_not_event _ _ he []).symm
  run := by
    cases o with
    | dispatch fc l p => exact absurd rfl (hd fc l p)
    | event | transmit | hasData | tookByte | snapshotRun | snapshotConfig => exact hr
  lengths fc l p h := absurd (List.mem_singleton.1 h).symm (hd fc l p)

theorem dispatchOp_config (fc : Byte) (p : List Byte) (s : State) : (dispatchOp fc p s).config = s.config := by
  rw [dispatchOp_frame]

theorem dispatchOp_cfg (fc : Byte) (p : List Byte) (s : State) : (dispatchOp fc p s).cfg = s.cfg := by
  rw [dispatchOp_frame]

/-- DISPATCH shows what R168 says, and leaves RUN and the counters as it says (R171 to R173). -/
theorem shows_dispatchOp (fc : Byte) (p : List Byte) (s : State) :
    Shows s (dispatchOp fc p s) (dispatchObs s.config fc p) where
  config := dispatchOp_config fc p s
  cfg := dispatchOp_cfg fc p s
  trace := dispatchOp_trace fc p s
  counters := by
    rw [dispatchOp_eq, dispatchObs]
    split
    · split <;> rfl
    · rfl
  run := by
    rw [dispatchOp_eq, dispatchObs]
    by_cases hf : fc = s.config.fcRun
    · by_cases hl : p.length = s.config.runSize <;> simp [hf, hl, runAfter]
    · simp [hf, runAfter]
  lengths fc' l p' h := by
    rcases List.mem_cons.1 h with h | h
    · cases h
      rfl
    · split at h
      · split at h <;> simp at h
      · simp at h

/-- What a scan iteration shows is an event, for an accepted frame followed by its dispatch. -/
theorem Scanned.shows {s t : State} (h : Scanned s t) : ∃ os, Shows s t os := by
  cases h with
  | ended => exact ⟨[], shows_nil rfl rfl rfl rfl rfl⟩
  | endedLatched fc l => exact ⟨[], shows_nil rfl rfl rfl rfl rfl⟩
  | noMarker => exact ⟨_, shows_event .sync 0 rfl rfl rfl rfl rfl⟩
  | illegalCode => exact ⟨_, shows_event .fc 0 rfl rfl rfl rfl rfl⟩
  | oversized fc l => exact ⟨_, shows_event .oversize l rfl rfl rfl rfl rfl⟩
  | badChecksum fc p => exact ⟨_, shows_event .cks p.length rfl rfl rfl rfl rfl⟩
  | accepted fc p =>
    have hframe : Shows s (emit .frame p.length (sumUp fc p (latch fc p.length s))) [.event .frame p.length] :=
      shows_event _ _ rfl rfl rfl rfl rfl
    exact ⟨_, (hframe.trans (shows_dispatchOp fc p _)).trans (shows_nil rfl rfl rfl rfl rfl)⟩

theorem shows_transmitOp (b : Byte) (s : State) : Shows s (transmitOp b s) [.transmit b (sinkAnswer s)] :=
  shows_result rfl (by simp) rfl rfl rfl rfl rfl

theorem shows_serializeByte (b : Byte) (s : State) : ∃ os, Shows s (serializeByte b s) os := by
  have hoffer := shows_transmitOp b s
  rcases serializeByte_cases b s with ⟨-, h⟩ | ⟨-, -, -, h⟩ | ⟨-, -, -, h⟩ | ⟨-, -, h⟩ <;> rw [h]
  · exact ⟨_, hoffer⟩
  · exact ⟨_, hoffer.trans (shows_nil rfl rfl rfl rfl rfl)⟩
  · exact ⟨_, hoffer.trans (shows_nil rfl rfl rfl rfl rfl)⟩
  · exact ⟨_, hoffer.trans (shows_event .sinkFail 0 rfl rfl rfl rfl rfl)⟩

/-- Every effect leaves what the observations it shows say. -/
theorem Effect.shows {s t : State} (h : Effect s t) : ∃ os, Shows s t os := by
  cases h with
  | dropped => exact ⟨_, shows_event .drop 0 rfl rfl rfl rfl rfl⟩
  | shown o ho =>
    obtain rfl | rfl | rfl := ho <;> exact ⟨_, shows_result rfl (by simp) rfl rfl rfl rfl rfl⟩
  | took v => exact ⟨_, shows_result rfl (by simp) rfl rfl rfl rfl rfl⟩
  | underrun =>
    have hev : Shows s (emit .underrun 0 s) [.event .underrun 0] := shows_event _ _ rfl rfl rfl rfl rfl
    exact ⟨_, hev.trans (shows_result rfl (by simp) rfl rfl rfl rfl rfl)⟩
  | gated =>
    unfold gateTurn
    split <;> exact ⟨[], shows_nil rfl rfl rfl rfl rfl⟩
  | scanned t hp ht => exact ht.shows
  | offered b => exact shows_serializeByte b s
  | nothing | stored | passBegun | drained | drainEnded | compacted | built | sendEnded =>
    exact ⟨[], shows_nil rfl rfl rfl rfl rfl⟩

/-- A step other than RESET leaves what the observations it shows say. -/
theorem step_shows {s t : State} (h : step s = .next t) :
    (∃ u, fetch s = .instr .reset u ∧ t = resetOp u) ∨ ∃ os, Shows s t os := by
  obtain ⟨u, hu, ⟨hf, rfl⟩ | he⟩ := step_next_cases h
  · exact .inl ⟨u, hf, rfl⟩
  · obtain ⟨os, hos⟩ := he.shows
    exact .inr ⟨_, hu.shows.trans hos⟩

/-- RUN after observations is what it was, or the payload of a dispatch among them with the handled code and RUN's size. -/
theorem runAfter_cases (k : Config) (os : List Obs) (r : List Byte) :
    runAfter k r os = r ∨ .dispatch k.fcRun k.runSize (runAfter k r os) ∈ os := by
  induction os generalizing r with
  | nil => exact .inl rfl
  | cons o os ih =>
    cases o with
    | dispatch fc l p =>
      by_cases hd : fc = k.fcRun ∧ l = k.runSize
      · obtain ⟨rfl, rfl⟩ := hd
        have hr : runAfter k r (.dispatch k.fcRun k.runSize p :: os) = runAfter k p os := by simp [runAfter]
        rw [hr]
        rcases ih p with h | h
        · exact .inr (h.symm ▸ List.mem_cons_self)
        · exact .inr (List.mem_cons_of_mem _ h)
      · have hr : runAfter k r (.dispatch fc l p :: os) = runAfter k r os := by simp [runAfter, hd]
        rw [hr]
        exact (ih r).imp_right (List.mem_cons_of_mem _)
    | event | transmit | hasData | tookByte | snapshotRun | snapshotConfig =>
      exact (ih r).imp_right (List.mem_cons_of_mem _)

/-- RUN is kept or replaced whole by the payload of a dispatch that was shown. -/
theorem Shows.run_cases {s t : State} {os : List Obs} (h : Shows s t os) :
    t.run = s.run ∨ t.run.length = s.config.runSize ∧ .dispatch s.config.fcRun s.config.runSize t.run ∈ os := by
  rw [h.run]
  exact (runAfter_cases s.config os s.run).imp_right fun hd => ⟨(h.lengths _ _ _ hd).symm, hd⟩

@[simp] theorem countEvent_nil (e : Event) : countEvent e [] = 0 := rfl

theorem countEvent_append (e : Event) (xs ys : List Obs) :
    countEvent e (xs ++ ys) = countEvent e xs + countEvent e ys := by
  simp only [countEvent, List.filter_append, List.length_append]

theorem countEvent_event (e e' : Event) (l : Nat) (os : List Obs) :
    countEvent e (.event e' l :: os) = countEvent e os + if e = e' then 1 else 0 := by
  by_cases h : e = e'
  · simp [countEvent, h]
  · simp [countEvent, h, Ne.symm h]

theorem countEvent_of_not_event (e : Event) {o : Obs} (ho : o.isEvent = false) (os : List Obs) :
    countEvent e (o :: os) = countEvent e os := by
  cases o with
  | event e l => cases ho
  | dispatch | transmit | hasData | tookByte | snapshotRun | snapshotConfig => rfl

/-- A counter that holds a count modulo `2 ^ CNT_W` goes on counting so. -/
theorem get_countersAfter (k : Config) (e : Event) (os : List Obs) (c : Counters) (n : Nat)
    (h : c.get e = n % 2 ^ k.cntW) : (countersAfter k c os).get e = (n + countEvent e os) % 2 ^ k.cntW := by
  induction os generalizing c n with
  | nil => exact h
  | cons o os ih =>
    cases ho : o.isEvent with
    | true =>
      cases o with
      | event e' l =>
        rw [countersAfter_event, countEvent_event]
        by_cases he : e = e'
        · have hb : (c.bump k e').get e = (n + 1) % 2 ^ k.cntW := by
            rw [Counters.get_bump, if_pos he, ← he, h, Nat.mod_add_mod]
          rw [ih _ _ hb, if_pos he, Nat.add_right_comm, Nat.add_assoc]
        · have hb : (c.bump k e').get e = n % 2 ^ k.cntW := by rw [Counters.get_bump, if_neg he, h]
          rw [ih _ _ hb, if_neg he, Nat.add_zero]
      | dispatch | transmit | hasData | tookByte | snapshotRun | snapshotConfig => cases ho
    | false => rw [countersAfter_of_not_event k c ho, countEvent_of_not_event e ho, ih c n h]

/-- A counter below `2 ^ CNT_W` stays below. -/
theorem get_countersAfter_lt {k : Config} {e : Event} {c : Counters} (os : List Obs) (h : c.get e < 2 ^ k.cntW) :
    (countersAfter k c os).get e < 2 ^ k.cntW := by
  rw [get_countersAfter k e os c _ (Nat.mod_eq_of_lt h).symm]
  exact Nat.mod_lt _ (Nat.two_pow_pos _)

end Sys2Proof.Machine
end

section
/-! PROOFS. What an effect does to the ring, to the window and to the builder, and what RESET leaves. -/

namespace Sys2Proof.Machine

/-- A scan iteration changes the scanner's registers, RUN, the counters and the trace, and nothing else (R67). -/
theorem Scanned.frame {s t : State} (h : Scanned s t) : t = { s with
    off := t.off, ph := t.ph, fcLatch := t.fcLatch, lLatch := t.lLatch, sum := t.sum, idx := t.idx
    run := t.run, counters := t.counters, trace := t.trace } := by
  cases h with
  | accepted fc p =>
    rw [acceptFrame, dispatchOp_frame]
    rfl
  | ended | endedLatched | noMarker | illegalCode | oversized | badChecksum => rfl

theorem Effect.heldSends {s t : State} (h : Effect s t) : t.heldSends = s.heldSends := by
  cases h with
  | gated =>
    unfold gateTurn
    split <;> rfl
  | scanned t hp ht => rw [ht.frame]
  | offered b => rw [serializeByte_frame]
  | nothing | dropped | stored | shown | took | underrun | passBegun | drained | drainEnded | compacted | built
  | sendEnded => rfl

/-! ## The ring -/

/-- The two states have the same ring: configuration, slots, cursors and ghost sequences. -/
structure SameRing (s t : State) : Prop where
  config : t.config = s.config
  rb : t.rb = s.rb
  wr : t.wr = s.wr
  rd : t.rd = s.rd
  accepted : t.accepted = s.accepted
  taken : t.taken = s.taken

/-- What one step other than RESET can do to the ring (R117, R119, R126). -/
inductive RingMove (s t : State) : Prop
  | stays (h : SameRing s t)
  | pushed (b : Byte) (hf : incC s.config s.wr ≠ s.rd)
      (h : SameRing { s with
        rb := s.rb.write s.wr b, wr := incC s.config s.wr, accepted := s.accepted ++ [b] } t)
  | taken (v : Byte) (hd : s.rd ≠ s.wr) (hv : s.rb.read s.rd = some v)
      (h : SameRing { s with rd := incC s.config s.rd, taken := s.taken ++ [v] } t)

theorem Effect.ringMove {s t : State} (h : Effect s t) : RingMove s t := by
  cases h with
  | stored b hf => exact .pushed b hf ⟨rfl, rfl, rfl, rfl, rfl, rfl⟩
  | took v hd hv => exact .taken v hd hv ⟨rfl, rfl, rfl, rfl, rfl, rfl⟩
  | drained v _ _ hd hv => exact .taken v hd hv ⟨rfl, rfl, rfl, rfl, rfl, rfl⟩
  | gated =>
    unfold gateTurn
    split <;> exact .stays ⟨rfl, rfl, rfl, rfl, rfl, rfl⟩
  | scanned t hp ht =>
    rw [ht.frame]
    exact .stays ⟨rfl, rfl, rfl, rfl, rfl, rfl⟩
  | offered b =>
    rw [serializeByte_frame]
    exact .stays ⟨rfl, rfl, rfl, rfl, rfl, rfl⟩
  | nothing | dropped | shown | underrun | passBegun | drainEnded | compacted | built | sendEnded =>
    exact .stays ⟨rfl, rfl, rfl, rfl, rfl, rfl⟩

theorem SameRing.occ {s t : State} (h : SameRing s t) : Machine.occ t = Machine.occ s := by
  rw [Machine.occ, Machine.occ, h.config, h.wr, h.rd]

theorem SameRing.ringInv {s t : State} (h : SameRing s t) (hs : RingInv s) : RingInv t := by
  simpa only [RingInv, CursorsInRange, h.occ, h.config, h.rb, h.wr, h.rd] using hs

theorem SameRing.fifo {s t : State} (h : SameRing s t) (hs : Fifo s) : Fifo t := by
  simpa only [Fifo, liveBytes_congr h.config h.rb h.wr h.rd, h.config, h.wr, h.rd, h.accepted, h.taken] using hs

/-- The slot after `RD`, counted from the next `RD`. -/
theorem slot_after_rd {s : State} (h : CursorsInRange s) (j : Nat) :
    (incC s.config s.rd + j) % s.config.c = (s.rd + (j + 1)) % s.config.c := by
  rw [incC_eq_mod h.1, Nat.mod_add_mod, Nat.add_assoc, Nat.add_comm 1]

/-- An accepted PUSH writes the slot that becomes live. -/
theorem ringInv_push {s : State} (b : Byte) (a : List Byte) (h : RingInv s) (hf : incC s.config s.wr ≠ s.rd) :
    RingInv { s with rb := s.rb.write s.wr b, wr := incC s.config s.wr, accepted := a } := by
  obtain ⟨hc, hwf, hbd, hlive⟩ := h
  refine ⟨⟨hc.1, incC_lt hc.2⟩, Memory.wf_write hwf _ _, Memory.bounded_write hbd hc.2 _, fun j hj => ?_⟩
  rw [occ_push _ _ hc hf] at hj
  simp only [Memory.read_write]
  split
  next => rfl
  next hne =>
    have hlast : j ≠ occ s := fun he => hne (he ▸ (wr_eq hc).symm)
    exact hlive j (by omega)

/-- A take leaves the later live slots. -/
theorem ringInv_take {s : State} (a : List Byte) (h : RingInv s) (hd : s.rd ≠ s.wr) :
    RingInv { s with rd := incC s.config s.rd, taken := a } := by
  obtain ⟨hc, hwf, hbd, hlive⟩ := h
  refine ⟨⟨incC_lt hc.1, hc.2⟩, hwf, hbd, fun j hj => ?_⟩
  have hocc := occ_take a hc hd
  simp only [slot_after_rd hc]
  exact hlive (j + 1) (by omega)

theorem RingMove.ringInv {s t : State} (h : RingMove s t) (hs : RingInv s) : RingInv t := by
  cases h with
  | stays h => exact h.ringInv hs
  | pushed b hf h => exact h.ringInv (ringInv_push b _ hs hf)
  | taken v hd _ h => exact h.ringInv (ringInv_take _ hs hd)

/-- The cursor that stands at a count modulo `C` moves on with the count (R29). -/
theorem incC_count {k : Config} {x n : Nat} (hx : x < k.c) (h : x = n % k.c) : incC k x = (n + 1) % k.c := by
  rw [incC_eq_mod hx, h, Nat.mod_add_mod]

/-- An accepted byte is the last of the accepted and the last of the live bytes (R85). -/
theorem fifo_push {s : State} (b : Byte) (hc : CursorsInRange s) (h : Fifo s) (hf : incC s.config s.wr ≠ s.rd) :
    Fifo { s with rb := s.rb.write s.wr b, wr := incC s.config s.wr, accepted := s.accepted ++ [b] } := by
  obtain ⟨hacc, hwr, hrd⟩ := h
  refine ⟨?_, ?_, hrd⟩
  · rw [liveBytes_push b _ hc hf, ← List.append_assoc, ← hacc]
  · simp only [List.length_append, List.length_singleton]
    exact incC_count hc.2 hwr

/-- A taken byte was the first of the live bytes and becomes the last of the taken ones (R129). -/
theorem fifo_take {s : State} {v : Byte} (hc : CursorsInRange s) (h : Fifo s) (hd : s.rd ≠ s.wr)
    (hv : s.rb.read s.rd = some v) :
    Fifo { s with rd := incC s.config s.rd, taken := s.taken ++ [v] } := by
  obtain ⟨hacc, hwr, hrd⟩ := h
  refine ⟨?_, hwr, ?_⟩
  · rw [liveBytes_take (s.taken ++ [v]) hc hd, hv] at hacc
    simpa using hacc
  · simp only [List.length_append, List.length_singleton]
    exact incC_count hc.1 hrd

theorem RingMove.fifo {s t : State} (h : RingMove s t) (hc : CursorsInRange s) (hs : Fifo s) : Fifo t := by
  cases h with
  | stays h => exact h.fifo hs
  | pushed b hf h => exact h.fifo (fifo_push b hc hs hf)
  | taken v hd hv h => exact h.fifo (fifo_take hc hs hd hv)

/-! ## The window -/

/-- During scan and compaction `OFF` stands inside the filled part (R153). -/
theorem off_le_fill {s : State} (h : WindowInv s) (hp : s.ph = .scan ∨ s.ph = .compact) : s.off ≤ s.fill := by
  obtain ⟨-, -, -, -, -, -, hoff⟩ := h
  exact hoff hp

/-- A scan iteration moves `OFF` inside the window, and `IDX` over a candidate that is all there (R153, R38). -/
theorem Scanned.bounds {s t : State} (h : Scanned s t) (hs : WindowInv s) (hp : s.ph = .scan) :
    t.off ≤ s.fill ∧ t.idx ≤ s.config.w := by
  have hoff := off_le_fill hs (.inl hp)
  obtain ⟨hf, -, -, -, -, hidx, -⟩ := hs
  have hroom (hw : windowExhausted s = false) : s.off + 1 ≤ s.fill := by
    have := of_decide_eq_false hw
    omega
  have hwhole {l : Nat} (hc : candidateIncomplete l s = false) : s.off + (4 + l + 1) ≤ s.fill :=
    Nat.le_of_not_lt (of_decide_eq_false hc)
  cases h with
  | ended | endedLatched => exact ⟨hoff, hidx⟩
  | noMarker hw | illegalCode _ hw | oversized _ _ hw => exact ⟨hroom hw, hidx⟩
  | badChecksum fc p hc =>
    have := hwhole hc
    simp only [rejectChecksum, advance_off, emit_off, sumUp_off, latch_off, advance_idx, emit_idx, sumUp_idx]
    omega
  | accepted fc p hc =>
    have := hwhole hc
    rw [acceptFrame, dispatchOp_frame]
    simp only [advance_off, emit_off, sumUp_off, latch_off, advance_idx, emit_idx, sumUp_idx, frameLen]
    omega

theorem Scanned.windowInv {s t : State} (h : Scanned s t) (hs : WindowInv s) (hp : s.ph = .scan) : WindowInv t := by
  obtain ⟨hoff, hidx⟩ := h.bounds hs hp
  obtain ⟨hf, hwf, hbd, hread, -⟩ := hs
  rw [h.frame]
  exact ⟨hf, hwf, hbd, hread, Nat.le_trans hoff hf, hidx, fun _ => hoff⟩

/-- A drained byte is written at `FILL`, the slot that becomes part of the window. -/
theorem windowInv_drain {s : State} (v : Byte) (rd : Nat) (a : List Byte) (h : WindowInv s) (hp : s.ph = .drain)
    (hf : s.fill < s.config.w) :
    WindowInv { s with rd := rd, taken := a, sw := s.sw.write s.fill v, fill := s.fill + 1 } := by
  obtain ⟨-, hwf, hbd, hread, hoff, hidx, -⟩ := h
  refine ⟨hf, Memory.wf_write hwf _ _, Memory.bounded_write hbd hf _, fun j hj => ?_, hoff, hidx, ?_⟩
  · rw [Memory.read_write]
    split
    next => rfl
    next hne => exact hread j (Nat.lt_of_le_of_ne (Nat.le_of_lt_succ hj) hne)
  · simp [hp]

theorem windowInv_compact {s : State} {m : Memory} (h : WindowInv s) (hp : s.ph = .compact)
    (hm : copyDown s.config .sw s.sw s.off 0 (s.fill - s.off) = .ok m) :
    WindowInv { s with sw := m, fill := s.fill - s.off, idx := s.fill - s.off, ph := .idle } := by
  obtain ⟨n, hn, hread, hwf, hbd⟩ := compactOp_ok h (off_le_fill h (.inr hp))
  have hmn : m = n := by
    simp only [compactOp, hm] at hn
    injection hn with hn
    exact congrArg State.sw hn
  subst hmn
  obtain ⟨hf, -, -, hw, hoff, -, -⟩ := h
  have hle : s.fill - s.off ≤ s.config.w := Nat.le_trans (Nat.sub_le _ _) hf
  refine ⟨hle, hwf, hbd, fun j hj => ?_, hoff, hle, by simp⟩
  rw [hread, if_pos hj]
  exact hw _ (Nat.add_lt_of_lt_sub' hj)

/-- Leaving the scan's phases, or entering the scan at offset 0, keeps the window's invariant. -/
theorem windowInv_phase {s : State} {ph : Phase} (h : WindowInv s) (hp : ph ≠ .scan ∧ ph ≠ .compact) :
    WindowInv { s with ph := ph } := by
  obtain ⟨hf, hwf, hbd, hread, hoff, hidx, -⟩ := h
  exact ⟨hf, hwf, hbd, hread, hoff, hidx, fun hs => absurd hs (not_or.2 hp)⟩

theorem windowInv_gateTurn {s : State} (h : WindowInv s) : WindowInv (gateTurn s) := by
  unfold gateTurn
  split
  · exact windowInv_phase h (by decide)
  · obtain ⟨hf, hwf, hbd, hread, -, hidx, -⟩ := h
    exact ⟨hf, hwf, hbd, hread, Nat.zero_le _, hidx, fun _ => Nat.zero_le _⟩

theorem Effect.windowInv {s t : State} (h : Effect s t) (hs : WindowInv s) : WindowInv t := by
  cases h with
  | passBegun | drainEnded => exact windowInv_phase hs (by decide)
  | drained v hp hf => exact windowInv_drain v _ _ hs hp hf
  | gated => exact windowInv_gateTurn hs
  | scanned t hp ht => exact ht.windowInv hs hp
  | compacted m hp hm => exact windowInv_compact hs hp hm
  | offered b =>
    rw [serializeByte_frame]
    exact hs
  | nothing | dropped | stored | shown | took | underrun | built | sendEnded => exact hs

/-! ## The builder -/

/-- BUILD writes the whole frame (R186). -/
theorem builderInv_build {s : State} {fc : Byte} {p : List Byte} {m : Memory} (h : BuilderInv s)
    (hp : p.length ≤ 255) (hm : buildWrites s.config fc p s.txb = .ok m) :
    BuilderInv { s with txb := m, txlen := frameLen p.length, txi := 0 } := by
  obtain ⟨-, hwf, hbd, -⟩ := h
  obtain ⟨n, hn, hread, hnwf, hnbd⟩ := buildWrites_ok s.config fc s.txb hp
  cases hm.symm.trans hn
  refine ⟨.inr ?_, hnwf hwf, hnbd hbd, fun j hj => ?_⟩
  · simp only [frameLen]
    omega
  · have hlen : j < (encFrame fc p).length := by rwa [encFrame_length]
    rw [hread, if_pos hj, List.getElem?_eq_getElem hlen]
    rfl

theorem builderInv_endSend {s : State} (h : BuilderInv s) : BuilderInv (endSend s) := by
  obtain ⟨-, hwf, hbd, -⟩ := h
  exact ⟨.inl ⟨rfl, rfl⟩, hwf, hbd, fun j hj => absurd hj (Nat.not_lt_zero j)⟩

theorem builderInv_serializeByte {s : State} (b : Byte) (h : BuilderInv s) : BuilderInv (serializeByte b s) := by
  rcases serializeByte_cases b s with ⟨-, he⟩ | ⟨-, -, -, he⟩ | ⟨hlt, -, hne, he⟩ | ⟨-, -, he⟩ <;> rw [he]
  · exact h
  · exact builderInv_endSend (s := transmitOp b s) h
  · obtain ⟨hlen, hwf, hbd, hread⟩ := h
    refine ⟨.inr ?_, hwf, hbd, hread⟩
    simp only [transmitOp_txlen]
    omega
  · exact builderInv_endSend (s := emit .sinkFail 0 (transmitOp b s)) h

theorem Effect.builderInv {s t : State} (h : Effect s t) (hs : BuilderInv s) : BuilderInv t := by
  cases h with
  | gated =>
    unfold gateTurn
    split <;> exact hs
  | scanned t hp ht =>
    rw [ht.frame]
    exact hs
  | built fc p m hp hm => exact builderInv_build hs hp hm
  | offered b => exact builderInv_serializeByte b hs
  | sendEnded => exact builderInv_endSend hs
  | nothing | dropped | stored | shown | took | underrun | passBegun | drained | drainEnded | compacted => exact hs

/-! ## The records -/

theorem Shows.recordInv {s t : State} {os : List Obs} (h : Shows s t os) (hheld : t.heldSends = s.heldSends)
    (hs : RecordInv s) : RecordInv t := by
  obtain ⟨hrun, hcfg, hcnt, hsends⟩ := hs
  refine ⟨?_, ?_, fun e he => ?_, hheld ▸ hsends⟩
  · rw [h.config]
    exact h.run_cases.elim (fun hr => hr ▸ hrun) And.left
  · rw [h.cfg, h.config, hcfg]
  · rw [h.counters, h.config]
    exact get_countersAfter_lt os (hcnt e he)

/-! ## The whole invariant -/

theorem Effect.inv {s t : State} (h : Effect s t) (hs : Inv s) : Inv t := by
  obtain ⟨hk, hring, hwin, hbuild, hrec⟩ := hs
  obtain ⟨os, hos⟩ := h.shows
  exact ⟨hos.config ▸ hk, h.ringMove.ringInv hring, h.windowInv hwin, h.builderInv hbuild,
    hos.recordInv h.heldSends hrec⟩

/-- The invariant speaks of nothing that waits but the held sends. -/
theorem SameButWaiting.inv {s u : State} (h : SameButWaiting s u) (hs : Inv s) : Inv u := by
  obtain ⟨hk, hring, hwin, hbuild, hrun, hcfg, hcnt, hsends⟩ := hs
  have hheld : ∀ x ∈ u.heldSends, x.2.length ≤ 255 := fun x hx => (h.held x hx).elim (hsends x) id
  rw [h.same]
  exact ⟨hk, hring, hwin, hbuild, hrun, hcfg, hcnt, hheld⟩

theorem SameButWaiting.sameRing {s u : State} (h : SameButWaiting s u) : SameRing s u := by
  rw [h.same]
  exact ⟨rfl, rfl, rfl, rfl, rfl, rfl⟩

/-! ## RESET -/

@[simp] theorem freeBytes_length (n k : Nat) : (freeBytes n k).length = k := by simp [freeBytes]

@[simp] theorem occ_resetOp (s : State) : occ (resetOp s) = 0 := by simp [occ]

@[simp] theorem liveBytes_resetOp (s : State) : liveBytes (resetOp s) = [] := by simp [liveBytes]

@[simp] theorem windowBytes_resetOp (s : State) : windowBytes (resetOp s) = [] := by simp [windowBytes]

@[simp] theorem Counters.get_zero (e : Event) : Counters.zero.get e = 0 := by cases e <;> rfl

theorem inv_resetOp {s : State} (h : s.config.wf) : Inv (resetOp s) := by
  have hc : 0 < s.config.c := Nat.lt_of_lt_of_le Nat.two_pos h.1
  refine ⟨h, ⟨⟨hc, hc⟩, .nil, nofun, ?_⟩, ⟨Nat.zero_le _, .nil, nofun, nofun, Nat.zero_le _, Nat.zero_le _, ?_⟩,
    ⟨.inl ⟨rfl, rfl⟩, .nil, nofun, nofun⟩, ?_, ?_, ?_, nofun⟩ <;> simp

theorem fifo_resetOp (s : State) : Fifo (resetOp s) := by simp [Fifo]

theorem countersExact_resetOp (s : State) : CountersExact (resetOp s) := by simp [CountersExact]

end Sys2Proof.Machine
end

section
/-! PROOFS. The statements of 10_state.md: the invariants and the step that keeps them, faults, records, reset values and
the status port. -/

namespace Sys2Proof.Machine

/-! ## What every step keeps -/

/-- Settles O20: RESET builds the invariant anew, and every other effect keeps each of its parts. -/
theorem invIsKept : Obligations.InvIsKept := by
  intro s t hs h
  obtain ⟨u, hu, ⟨-, rfl⟩ | he⟩ := step_next_cases h
  · obtain ⟨hk, -⟩ := hu.inv hs
    exact inv_resetOp hk
  · exact he.inv (hu.inv hs)

/-- Settles O19: a step leaves the ring, pushes a byte behind the live ones, takes the first of them, or is RESET. -/
theorem fifoIsKept : Obligations.FifoIsKept := by
  intro s t hs hf h
  obtain ⟨u, hu, ⟨-, rfl⟩ | he⟩ := step_next_cases h
  · exact fifo_resetOp u
  · obtain ⟨-, ⟨hcur, -⟩, -⟩ := hu.inv hs
    exact he.ringMove.fifo hcur (hu.sameRing.fifo hf)

theorem Shows.countersExact {s t : State} {os : List Obs} (h : Shows s t os) (hs : CountersExact s) :
    CountersExact t := by
  intro e he
  rw [h.counters, h.trace, h.config, countEvent_append]
  exact get_countersAfter s.config e os s.counters _ (hs e he)

/-- Settles O24: a step bumps a counter once for each of its events that it shows, and RESET clears both. -/
theorem countersCountTheirEvents : Obligations.CountersCountTheirEvents := by
  intro s t hs h
  obtain ⟨u, -, rfl⟩ | ⟨os, hos⟩ := step_shows h
  · exact countersExact_resetOp u
  · exact hos.countersExact hs

/-- Settles O50: RUN is what the dispatches shown in the step left, and nothing but RESET writes CFG. -/
theorem runIsReplacedWholeCfgNever : Obligations.RunIsReplacedWholeCfgNever := by
  intro s t h hreset
  obtain ⟨u, hu, -⟩ | ⟨os, hos⟩ := step_shows h
  · exact absurd hu (hreset u)
  · refine ⟨hos.cfg, ?_⟩
    rw [hos.trace, List.drop_left]
    exact hos.run_cases

/-! ## No step faults -/

theorem pushOp_ne_error {s : State} {f : Fault} (b : Byte) (h : CursorsInRange s) : pushOp b s ≠ .error f := by
  rcases pushOp_cases b h with ⟨-, hp⟩ | ⟨-, hp⟩ <;> simp [hp]

theorem buildOp_ne_error {s : State} {f : Fault} (fc : Byte) {p : List Byte} (hp : p.length ≤ 255) :
    buildOp fc p s ≠ .error f := by
  obtain ⟨m, hm, -⟩ := buildWrites_ok s.config fc s.txb hp
  simp [buildOp, hm]

/-- In the invariant, no reason for a fault is met: what is read is written, and every index is inside its array (R62, R63). -/
theorem not_stops {s : State} {f : Fault} (hs : Inv s) : ¬Stops s f := by
  obtain ⟨-, hring, hwin, hbuild, -⟩ := hs
  intro h
  cases h with
  | push b h => exact pushOp_ne_error b hring.1 h
  | take hd h => simp [takeOp_ok hring hd] at h
  | drain hf hd h => simp [drainStep_ok hring hd hf] at h
  | scan hp h =>
    simp [loadRange_rest hwin (off_le_fill hwin (.inl hp))] at h
  | compact hp h =>
    obtain ⟨m, hm, -⟩ := compactOp_ok hwin (off_le_fill hwin (.inr hp))
    simp [hm] at h
  | build fc p hp h => exact buildOp_ne_error fc hp h
  | offer hl h =>
    obtain ⟨hlen, -, -, hread⟩ := hbuild
    have hin : s.txi < Space.size s.config .txb := show s.txi < 260 by omega
    simp [load_ok_of_isSome hin (hread _ hl)] at h

/-- Settles O22: each reason for a fault contradicts the invariant. -/
theorem noStepFaults : Obligations.NoStepFaults := by
  intro s f hs h
  obtain ⟨u, hu, hstop⟩ := step_fault_cases h
  exact not_stops (hu.inv hs) hstop

/-! ## Reset values and the status port -/

/-- Settles O21, by evaluating each invariant at the one state. -/
theorem resetMeetsTheInvariants : Obligations.ResetMeetsTheInvariants :=
  ⟨by decide, by decide, by decide, by decide⟩

/-- With two slots or more the empty ring is not full (R45). -/
theorem rbFull_resetOp {s : State} (h : s.config.wf) : rbFull (resetOp s) = false := by
  have hc : 1 ≠ s.config.c := Nat.ne_of_lt h.1
  simp [rbFull, incC, hc]

/-- Settles O57: each register of the state that RESET builds. -/
theorem resetLeavesTheResetValues : Obligations.ResetLeavesTheResetValues := by
  intro s
  exact ⟨resetOp s, rfl, rfl, rfl, rfl, rfl, rfl, rfl, rfl, rfl, rfl, rfl, rfl, Counters.get_zero, rfl, rfl,
    freeBytes_length _ _, freeBytes_length _ _, rfl, rfl, rfl, rfl, rbFull_resetOp, liveBytes_resetOp s,
    windowBytes_resetOp s⟩

/-- The bits of the status port's number are its four flags. -/
theorem flagBits_getLsbD (a b c d : Bool) :
    let port := BitVec.ofNat 4 (a.toNat + 2 * b.toNat + 4 * c.toNat + 8 * d.toNat)
    port.getLsbD 0 = a ∧ port.getLsbD 1 = b ∧ port.getLsbD 2 = c ∧ port.getLsbD 3 = d := by
  revert a b c d
  decide

/-- Settles O58: the port shows the four flags bit by bit. -/
theorem statusPortShowsTheFlags : Obligations.StatusPortShowsTheFlags :=
  ⟨by decide, fun s => flagBits_getLsbD (hasDataFlag s) (rbFull s) (svcBusy s) (txBusy s)⟩

end Sys2Proof.Machine
end

section
/-! PROOFS. The frame of each instruction and of each agent's turn (20_memory.md R67, R82): one lemma for each says what it
may change, and the statements of the family are read off them. -/

namespace Sys2Proof.Machine

/-! ## Answers -/

theorem answerOf_eq_next {r : Except Fault State} {t : State} (h : answerOf r = .next t) : r = .ok t := by
  cases r with
  | ok u =>
    cases h
    rfl
  | error f => cases h

/-- An agent's step is what its turn answers. -/
theorem stepTurn_eq_answer (a : Turn) (s : State) : stepTurn a s = (takeTurn a s).answer := by
  rw [stepTurn_eq]
  cases takeTurn a s <;> rfl

/-! ## The ring's instructions -/

/-- PUSH with a next state: a full ring drops, any other stores the byte at `WR` (R119, R120). -/
theorem exec_push_cases {b : Byte} {s t : State} (h : exec (.push b) s = .next t) :
    rbFull s = true ∧ t = emit .drop 0 s ∨
    rbFull s = false ∧
      t = { s with rb := s.rb.write s.wr b, wr := incC s.config s.wr, accepted := s.accepted ++ [b] } := by
  have hp : pushOp b s = .ok t := answerOf_eq_next h
  unfold pushOp at hp
  split at hp
  next hf =>
    cases hp
    exact .inl ⟨decide_eq_true hf, rfl⟩
  next hf =>
    cases hm : store s.config .rb s.rb s.wr b with
    | error f => simp [hm] at hp
    | ok m =>
      obtain ⟨-, rfl⟩ := store_eq_ok.1 hm
      rw [hm] at hp
      cases hp
      exact .inr ⟨decide_eq_false hf, rfl⟩

theorem exec_push_frame {b : Byte} {s t : State} (h : exec (.push b) s = .next t) : t = { s with
    rb := t.rb, wr := t.wr, accepted := t.accepted, trace := t.trace
    counters := { s.counters with drop := t.counters.drop } } := by
  rcases exec_push_cases h with ⟨-, rfl⟩ | ⟨-, rfl⟩ <;> rfl

theorem exec_pushMany_frame {bs : List Byte} {s t : State} (h : exec (.pushMany bs) s = .next t) :
    t = { s with batch := t.batch } := by
  cases h
  rfl

theorem exec_hasData_frame {s t : State} (h : exec .hasData s = .next t) : t = { s with trace := t.trace } := by
  cases h
  rfl

theorem exec_takeByte_frame {s t : State} (h : exec .takeByte s = .next t) : t = { s with
    rd := t.rd, taken := t.taken, trace := t.trace
    counters := { s.counters with underrun := t.counters.underrun } } := by
  simp only [exec, execTakeByte] at h
  split at h
  next =>
    cases h
    rfl
  next =>
    cases ht : takeOp s with
    | error f => simp [ht] at h
    | ok x =>
      obtain ⟨v, u⟩ := x
      obtain ⟨-, rfl⟩ := takeOp_eq_ok ht
      rw [ht] at h
      cases h
      rfl

/-! ## SERVICE, DISPATCH and the snapshots -/

theorem exec_service_frame {s t : State} (h : exec .service s = .next t) :
    t = { s with ph := t.ph, heldServices := t.heldServices } := by
  simp only [exec, execService] at h
  split at h <;> cases h <;> rfl

/-- Of the counters DISPATCH moves only EV_DLEN's and EV_NOHANDLER's (R171 to R173). -/
theorem dispatchOp_frame_counters (fc : Byte) (p : List Byte) {s t : State} (ht : dispatchOp fc p s = t) :
    t = { s with
      run := t.run, trace := t.trace
      counters := { s.counters with noHandler := t.counters.noHandler, dlen := t.counters.dlen } } := by
  subst ht
  rw [dispatchOp_eq]
  split
  · split <;> rfl
  · rfl

/-- DISPATCH with a next state is the operation that the accept step runs (R168). -/
theorem exec_dispatch_next {fc : Byte} {p : List Byte} {s t : State} (h : exec (.dispatch fc p) s = .next t) :
    dispatchOp fc p s = t := by
  simp only [exec, execDispatch] at h
  split at h <;> cases h
  rfl

theorem exec_dispatch_frame {fc : Byte} {p : List Byte} {s t : State} (h : exec (.dispatch fc p) s = .next t) :
    t = { s with
      run := t.run, trace := t.trace
      counters := { s.counters with noHandler := t.counters.noHandler, dlen := t.counters.dlen } } :=
  dispatchOp_frame_counters fc p (exec_dispatch_next h)

theorem exec_snapshotRunningState_frame {s t : State} (h : exec .snapshotRunningState s = .next t) :
    t = { s with trace := t.trace } := by
  cases h
  rfl

theorem exec_snapshotConfig_frame {s t : State} (h : exec .snapshotConfig s = .next t) :
    t = { s with trace := t.trace } := by
  cases h
  rfl

/-! ## The builder's instructions -/

theorem buildOp_frame {fc : Byte} {p : List Byte} {s t : State} (h : buildOp fc p s = .ok t) :
    t = { s with txb := t.txb, txlen := t.txlen, txi := t.txi } := by
  unfold buildOp at h
  split at h <;> cases h
  rfl

theorem exec_sendFrame_frame {fc : Byte} {p : List Byte} {s t : State} (h : exec (.sendFrame fc p) s = .next t) :
    t = { s with txb := t.txb, txlen := t.txlen, txi := t.txi, heldSends := t.heldSends } := by
  simp only [exec, execSendFrame] at h
  split at h
  next =>
    split at h
    next =>
      cases h
      rfl
    next => rw [buildOp_frame (answerOf_eq_next h)]
  next => cases h

theorem exec_transmitOne_frame {b : Byte} {s t : State} (h : exec (.transmitOne b) s = .next t) : t = { s with
    txlen := t.txlen, txi := t.txi, sinkAnswers := t.sinkAnswers, trace := t.trace
    counters := { s.counters with sinkFail := t.counters.sinkFail } } := by
  cases h
  exact serializeByte_frame b s

/-! ## Frames -/

/-- A frame inside ALLOW never counts EV_FC (R144). -/
theorem frameIteration_counters_fc {fc : Byte} (p : List Byte) (cks : Byte) {s : State} (ha : fc ∈ s.config.allow) :
    (frameIteration fc p cks s).counters.fc = s.counters.fc := by
  rcases frameIteration_cases fc p cks s with ⟨-, h⟩ | ⟨-, hn, -⟩ | ⟨-, -, -, h⟩ | ⟨-, -, -, -, h⟩ |
    ⟨-, -, -, -, -, h⟩ | ⟨-, -, -, -, -, h⟩
  case inr.inl => exact absurd ha hn
  case inr.inr.inr.inr.inl =>
    rw [h, acceptFrame, advance_counters, dispatchOp_frame_counters fc p rfl]
    rfl
  all_goals
    rw [h]
    rfl

/-- A frame of a class inside ALLOW runs the one scan iteration on its code (R106, R140). -/
theorem LegalFrame.exec_eq {s : State} {i : Instr} {fc : Byte} {p : List Byte} {cks : Byte}
    (hl : LegalFrame s.config i fc p cks) :
    fc ∈ s.config.allow ∧ exec i s = .next (frameIteration fc p cks s) := by
  have hmem {q : Purpose} (hc : s.config.classOf fc = .reserved q) : fc ∈ s.config.allow := by
    by_contra hn
    rw [Config.classOf_illegal.2 hn] at hc
    cases hc
  rcases hl with ⟨rfl, rfl⟩ | ⟨hc, rfl⟩ | ⟨hc, rfl⟩ | ⟨hc, rfl⟩
  · exact ⟨s.config.fcRun_mem_allow, rfl⟩
  · exact ⟨hmem hc, rfl⟩
  · exact ⟨hmem hc, rfl⟩
  · exact ⟨hmem hc, rfl⟩

theorem exec_legalFrame_frame {s t : State} {i : Instr} {fc : Byte} {p : List Byte} {cks : Byte}
    (hl : LegalFrame s.config i fc p cks) (h : exec i s = .next t) : t = { s with
      off := t.off, ph := t.ph, fcLatch := t.fcLatch, lLatch := t.lLatch, sum := t.sum, idx := t.idx
      run := t.run, trace := t.trace
      counters := { s.counters with
        oversize := t.counters.oversize, cks := t.counters.cks, frame := t.counters.frame
        noHandler := t.counters.noHandler, dlen := t.counters.dlen } } := by
  obtain ⟨ha, hi⟩ := hl.exec_eq
  rw [hi] at h
  cases h
  have hframe := frameIteration_frame fc p cks (Eq.refl (frameIteration fc p cks s))
  rw [frameIteration_counters_fc p cks ha] at hframe
  exact hframe

/-- An illegal header ends the scan or is rejected with EV_FC (R141, R144). -/
theorem exec_frameIllegal_cases {fc len : Byte} {s t : State} (h : exec (.frameIllegal fc len) s = .next t) :
    t = endScan s ∨ windowExhausted s = false ∧ t = rejectCode fc s := by
  simp only [exec, execFrameIllegal] at h
  split at h
  next =>
    cases h
    exact .inl rfl
  next hw =>
    cases h
    exact .inr ⟨Bool.not_eq_true _ ▸ hw, rfl⟩

theorem exec_frameIllegal_frame {fc len : Byte} {s t : State} (h : exec (.frameIllegal fc len) s = .next t) :
    t = { s with
      off := t.off, ph := t.ph, fcLatch := t.fcLatch, trace := t.trace
      counters := { s.counters with fc := t.counters.fc } } := by
  rcases exec_frameIllegal_cases h with rfl | ⟨-, rfl⟩ <;> rfl

/-- An instruction that cannot be requested, and that neither the accept step nor the serializer runs, is a frame, and every
frame, legal or not, is a scan iteration. -/
theorem exec_frame_scanned {i : Instr} {s t : State} (h : exec i s = .next t) (ho : offered i = false)
    (hd : ∀ fc p, i ≠ .dispatch fc p) (hx : ∀ b, i ≠ .transmitOne b) : Scanned s t := by
  cases i with
  | dispatch fc p => exact absurd rfl (hd fc p)
  | transmitOne b => exact absurd rfl (hx b)
  | frameUpdateRunningState p cks =>
    cases h
    exact frameIteration_scanned _ p cks s
  | frameConfigUpdate fc p cks | frameCardList fc p cks | frameAlarmRecord fc p cks =>
    cases h
    exact frameIteration_scanned fc p cks s
  | frameIllegal fc len =>
    rcases exec_frameIllegal_cases h with rfl | ⟨hw, rfl⟩
    · exact .ended
    · exact .illegalCode fc hw
  | reset | push | pushMany | hasData | takeByte | service | sendFrame | snapshotRunningState | snapshotConfig => cases ho

/-- What an instruction other than RESET shows stands behind what was shown before (R214). -/
theorem exec_shows {i : Instr} {s t : State} (hr : i ≠ .reset) (h : exec i s = .next t) : ∃ os, Shows s t os := by
  cases ho : offered i with
  | true =>
    obtain ⟨u, hu, he⟩ := exec_offered_comesFrom s ho hr
    rw [h] at he
    obtain ⟨os, hos⟩ := he.shows
    exact ⟨_, hu.shows.trans hos⟩
  | false =>
    cases i with
    | dispatch fc p => exact exec_dispatch_next h ▸ ⟨_, shows_dispatchOp fc p s⟩
    | transmitOne b =>
      cases h
      exact shows_serializeByte b s
    | frameUpdateRunningState | frameConfigUpdate | frameCardList | frameAlarmRecord | frameIllegal =>
      exact (exec_frame_scanned h ho nofun nofun).shows
    | reset | push | pushMany | hasData | takeByte | service | sendFrame | snapshotRunningState | snapshotConfig =>
      cases ho

/-! ## The arrays -/

/-- The three arrays are the same. -/
structure SameArrays (s t : State) : Prop where
  rb : t.rb = s.rb
  sw : t.sw = s.sw
  txb : t.txb = s.txb

/-- No array stands in the frame of an instruction other than RESET, PUSH and SEND_FRAME (R67). -/
theorem exec_sameArrays {i : Instr} {s t : State} (hr : i ≠ .reset) (hp : ∀ b, i ≠ .push b)
    (hs : ∀ fc p, i ≠ .sendFrame fc p) (h : exec i s = .next t) : SameArrays s t := by
  cases i with
  | reset => exact absurd rfl hr
  | push b => exact absurd rfl (hp b)
  | sendFrame fc p => exact absurd rfl (hs fc p)
  | pushMany => exact exec_pushMany_frame h ▸ ⟨rfl, rfl, rfl⟩
  | hasData => exact exec_hasData_frame h ▸ ⟨rfl, rfl, rfl⟩
  | takeByte => exact exec_takeByte_frame h ▸ ⟨rfl, rfl, rfl⟩
  | service => exact exec_service_frame h ▸ ⟨rfl, rfl, rfl⟩
  | dispatch => exact exec_dispatch_frame h ▸ ⟨rfl, rfl, rfl⟩
  | transmitOne => exact exec_transmitOne_frame h ▸ ⟨rfl, rfl, rfl⟩
  | snapshotRunningState => exact exec_snapshotRunningState_frame h ▸ ⟨rfl, rfl, rfl⟩
  | snapshotConfig => exact exec_snapshotConfig_frame h ▸ ⟨rfl, rfl, rfl⟩
  | frameUpdateRunningState | frameConfigUpdate | frameCardList | frameAlarmRecord | frameIllegal =>
    exact (exec_frame_scanned h rfl nofun nofun).frame ▸ ⟨rfl, rfl, rfl⟩

/-! ## The consumer's turn -/

/-- A scan turn with a next state is a scan iteration (R140). -/
theorem scanTurn_scanned {s t : State} (h : (scanTurn s).answer = .next t) : Scanned s t := by
  cases hw : windowExhausted s with
  | true =>
    rw [scanTurn, if_pos hw] at h
    cases h
    exact .ended
  | false =>
    cases hl : loadRange s.config .sw s.sw s.off (s.fill - s.off) with
    | ok bs =>
      obtain ⟨u, hu, hs⟩ := scanDecoded_scanned hw fun i rest => exec_decoded_frame (s := s) (bs := bs)
      rw [scanTurn_eq_scanDecoded hw hl, hu] at h
      cases h
      exact hs
    | error f =>
      rw [scanTurn, hw, if_neg Bool.false_ne_true, hl] at h
      cases h

/-- The drain phase takes a byte from the ring into the window, or ends (R136, R137). -/
theorem drainTurn_frame {s t : State} (h : drainTurn s = .ok t) :
    t = { s with rd := t.rd, taken := t.taken, sw := t.sw, fill := t.fill, ph := t.ph } := by
  unfold drainTurn at h
  split at h
  next =>
    unfold drainStep at h
    cases ht : takeOp s with
    | error f => simp [ht] at h
    | ok x =>
      obtain ⟨v, u⟩ := x
      obtain ⟨-, rfl⟩ := takeOp_eq_ok ht
      simp only [ht] at h
      split at h <;> cases h
      rfl
  next =>
    cases h
    rfl

theorem gateTurn_frame (s : State) : gateTurn s = { s with ph := (gateTurn s).ph, off := (gateTurn s).off } := by
  unfold gateTurn
  split <;> rfl

theorem compactOp_frame {s t : State} (h : compactOp s = .ok t) :
    t = { s with sw := t.sw, fill := t.fill, idx := t.idx, ph := t.ph } := by
  unfold compactOp at h
  split at h <;> cases h
  rfl

/-! ## What each agent's step may write -/

/-- The producer owns RB and WR (R82). -/
theorem stepTurn_producer_frame {s t : State} (h : stepTurn .producer s = .next t) : t = { s with
    rb := t.rb, wr := t.wr, accepted := t.accepted, batch := t.batch, counters := t.counters, trace := t.trace } := by
  rw [stepTurn_eq_answer, takeTurn, producerTurn] at h
  split at h
  next =>
    cases h
    rfl
  next => rw [exec_push_frame h]

/-- The consumer owns RD, the window, the scanner's registers and RUN (R82). -/
theorem stepTurn_consumer_frame {s t : State} (h : stepTurn .consumer s = .next t) : t = { s with
    rd := t.rd, taken := t.taken, sw := t.sw, fill := t.fill, off := t.off, ph := t.ph, fcLatch := t.fcLatch
    lLatch := t.lLatch, sum := t.sum, idx := t.idx, run := t.run, heldServices := t.heldServices
    counters := t.counters, trace := t.trace } := by
  rw [stepTurn_eq_answer, takeTurn, consumerTurn] at h
  split at h
  next =>
    split at h
    next =>
      cases h
      rfl
    next => rw [exec_service_frame h]
  next => rw [drainTurn_frame (answerOf_eq_next h)]
  next =>
    cases h
    rw [gateTurn_frame]
  next => rw [(scanTurn_scanned h).frame]
  next => rw [compactOp_frame (answerOf_eq_next h)]

/-- The sender owns TXB, TXLEN and TXI (R82). -/
theorem stepTurn_sender_frame {s t : State} (h : stepTurn .sender s = .next t) : t = { s with
    txb := t.txb, txlen := t.txlen, txi := t.txi, heldSends := t.heldSends, sinkAnswers := t.sinkAnswers
    counters := t.counters, trace := t.trace } := by
  rw [stepTurn_eq_answer, takeTurn, senderTurn] at h
  split at h
  next =>
    split at h
    next =>
      cases h
      rfl
    next =>
      split at h
      next => cases h
      next => rw [exec_transmitOne_frame h]
  next =>
    split at h
    next =>
      cases h
      rfl
    next => rw [exec_sendFrame_frame h]

end Sys2Proof.Machine
end

section
/-! PROOFS. The statements of 20_memory.md: the checksum, the bytes an instruction leaves alone, and the frames of the
instructions and of the agents. -/

namespace Sys2Proof.Machine

/-- An accumulator that wraps at every addition adds the checksum to its start (R99). -/
theorem foldl_add_eq_add_sum8 (s : List Byte) (a : Byte) : s.foldl (fun a b => a + b) a = a + sum8 s := by
  induction s generalizing a with
  | nil => simp
  | cons b s ih => rw [List.foldl_cons, ih, sum8_cons, BitVec.add_assoc]

/-- Settles O6: the sum of a list of numbers ignores their order, and reducing at every addition gives the same residue. -/
theorem checksumIgnoresOrder : Obligations.ChecksumIgnoresOrder := by
  refine ⟨fun s t h => ?_, fun s => ?_⟩
  · rw [sum8, sum8, (h.map BitVec.toNat).sum_eq]
  · rw [foldl_add_eq_add_sum8, zero_add]

/-- Settles O10: the arrays are the same, so every index of them reads the same. -/
theorem nonStoringInstructionsKeepEveryByte : Obligations.NonStoringInstructionsKeepEveryByte := by
  intro i s t hr hp hs h a
  obtain ⟨hrb, hsw, htxb⟩ := exec_sameArrays hr hp hs h
  rw [hrb, hsw, htxb]
  exact ⟨rfl, rfl, rfl⟩

/-- Settles O11, by the two outcomes of PUSH. -/
theorem pushStoresOnlyAtWr : Obligations.PushStoresOnlyAtWr := by
  intro b s t h
  rcases exec_push_cases h with ⟨hf, rfl⟩ | ⟨hf, rfl⟩ <;> rw [hf]
  · exact ⟨nofun, fun _ _ => rfl, fun _ => ⟨rfl, rfl⟩⟩
  · exact ⟨fun _ => ⟨Memory.read_write_same _ _ _, fun _ ha => Memory.read_write_other _ _ ha⟩, nofun,
      fun _ => ⟨rfl, rfl⟩⟩

/-- Settles O12, by the frame of each instruction. -/
theorem instructionsChangeOnlyTheirRegisters : Obligations.InstructionsChangeOnlyTheirRegisters := by
  intro s t
  refine ⟨fun h => ?reset, fun i hr h => ?trace, fun _ => exec_push_frame, fun _ => exec_pushMany_frame,
    exec_hasData_frame, exec_takeByte_frame, exec_service_frame, fun _ _ => exec_dispatch_frame,
    fun _ _ => exec_sendFrame_frame, fun _ => exec_transmitOne_frame, exec_snapshotRunningState_frame,
    exec_snapshotConfig_frame, fun _ _ _ _ => exec_legalFrame_frame, fun _ _ => exec_frameIllegal_frame⟩
  case reset =>
    cases h
    exact ⟨rfl, rfl, rfl, rfl, rfl⟩
  case trace =>
    obtain ⟨os, hos⟩ := exec_shows hr h
    exact ⟨os, hos.trace⟩

/-- Settles O59, by the frame of each agent's turn. -/
theorem agentsWriteOnlyWhatTheyOwn : Obligations.AgentsWriteOnlyWhatTheyOwn := fun _ _ =>
  ⟨stepTurn_producer_frame, stepTurn_consumer_frame, stepTurn_sender_frame⟩

end Sys2Proof.Machine
end

section
/-! PROOFS. The codec of 30_encoding.md: what each piece of the decoder does on the bytes of the encoder, and what bytes it
was given when it answers. -/

namespace Sys2Proof

/-! ## Operations -/

theorem payloadFits_eq_true {p : List Byte} : payloadFits p = true ↔ p.length ≤ 255 := decide_eq_true_iff

theorem takePayload_append (fc : Byte) {p : List Byte} (rest : List Byte) (hp : p.length ≤ 255) :
    takePayload (fc :: BitVec.ofNat 8 p.length :: (p ++ rest)) = some (fc, p, rest) := by
  rw [takePayload, toNat_ofNat_length hp, takeBytes_append]

/-- A length byte is the length of the bytes taken by it (R96). -/
theorem takeBytes_toNat_eq_some {len : Byte} {bs p rest : List Byte} (h : takeBytes len.toNat bs = some (p, rest)) :
    p.length ≤ 255 ∧ len = BitVec.ofNat 8 p.length ∧ bs = p ++ rest := by
  obtain ⟨hbs, hl⟩ := takeBytes_eq_some h
  exact ⟨by omega, by rw [hl, BitVec.ofNat_toNat, BitVec.setWidth_eq], hbs⟩

theorem takePayload_eq_some {bs p rest : List Byte} {fc : Byte} (h : takePayload bs = some (fc, p, rest)) :
    p.length ≤ 255 ∧ bs = fc :: BitVec.ofNat 8 p.length :: (p ++ rest) := by
  unfold takePayload at h
  split at h
  next fc' len bs =>
    split at h
    next p' rest' ht =>
      cases h
      obtain ⟨hp, rfl, rfl⟩ := takeBytes_toNat_eq_some ht
      exact ⟨hp, rfl⟩
    next => cases h
  next => cases h

theorem decodeOp_pushMany {bs p rest : List Byte} (h : takeMarked bs = some (p, rest)) :
    decodeOp (0x02 :: bs) = .ok (.pushMany p, rest) := by
  simp only [decodeOp, h]
  rfl

theorem decodeOp_dispatch {fc : Byte} {bs p rest : List Byte} (h : takePayload bs = some (fc, p, rest)) :
    decodeOp (0x06 :: bs) = .ok (.dispatch fc p, rest) := by
  simp only [decodeOp, h]
  rfl

theorem decodeOp_sendFrame {fc : Byte} {bs p rest : List Byte} (h : takePayload bs = some (fc, p, rest)) :
    decodeOp (0x07 :: bs) = .ok (.sendFrame fc p, rest) := by
  simp only [decodeOp, h]
  rfl

theorem decodeOp_unusedTag {t : Byte} (bs : List Byte) (h : 11 ≤ t.toNat) :
    decodeOp (t :: bs) = .error (.unusedTag t) := by
  obtain ⟨n, hn⟩ := Nat.exists_eq_add_of_le' h
  simp only [decodeOp, hn]

/-- A byte is one of the eleven tags of R115, or selects no operation. -/
theorem tag_cases (t : Byte) :
    t = 0x00 ∨ t = 0x01 ∨ t = 0x02 ∨ t = 0x03 ∨ t = 0x04 ∨ t = 0x05 ∨ t = 0x06 ∨ t = 0x07 ∨ t = 0x08 ∨ t = 0x09 ∨
      t = 0x0A ∨ 11 ≤ t.toNat := by
  bv_omega

/-- Everything the decoder of requests can answer, with what its bytes then are. -/
theorem decodeOp_cases (k : Config) (bs : List Byte) :
    (bs = [] ∧ decodeOp bs = .error .noBytes) ∨
    (∃ i rest, decodeOp bs = .ok (i, rest) ∧ WellFormed k i = true ∧ bs = encode k i ++ rest) ∨
    (∃ t ts, bs = t :: ts ∧ 11 ≤ t.toNat ∧ decodeOp bs = .error (.unusedTag t)) ∨
    decodeOp bs = .error .badOperands := by
  cases bs with
  | nil => exact .inl ⟨rfl, rfl⟩
  | cons t bs =>
    refine .inr ?_
    rcases tag_cases t with rfl | rfl | rfl | rfl | rfl | rfl | rfl | rfl | rfl | rfl | rfl | ht
    · exact .inl ⟨.reset, bs, rfl, rfl, rfl⟩
    · cases bs with
      | nil => exact .inr (.inr rfl)
      | cons b bs => exact .inl ⟨.push b, bs, rfl, rfl, rfl⟩
    · cases hm : takeMarked bs with
      | none => exact .inr (.inr (by simp only [decodeOp, hm]; rfl))
      | some x => exact .inl ⟨_, _, decodeOp_pushMany hm, rfl, congrArg _ (takeMarked_eq_some hm)⟩
    · exact .inl ⟨.hasData, bs, rfl, rfl, rfl⟩
    · exact .inl ⟨.takeByte, bs, rfl, rfl, rfl⟩
    · exact .inl ⟨.service, bs, rfl, rfl, rfl⟩
    · cases hp : takePayload bs with
      | none => exact .inr (.inr (by simp only [decodeOp, hp]; rfl))
      | some x =>
        obtain ⟨hfit, hbs⟩ := takePayload_eq_some hp
        exact .inl ⟨_, _, decodeOp_dispatch hp, payloadFits_eq_true.2 hfit, congrArg _ hbs⟩
    · cases hp : takePayload bs with
      | none => exact .inr (.inr (by simp only [decodeOp, hp]; rfl))
      | some x =>
        obtain ⟨hfit, hbs⟩ := takePayload_eq_some hp
        exact .inl ⟨_, _, decodeOp_sendFrame hp, payloadFits_eq_true.2 hfit, congrArg _ hbs⟩
    · cases bs with
      | nil => exact .inr (.inr rfl)
      | cons b bs => exact .inl ⟨.transmitOne b, bs, rfl, rfl, rfl⟩
    · exact .inl ⟨.snapshotRunningState, bs, rfl, rfl, rfl⟩
    · exact .inl ⟨.snapshotConfig, bs, rfl, rfl, rfl⟩
    · exact .inr (.inl ⟨t, bs, rfl, ht, decodeOp_unusedTag bs ht⟩)

/-- A decoded request can be presented, and its bytes are its encoding. -/
theorem decodeOp_eq_ok (k : Config) {bs rest : List Byte} {i : Instr} (h : decodeOp bs = .ok (i, rest)) :
    WellFormed k i = true ∧ bs = encode k i ++ rest := by
  rcases decodeOp_cases k bs with ⟨-, hd⟩ | ⟨_, _, hd, hw, hbs⟩ | ⟨_, _, -, -, hd⟩ | hd <;> rw [h] at hd <;> cases hd
  exact ⟨hw, hbs⟩

/-! ## Frames -/

theorem decodeFrame_header {k : Config} {fc : Byte} (len : Byte) (rest : List Byte) (hc : k.classOf fc = .illegal) :
    decodeFrame k (header fc len ++ rest) = .ok (.frameIllegal fc len, rest) := by
  simp [decodeFrame, header, hc]

theorem decodeFrame_frameBytes {k : Config} {fc : Byte} {p : List Byte} (cks : Byte) (rest : List Byte)
    (hp : p.length ≤ 255) (hc : k.classOf fc ≠ .illegal) :
    decodeFrame k (frameBytes fc p cks ++ rest) = .ok (frameOf k fc p cks, rest) := by
  have ht : takeBytes (BitVec.ofNat 8 p.length).toNat (p ++ (cks :: rest)) = some (p, cks :: rest) := by
    rw [toNat_ofNat_length hp, takeBytes_append]
  simp only [decodeFrame, frameBytes, covered, header, List.cons_append, List.nil_append, List.append_assoc, and_self,
    if_true, if_neg hc, ht]

/-- A decoded candidate is an illegal header, or the whole frame of an allowed code, and its bytes are that header or
frame (R91, R106). -/
theorem decodeFrame_ok_bytes {k : Config} {bs rest : List Byte} {i : Instr} (h : decodeFrame k bs = .ok (i, rest)) :
    (∃ fc len, k.classOf fc = .illegal ∧ i = .frameIllegal fc len ∧ bs = header fc len ++ rest) ∨
    ∃ fc p cks, k.classOf fc ≠ .illegal ∧ p.length ≤ 255 ∧ i = frameOf k fc p cks ∧
      bs = frameBytes fc p cks ++ rest := by
  unfold decodeFrame at h
  split at h
  next b0 b1 fc len body =>
    split at h
    next hs =>
      obtain ⟨rfl, rfl⟩ := hs
      split at h
      next hc =>
        cases h
        exact .inl ⟨fc, len, hc, rfl, rfl⟩
      next hc =>
        split at h
        next p cks rest' ht =>
          cases h
          obtain ⟨hp, rfl, rfl⟩ := takeBytes_toNat_eq_some ht
          exact .inr ⟨fc, p, cks, hc, hp, rfl, by simp [frameBytes, covered, header]⟩
        next => cases h
    next => cases h
  next => cases h

theorem encode_frameOf {k : Config} {fc : Byte} (p : List Byte) (cks : Byte) (hc : k.classOf fc ≠ .illegal) :
    encode k (frameOf k fc p cks) = frameBytes fc p cks := by
  unfold frameOf
  cases hk : k.classOf fc with
  | handled => rw [encode, Config.classOf_handled.1 hk]
  | reserved q => cases q <;> rfl
  | illegal => exact absurd hk hc

theorem wellFormed_frameOf {k : Config} {fc : Byte} {p : List Byte} (cks : Byte) (hp : p.length ≤ 255)
    (hc : k.classOf fc ≠ .illegal) : WellFormed k (frameOf k fc p cks) = true := by
  have hfit : payloadFits p = true := payloadFits_eq_true.2 hp
  unfold frameOf
  cases hk : k.classOf fc with
  | handled => exact hfit
  | reserved q => cases q <;> simp [WellFormed, hfit, hk]
  | illegal => exact absurd hk hc

/-- A decoded candidate can be presented, and its bytes are its encoding. -/
theorem decodeFrame_ok_encode {k : Config} {bs rest : List Byte} {i : Instr} (h : decodeFrame k bs = .ok (i, rest)) :
    WellFormed k i = true ∧ bs = encode k i ++ rest := by
  rcases decodeFrame_ok_bytes h with ⟨fc, len, hc, rfl, hbs⟩ | ⟨fc, p, cks, hc, hp, rfl, hbs⟩
  · exact ⟨decide_eq_true hc, hbs⟩
  · exact ⟨wellFormed_frameOf cks hp hc, by rw [encode_frameOf p cks hc, hbs]⟩

/-- The frame of a class inside ALLOW is decoded to that class's instruction. -/
theorem decode_frameBytes {k : Config} {fc : Byte} {p : List Byte} {c : CodeClass} (cks : Byte) (rest : List Byte)
    (hp : payloadFits p = true) (hc : k.classOf fc = c) (hl : c ≠ .illegal) :
    decode k (frameBytes fc p cks ++ rest) = .ok (frameOf k fc p cks, rest) :=
  decodeFrame_frameBytes cks rest (payloadFits_eq_true.1 hp) (hc ▸ hl)

/-! ## The statements on instructions -/

/-- Settles O1, by the constructors of the instruction: an operation's tag tells it from a frame and selects its operands; a
frame's code selects its class. -/
theorem decodeOfEncode : Obligations.DecodeOfEncode := by
  intro k i rest hw
  cases i with
  | reset | push | hasData | takeByte | service | transmitOne | snapshotRunningState | snapshotConfig => rfl
  | pushMany p => exact decodeOp_pushMany (takeMarked_markBytes p rest)
  | dispatch fc p => exact decodeOp_dispatch (takePayload_append fc rest (payloadFits_eq_true.1 hw))
  | sendFrame fc p => exact decodeOp_sendFrame (takePayload_append fc rest (payloadFits_eq_true.1 hw))
  | frameUpdateRunningState p cks =>
    have hc : k.classOf k.fcRun = .handled := Config.classOf_handled.2 rfl
    rw [encode, decode_frameBytes cks rest hw hc nofun, frameOf, hc]
  | frameConfigUpdate fc p cks | frameCardList fc p cks | frameAlarmRecord fc p cks =>
    obtain ⟨hp, hc⟩ := Bool.and_eq_true_iff.1 hw
    have hc := of_decide_eq_true hc
    rw [encode, decode_frameBytes cks rest hp hc nofun, frameOf, hc]
  | frameIllegal fc len => exact decodeFrame_header len rest (of_decide_eq_true hw)

/-- Settles O2: the first byte says which decoder answered, and each answers only on the encoding. -/
theorem decodedBytesAreTheEncoding : Obligations.DecodedBytesAreTheEncoding := by
  intro k bs i rest h
  unfold decode at h
  split at h
  next => cases h
  next =>
    split at h
    next => exact decodeFrame_ok_encode h
    next => exact decodeOp_eq_ok k h

/-- Settles O3, by evaluating the decoder on each of the words. -/
theorem wordsWrittenOutDecode : Obligations.WordsWrittenOutDecode :=
  ⟨fun _ => rfl, fun _ _ => rfl, fun bs => decodeOp_pushMany (takeMarked_markBytes [] bs), fun _ => rfl, fun _ => rfl,
    fun _ => rfl, fun _ _ => rfl, fun _ _ => rfl, fun _ _ => rfl, fun _ => rfl, fun _ => rfl,
    fun _ => decodeOp_unusedTag, rfl, rfl, rfl, rfl, rfl⟩

end Sys2Proof
end

section
/-! PROOFS. The checksum and the frame codec of 30_encoding.md (R99 to R105), and the scan of a corrupted frame (R204). -/

namespace Sys2Proof

/-! ## The checksum -/

/-- The two sync bytes add `0xFF`, which is `-1` modulo 256 (R100). -/
theorem sum8_covered (fc : Byte) (p : List Byte) :
    sum8 (covered fc p) = fc + BitVec.ofNat 8 p.length + sum8 p - 1 := by
  rw [covered, header, sum8_append, sum8_cons, sum8_cons, sum8_cons, sum8_cons, sum8_nil, sync1, sync2]
  bv_omega

/-- Settles O5: the sum of the covered bytes, taken before and after it is reduced modulo 256. -/
theorem checksumIdentity : Obligations.ChecksumIdentity := by
  intro fc p _
  refine ⟨?_, sum8_covered fc p, by simpa using sum8_covered fc []⟩
  simp only [sum8, covered, header, sync1, sync2, List.cons_append, List.nil_append, List.map_cons, List.sum_cons,
    BitVec.toNat_ofNat, BitVec.ofNat_eq_ofNat, Nat.reducePow, Nat.reduceMod]
  omega

/-- Replacing a byte replaces its summand. -/
theorem sum8_set {s : List Byte} {i : Nat} (b : Byte) (h : i < s.length) :
    sum8 (s.set i b) + s[i] = sum8 s + b := by
  have hs : sum8 s = sum8 (s.take i) + (s[i] + sum8 (s.drop (i + 1))) := by
    rw [← sum8_cons, ← sum8_append, List.getElem_cons_drop, List.take_append_drop]
  rw [List.set_eq_take_append_cons_drop, if_pos h, sum8_append, sum8_cons, hs]
  bv_omega

/-- Settles O7: the two sums differ by the two bytes' difference. -/
theorem singleByteChangeIsDetected : Obligations.SingleByteChangeIsDetected := by
  intro s i b h hb heq
  have hset := sum8_set b h
  rw [heq] at hset
  exact hb ((BitVec.add_right_inj _).1 hset).symm

/-! ## The frame codec -/

theorem wellFormedFrame_encFrame (fc : Byte) {p : List Byte} (hp : p.length ≤ 255) :
    wellFormedFrame (encFrame fc p) = true := by
  simp [wellFormedFrame, encFrame, frameBytes, covered, header, toNat_ofNat_length hp]

theorem decFrame_encFrame (fc : Byte) {p : List Byte} (hp : p.length ≤ 255) :
    decFrame (encFrame fc p) = some (fc, p) := by
  have hwf := wellFormedFrame_encFrame fc hp
  simp only [encFrame, frameBytes, covered, header, List.cons_append, List.nil_append] at hwf ⊢
  simp [decFrame, hwf, toNat_ofNat_length hp]

/-- A well-formed frame is the encoding of its code and of the payload its length byte delimits (R103, R104). -/
theorem eq_encFrame_of_wellFormedFrame {s : List Byte} (h : wellFormedFrame s = true) :
    ∃ fc p, p.length ≤ 255 ∧ s = encFrame fc p := by
  unfold wellFormedFrame at h
  split at h
  next b0 b1 fc len body =>
    obtain ⟨rfl, rfl, hlen, hcks⟩ := of_decide_eq_true h
    have hp : (body.take len.toNat).length = len.toNat := by rw [List.length_take]; omega
    have hbody : body = body.take len.toNat ++ [sum8 (header fc len ++ body.take len.toNat)] := by
      calc body = body.take (len.toNat + 1) := (List.take_of_length_le hlen.le).symm
        _ = _ := by rw [List.take_add_one, hcks, Option.toList_some]
    refine ⟨fc, body.take len.toNat, by omega, ?_⟩
    rw [encFrame, frameBytes, covered, hp, BitVec.ofNat_toNat, BitVec.setWidth_eq]
    simpa [header] using hbody
  next => cases h

/-- Settles O4: the well-formed frames are the encodings, and each encoding decodes to what it encodes. -/
theorem frameCodecRoundTrip : Obligations.FrameCodecRoundTrip := by
  refine ⟨fun fc p hp => ⟨wellFormedFrame_encFrame fc hp, decFrame_encFrame fc hp⟩, fun s hs => ?_⟩
  obtain ⟨fc, p, hp, rfl⟩ := eq_encFrame_of_wellFormedFrame hs
  exact ⟨fc, p, decFrame_encFrame fc hp, hp, rfl⟩

end Sys2Proof

namespace Sys2Proof.Machine

theorem oversize_eq_false {k : Config} {l : Nat} (h : frameLen l ≤ k.w) : oversize k l = false :=
  decide_eq_false fun ho => Nat.not_lt.2 h ho.2

/-- Settles O40: the changed payload has another checksum than the one in the frame, so test 5 fires. -/
theorem corruptedPayloadIsRejected : Obligations.CorruptedPayloadIsRejected := by
  intro k fc p rest i b h hp ha hw hb
  have hlen : (p.set i b).length = p.length := List.length_set
  have hcks : sum8 (covered fc p) ≠ sum8 (covered fc (p.set i b)) := by
    have hsum : sum8 (p.set i b) ≠ sum8 p := singleByteChangeIsDetected p i b h hb
    rw [sum8_covered, sum8_covered, hlen]
    bv_omega
  have hscan := scanBytes_frame (cks := sum8 (covered fc p)) (rest := rest) (hlen.trans_le hp) ha
    (hlen.symm ▸ oversize_eq_false hw)
  rwa [if_neg hcks, hlen] at hscan

end Sys2Proof.Machine
end

section
/-! PROOFS. Which requests are refused (R114, R115): an instruction that can be presented is never refused by its meaning, so
only the fetch of a request refuses. -/

namespace Sys2Proof.Machine

/-! ## Meanings do not refuse -/

theorem answerOf_ne_refused (x : Except Fault State) (r : Refusal) : answerOf x ≠ .refused r := by
  cases x <;> nofun

/-- The only refusal by a meaning is of a length that cannot be presented (R20, R21). -/
theorem exec_ne_refused {k : Config} {i : Instr} (s : State) (r : Refusal) (hw : WellFormed k i = true) :
    exec i s ≠ .refused r := by
  cases i with
  | reset | pushMany | hasData | transmitOne | snapshotRunningState | snapshotConfig => nofun
  | frameUpdateRunningState | frameConfigUpdate | frameCardList | frameAlarmRecord => nofun
  | push b => exact answerOf_ne_refused _ r
  | takeByte =>
    simp only [exec, execTakeByte]
    split
    · nofun
    · split <;> nofun
  | service =>
    simp only [exec, execService]
    split <;> nofun
  | dispatch fc p =>
    rw [exec_dispatch fc s (payloadFits_eq_true.1 hw)]
    nofun
  | sendFrame fc p =>
    simp only [exec, execSendFrame, if_pos (show payloadFits p = true from hw)]
    split
    · nofun
    · exact answerOf_ne_refused _ r
  | frameIllegal fc len =>
    simp only [exec, execFrameIllegal]
    split <;> nofun

/-! ## Turns of the agents -/

theorem scanTurn_ne_refused (s : State) (r : Refusal) : (scanTurn s).answer ≠ .refused r := by
  cases hw : windowExhausted s with
  | true =>
    rw [scanTurn, if_pos hw]
    nofun
  | false =>
    cases hl : loadRange s.config .sw s.sw s.off (s.fill - s.off) with
    | error f =>
      rw [scanTurn, hw, if_neg Bool.false_ne_true, hl]
      nofun
    | ok bs =>
      obtain ⟨t, ht, -⟩ := scanDecoded_scanned hw fun i rest => exec_decoded_frame (s := s) (bs := bs)
      rw [scanTurn_eq_scanDecoded hw hl, ht]
      nofun

/-- No agent's turn but a request's refuses, when every held payload can be presented (R183). -/
theorem stepTurn_ne_refused {a : Turn} {s : State} (ha : a ≠ .request) (hs : ∀ x ∈ s.heldSends, x.2.length ≤ 255)
    (r : Refusal) : stepTurn a s ≠ .refused r := by
  rw [stepTurn_eq_answer]
  cases a with
  | request => exact absurd rfl ha
  | producer =>
    rw [takeTurn, producerTurn]
    split
    · nofun
    · exact answerOf_ne_refused _ r
  | consumer =>
    rw [takeTurn, consumerTurn]
    split
    · split
      · nofun
      · exact exec_ne_refused (k := s.config) (i := .service) _ r rfl
    · exact answerOf_ne_refused _ r
    · nofun
    · exact scanTurn_ne_refused s r
    · exact answerOf_ne_refused _ r
  | sender =>
    rw [takeTurn, senderTurn]
    split
    · split
      · nofun
      · split <;> nofun
    · split
      next => nofun
      next fc p rest hheld =>
        have hp : p.length ≤ 255 := hs (fc, p) (hheld ▸ List.mem_cons_self)
        exact exec_ne_refused (k := s.config) (i := .sendFrame fc p) _ r (payloadFits_eq_true.2 hp)

/-! ## Requests -/

/-- The tags of the operations that no agent can request (R114, R167). -/
theorem offered_eq_false_iff {t : Byte} {bs rest : List Byte} {i : Instr} (h : decodeOp (t :: bs) = .ok (i, rest)) :
    offered i = false ↔ t = 0x06 ∨ t = 0x08 := by
  obtain ⟨-, hbs⟩ := decodeOp_eq_ok Config.tcA h
  cases i with
  | dispatch | transmitOne | reset | push | pushMany | hasData | takeByte | service | sendFrame | snapshotRunningState
  | snapshotConfig =>
    obtain ⟨rfl, -⟩ := List.cons.inj hbs
    simp [offered]
  | frameUpdateRunningState | frameConfigUpdate | frameCardList | frameAlarmRecord | frameIllegal =>
    obtain ⟨rfl, -⟩ := List.cons.inj hbs
    cases h

theorem requestTurn_notOffered {s : State} {t : Byte} {bs rest : List Byte} {i : Instr} (hbs : s.requests = t :: bs)
    (hd : decodeOp s.requests = .ok (i, rest)) (ho : offered i = false) :
    requestTurn s = .done (.refused (.notOffered t)) := by
  rw [requestTurn, hd]
  simp [ho, hbs]

/-- A request turn refuses malformed requests, unused tags and what no agent can request, and nothing else. -/
theorem requestTurn_refused_iff (s : State) (r : Refusal) :
    (requestTurn s).answer = .refused r ↔
      (decodeOp s.requests = .error .badOperands ∧ r = .badOperands ∨
        (∃ t bs, s.requests = t :: bs ∧ 11 ≤ t.toNat ∧ r = .unusedTag t) ∨
        ∃ t bs i rest, s.requests = t :: bs ∧ (t = 0x06 ∨ t = 0x08) ∧ decodeOp s.requests = .ok (i, rest) ∧
          r = .notOffered t) := by
  constructor
  · intro h
    rcases decodeOp_cases s.config s.requests with ⟨-, hd⟩ | ⟨i, rest, hd, hw, -⟩ | ⟨t, bs, hbs, ht, hd⟩ | hd
    · rw [requestTurn, hd] at h
      cases h
    · cases ho : offered i with
      | true =>
        simp only [requestTurn, hd, ho, if_true] at h
        exact absurd h (exec_ne_refused _ r hw)
      | false =>
        obtain ⟨t, bs, hbs⟩ : ∃ t bs, s.requests = t :: bs :=
          List.exists_cons_of_ne_nil fun hnil => by rw [hnil] at hd; cases hd
        have ht := (offered_eq_false_iff (hbs ▸ hd)).1 ho
        rw [requestTurn_notOffered hbs hd ho] at h
        cases h
        exact .inr (.inr ⟨t, bs, i, rest, hbs, ht, hd, rfl⟩)
    · rw [requestTurn, hd] at h
      cases h
      exact .inr (.inl ⟨t, bs, hbs, ht, rfl⟩)
    · rw [requestTurn, hd] at h
      cases h
      exact .inl ⟨hd, rfl⟩
  · rintro (⟨hd, rfl⟩ | ⟨t, bs, hbs, ht, rfl⟩ | ⟨t, bs, i, rest, hbs, ht, hd, rfl⟩)
    · rw [requestTurn, hd]
      rfl
    · rw [requestTurn, hbs, decodeOp_unusedTag bs ht]
      rfl
    · have ho : offered i = false := (offered_eq_false_iff (hbs ▸ hd)).2 ht
      rw [requestTurn_notOffered hbs hd ho]
      rfl

/-- Settles O23: the request turn refuses what it says, and no other turn refuses. -/
theorem onlyMalformedRequestsAreRefused : Obligations.OnlyMalformedRequestsAreRefused := by
  rintro s r ⟨-, -, -, -, -, -, -, hheld⟩
  rw [step_is_turn]
  by_cases ht : nextTurn s = .request
  · rw [ht, stepTurn_eq_answer, takeTurn, requestTurn_refused_iff]
    simp only [true_and]
  · simp only [ht, false_and, iff_false]
    exact stepTurn_ne_refused (s := { s with turns := s.turns.tail }) ht hheld r

end Sys2Proof.Machine
end

section
/-! PROOFS. DISPATCH (42_frame_dispatcher.md): what its meaning does (R168 to R173), and that only the accept step shows one
(R114, R167). -/

namespace Sys2Proof.Machine

/-! ## Answers that show no DISPATCH -/

/-- No DISPATCH stands among what `t` shows beyond `s`. -/
def ShowsNoDispatch (s t : State) : Prop := ∀ fc l p, .dispatch fc l p ∉ t.trace.drop s.trace.length

theorem showsNoDispatch_of_trace_append {s t : State} {os : List Obs} (ht : t.trace = s.trace ++ os)
    (hos : ∀ fc l p, .dispatch fc l p ∉ os) : ShowsNoDispatch s t := by
  intro fc l p
  rw [ht, List.drop_left]
  exact hos fc l p

theorem showsNoDispatch_of_trace_eq {s t : State} (ht : t.trace = s.trace) : ShowsNoDispatch s t :=
  showsNoDispatch_of_trace_append (os := []) (by rw [ht, List.append_nil]) (by simp)

theorem exec_takeByte_showsNoDispatch {s t : State} (h : exec .takeByte s = .next t) : ShowsNoDispatch s t := by
  simp only [exec, execTakeByte] at h
  split at h
  next =>
    cases h
    exact showsNoDispatch_of_trace_append (os := [.event .underrun 0, .tookByte 0]) (by simp) (by simp)
  next =>
    cases ht : takeOp s with
    | error f => simp [ht] at h
    | ok x =>
      obtain ⟨v, u⟩ := x
      obtain ⟨-, rfl⟩ := takeOp_eq_ok ht
      rw [ht] at h
      cases h
      exact showsNoDispatch_of_trace_append rfl (by simp)

theorem serializeByte_showsNoDispatch (b : Byte) (s : State) : ShowsNoDispatch s (serializeByte b s) := by
  have hoffer : (transmitOp b s).trace = s.trace ++ [.transmit b (sinkAnswer s)] := rfl
  rcases serializeByte_cases b s with ⟨-, h⟩ | ⟨-, -, -, h⟩ | ⟨-, -, -, h⟩ | ⟨-, -, h⟩ <;> rw [h]
  · exact showsNoDispatch_of_trace_append hoffer (by simp)
  · exact showsNoDispatch_of_trace_append hoffer (by simp)
  · exact showsNoDispatch_of_trace_append hoffer (by simp)
  · exact showsNoDispatch_of_trace_append (os := [.transmit b (sinkAnswer s), .event .sinkFail 0]) (by simp [endSend])
      (by simp)

/-- No operation that can be requested shows a DISPATCH. -/
theorem exec_offered_showsNoDispatch {i : Instr} {s t : State} (ho : offered i = true) (h : exec i s = .next t) :
    ShowsNoDispatch s t := by
  cases i with
  | reset =>
    cases h
    intro fc l p
    simp
  | push b =>
    rcases exec_push_cases h with ⟨-, rfl⟩ | ⟨-, rfl⟩
    · exact showsNoDispatch_of_trace_append rfl (by simp)
    · exact showsNoDispatch_of_trace_eq rfl
  | pushMany bs =>
    cases h
    exact showsNoDispatch_of_trace_eq rfl
  | takeByte => exact exec_takeByte_showsNoDispatch h
  | service => exact showsNoDispatch_of_trace_eq (by rw [exec_service_frame h])
  | sendFrame fc p => exact showsNoDispatch_of_trace_eq (by rw [exec_sendFrame_frame h])
  | hasData | snapshotRunningState | snapshotConfig =>
    cases h
    exact showsNoDispatch_of_trace_append rfl (by simp)
  | dispatch | transmitOne | frameUpdateRunningState | frameConfigUpdate | frameCardList | frameAlarmRecord
  | frameIllegal => cases ho

/-- No turn but the consumer's shows a DISPATCH. -/
theorem stepTurn_showsNoDispatch {a : Turn} {s t : State} (ha : a ≠ .consumer) (h : stepTurn a s = .next t) :
    ShowsNoDispatch s t := by
  rw [stepTurn_eq_answer] at h
  cases a with
  | consumer => exact absurd rfl ha
  | request =>
    rw [takeTurn] at h
    rcases requestTurn_cases s with ⟨i, rest, -, ho, hr⟩ | ⟨_, _, -, -, hr⟩ | ⟨-, hr⟩ | ⟨_, -, hr⟩ | ⟨_, -, -, -, hr⟩ <;>
      rw [hr] at h
    case inl => exact exec_offered_showsNoDispatch (s := { s with requests := rest }) ho h
    case inr.inr.inl =>
      cases h
      exact showsNoDispatch_of_trace_eq rfl
    all_goals cases h
  | producer =>
    rw [takeTurn, producerTurn] at h
    split at h
    next =>
      cases h
      exact showsNoDispatch_of_trace_eq rfl
    next b bs hb => exact exec_offered_showsNoDispatch (i := .push b) (s := { s with batch := bs }) rfl h
  | sender =>
    rw [takeTurn, senderTurn] at h
    split at h
    next =>
      split at h
      next =>
        cases h
        exact showsNoDispatch_of_trace_eq rfl
      next =>
        split at h <;> cases h
        exact serializeByte_showsNoDispatch _ s
    next =>
      split at h
      next =>
        cases h
        exact showsNoDispatch_of_trace_eq rfl
      next fc p rest hheld =>
        exact exec_offered_showsNoDispatch (i := .sendFrame fc p) (s := { s with heldSends := rest }) rfl h

/-! ## The consumer's turn -/

/-- Outside the scan no consumer turn shows a DISPATCH. -/
theorem consumerTurn_showsNoDispatch {s t : State} (hp : s.ph ≠ .scan) (h : (consumerTurn s).answer = .next t) :
    ShowsNoDispatch s t := by
  unfold consumerTurn at h
  split at h
  next =>
    split at h
    next =>
      cases h
      exact showsNoDispatch_of_trace_eq rfl
    next n hn => exact exec_offered_showsNoDispatch (i := .service) (s := { s with heldServices := n }) rfl h
  next => exact showsNoDispatch_of_trace_eq (by rw [drainTurn_frame (answerOf_eq_next h)])
  next =>
    cases h
    exact showsNoDispatch_of_trace_eq (by rw [gateTurn_frame])
  next hscan => exact absurd hscan hp
  next => exact showsNoDispatch_of_trace_eq (by rw [compactOp_frame (answerOf_eq_next h)])

/-- A scan iteration on a candidate accepts it, its code allowed and its checksum right, or shows no DISPATCH. -/
theorem frameIteration_accepts_or_showsNoDispatch (fc : Byte) (p : List Byte) (cks : Byte) (s : State) :
    fc ∈ s.config.allow ∧ sum8 (covered fc p) = cks ∧
      frameIteration fc p cks s = acceptFrame fc p (sumUp fc p (latch fc p.length s)) ∨
    ShowsNoDispatch s (frameIteration fc p cks s) := by
  rcases frameIteration_cases fc p cks s with ⟨-, h⟩ | ⟨-, -, h⟩ | ⟨-, -, -, h⟩ | ⟨-, -, -, -, h⟩ |
    ⟨-, ha, -, -, hcks, h⟩ | ⟨-, -, -, -, -, h⟩ <;> rw [h]
  · exact .inr (showsNoDispatch_of_trace_eq rfl)
  · exact .inr (showsNoDispatch_of_trace_append rfl (by simp))
  · exact .inr (showsNoDispatch_of_trace_append rfl (by simp))
  · exact .inr (showsNoDispatch_of_trace_eq rfl)
  · exact .inl ⟨ha, hcks, rfl⟩
  · exact .inr (showsNoDispatch_of_trace_append rfl (by simp))

theorem exec_frameIllegal_showsNoDispatch {fc len : Byte} {s t : State} (h : exec (.frameIllegal fc len) s = .next t) :
    ShowsNoDispatch s t := by
  rcases exec_frameIllegal_cases h with rfl | ⟨-, rfl⟩
  · exact showsNoDispatch_of_trace_eq rfl
  · exact showsNoDispatch_of_trace_append rfl (by simp)

/-- Where the fetch itself ends the iteration, no frame was accepted (R141, R142, R146, R148). -/
theorem scanDecoded_error_showsNoDispatch {e : DecodeError} {s t : State}
    (h : (scanDecoded s (.error e)).answer = .next t) : ShowsNoDispatch s t := by
  cases e with
  | incomplete fc len =>
    by_cases ho : oversize s.config len.toNat = true
    · obtain rfl : rejectOversize fc len.toNat s = t :=
        Host.Outcome.next.inj ((congrArg Fetched.answer (if_pos ho)).symm.trans h)
      exact showsNoDispatch_of_trace_append rfl (by simp)
    · obtain rfl : endScan (latch fc len.toNat s) = t :=
        Host.Outcome.next.inj ((congrArg Fetched.answer (if_neg ho)).symm.trans h)
      exact showsNoDispatch_of_trace_eq rfl
  | noMarker =>
    obtain rfl : rejectSync s = t := Host.Outcome.next.inj h
    exact showsNoDispatch_of_trace_append rfl (by simp)
  | noBytes | unusedTag | badOperands | shortHeader =>
    obtain rfl : endScan s = t := Host.Outcome.next.inj h
    exact showsNoDispatch_of_trace_eq rfl

/-- A scan turn accepts the whole frame that stands at `OFF`, its code allowed, or shows no DISPATCH. -/
theorem scanTurn_accepts_or_showsNoDispatch {s t : State} (hwin : WindowInv s) (hp : s.ph = .scan)
    (h : (scanTurn s).answer = .next t) :
    (∃ fc p rest, fc ∈ s.config.allow ∧ p.length ≤ 255 ∧ (windowBytes s).drop s.off = encFrame fc p ++ rest ∧
      t = acceptFrame fc p (sumUp fc p (latch fc p.length s))) ∨ ShowsNoDispatch s t := by
  cases hw : windowExhausted s with
  | true =>
    rw [scanTurn, if_pos hw] at h
    cases h
    exact .inr (showsNoDispatch_of_trace_eq rfl)
  | false =>
    rw [scanTurn_eq_scanDecoded hw (loadRange_rest hwin (off_le_fill hwin (.inl hp)))] at h
    cases hd : decodeFrame s.config ((windowBytes s).drop s.off) with
    | ok x =>
      rw [hd] at h
      obtain ⟨i, rest⟩ := x
      rcases decodeFrame_ok_bytes hd with ⟨fc, len, hc, rfl, -⟩ | ⟨fc, p, cks, hc, hfit, rfl, hbs⟩
      · exact .inr (exec_frameIllegal_showsNoDispatch (len := len) h)
      · have ht : frameIteration fc p cks s = t :=
          Host.Outcome.next.inj ((exec_frameOf p cks rfl hc).symm.trans h)
        rw [← ht]
        refine (frameIteration_accepts_or_showsNoDispatch fc p cks s).imp_left fun ⟨ha, hcks, heq⟩ => ?_
        exact ⟨fc, p, rest, ha, hfit, by rw [hbs, encFrame, hcks], heq⟩
    | error e =>
      rw [hd] at h
      exact .inr (scanDecoded_error_showsNoDispatch h)

theorem consumerTurn_scan {s : State} (hp : s.ph = .scan) : consumerTurn s = scanTurn s := by
  rw [consumerTurn, hp]

/-- A turn that shows a DISPATCH is the consumer's of the scan, and accepts the whole frame at `OFF` (R114, R167). -/
theorem stepTurn_accepts_of_dispatch {a : Turn} {s t : State} {fc : Byte} {l : Nat} {p : List Byte} (hwin : WindowInv s)
    (h : stepTurn a s = .next t) (hd : .dispatch fc l p ∈ t.trace.drop s.trace.length) :
    a = .consumer ∧ s.ph = .scan ∧
      ∃ fc p rest, fc ∈ s.config.allow ∧ p.length ≤ 255 ∧ (windowBytes s).drop s.off = encFrame fc p ++ rest ∧
        t = acceptFrame fc p (sumUp fc p (latch fc p.length s)) := by
  have hshows : ¬ShowsNoDispatch s t := fun hn => hn fc l p hd
  obtain rfl : a = .consumer := by
    by_contra ha
    exact hshows (stepTurn_showsNoDispatch ha h)
  rw [stepTurn_eq_answer, takeTurn] at h
  have hp : s.ph = .scan := by
    by_contra hne
    exact hshows (consumerTurn_showsNoDispatch hne h)
  rw [consumerTurn_scan hp] at h
  exact ⟨rfl, hp, (scanTurn_accepts_or_showsNoDispatch hwin hp h).resolve_right hshows⟩

/-! ## DISPATCH -/

/-- The DISPATCH among what an accepted frame shows is the frame's own. -/
theorem dispatch_mem_acceptObs {k : Config} {fc fc' : Byte} {l : Nat} {p p' : List Byte}
    (h : .dispatch fc l p ∈ acceptObs k fc' p') : fc = fc' ∧ l = p'.length ∧ p = p' := by
  unfold acceptObs dispatchObs at h
  split at h
  · split at h <;> simpa using h
  · simpa using h

/-- EV_FRAME and then DISPATCH show what an accepted frame shows (R151). -/
theorem shows_frame_dispatch (fc : Byte) (p : List Byte) (s : State) :
    Shows s (dispatchOp fc p (emit .frame p.length s)) (acceptObs s.config fc p) := by
  have hframe : Shows s (emit .frame p.length s) [.event .frame p.length] := shows_event _ _ rfl rfl rfl rfl rfl
  exact hframe.trans (shows_dispatchOp fc p _)

/-- The accept step shows, and leaves in RUN and the counters, what its DISPATCH does, whatever was latched. -/
theorem shows_acceptFrame (fc : Byte) (p : List Byte) (s : State) :
    Shows s (acceptFrame fc p (sumUp fc p (latch fc p.length s))) (acceptObs s.config fc p) := by
  obtain ⟨hrun, hcounters, htrace⟩ := acceptFrame_dispatch fc p s
  have hdispatch := shows_frame_dispatch fc p s
  exact
    { config := by rw [acceptFrame, advance_config, dispatchOp_config]; rfl
      cfg := by rw [acceptFrame, advance_cfg, dispatchOp_cfg]; rfl
      trace := htrace.trans hdispatch.trace
      counters := hcounters.trans hdispatch.counters
      run := hrun.trans hdispatch.run
      lengths := hdispatch.lengths }

theorem acceptFrame_off (fc : Byte) (p : List Byte) (s : State) : (acceptFrame fc p s).off = s.off + frameLen p.length := by
  rw [acceptFrame, dispatchOp_frame]
  rfl

/-- Settles O47: the meaning by its three outcomes; a step that shows a DISPATCH accepts the frame at `OFF`, and from the same
state EV_FRAME and exec of the DISPATCH show the same. -/
theorem dispatchReplacesRejectsOrIgnores : Obligations.DispatchReplacesRejectsOrIgnores := by
  refine ⟨fun s fc p hp => ?meaning, fun s t fc l p hs h hd => ?step⟩
  case meaning =>
    rw [exec_dispatch fc s hp, dispatchOp_eq]
    refine ⟨fun hf hl => ?_, fun hf hl => ?_, fun hf => ?_⟩
    · rw [if_pos hf, if_pos hl]
      rfl
    · rw [if_pos hf, if_neg hl]
      simp [emit, note]
    · rw [if_neg hf]
      simp [emit, note]
  case step =>
    obtain ⟨-, -, hwin, -, -⟩ := hs
    rw [step_is_turn] at h
    obtain ⟨hturn, hscan, fc', p', rest, ha, hp, hbs, ht⟩ := stepTurn_accepts_of_dispatch (s := { s with turns := s.turns.tail }) hwin h hd
    have hshows := ht ▸ shows_acceptFrame fc' p' { s with turns := s.turns.tail }
    have htrace : t.trace = s.trace ++ acceptObs s.config fc' p' := hshows.trace
    rw [htrace, List.drop_left] at hd
    obtain ⟨rfl, rfl, rfl⟩ := dispatch_mem_acceptObs hd
    have hexec := shows_frame_dispatch fc p s
    refine ⟨hturn, hscan, ha, rfl, ⟨rest, hbs⟩, ht ▸ acceptFrame_off fc p _, htrace, _, exec_dispatch fc _ hp, ?_⟩
    exact ⟨hshows.run.trans hexec.run.symm, hshows.counters.trans hexec.counters.symm, htrace.trans hexec.trace.symm⟩

end Sys2Proof.Machine
end

section
/-! PROOFS. The ring buffer's operations run forward: what PUSH, a batch of PUSHes and TAKE_BYTE leave of the cursors,
the flags and the live bytes, and what any step does to the ring. -/

namespace Sys2Proof.Machine

/-! ## Flags and occupancy -/

/-- With two slots or more no slot is its own successor. -/
theorem incC_ne_self {k : Config} (hk : 2 ≤ k.c) (x : Nat) : incC k x ≠ x := by
  unfold incC
  split <;> omega

theorem rbFull_eq_true {s : State} : rbFull s = true ↔ incC s.config s.wr = s.rd := decide_eq_true_iff

theorem rbFull_eq_false {s : State} : rbFull s = false ↔ incC s.config s.wr ≠ s.rd := decide_eq_false_iff_not

/-- HAS_DATA says that the ring is not empty (R44, R118). -/
theorem hasDataFlag_eq_true {s : State} (h : CursorsInRange s) : hasDataFlag s = true ↔ occ s ≠ 0 :=
  decide_eq_true_iff.trans (not_congr (occ_eq_zero h)).symm

theorem occ_le {s : State} (h : CursorsInRange s) : occ s ≤ s.config.c - 1 := Nat.le_sub_one_of_lt (occ_lt h)

/-! ## PUSH -/

/-- PUSH on a full ring is EV_DROP and nothing else (R119). -/
theorem exec_push_full {s : State} (b : Byte) (h : CursorsInRange s) (hf : incC s.config s.wr = s.rd) :
    exec (.push b) s = .next (emit .drop 0 s) := by
  obtain ⟨-, hp⟩ | ⟨hn, -⟩ := pushOp_cases b h
  · exact congrArg answerOf hp
  · exact absurd hf hn

/-- `s` with `b` accepted: stored at `WR`, and `WR` moved on (R119). -/
def accept (b : Byte) (s : State) : State :=
  { s with rb := s.rb.write s.wr b, wr := incC s.config s.wr, accepted := s.accepted ++ [b] }

/-- PUSH on any other ring accepts its byte (R119). -/
theorem exec_push_accepts {s : State} (b : Byte) (h : CursorsInRange s) (hf : incC s.config s.wr ≠ s.rd) :
    exec (.push b) s = .next (accept b s) := by
  obtain ⟨hy, -⟩ | ⟨-, hp⟩ := pushOp_cases b h
  · exact absurd hy hf
  · exact congrArg answerOf hp

theorem cursorsInRange_accept {s : State} (b : Byte) (h : CursorsInRange s) : CursorsInRange (accept b s) :=
  ⟨h.1, incC_lt h.2⟩

theorem occ_accept {s : State} (b : Byte) (h : CursorsInRange s) (hf : incC s.config s.wr ≠ s.rd) :
    occ (accept b s) = occ s + 1 := occ_push _ _ h hf

theorem liveBytes_accept {s : State} (b : Byte) (h : CursorsInRange s) (hf : incC s.config s.wr ≠ s.rd) :
    liveBytes (accept b s) = liveBytes s ++ [b] := liveBytes_push b _ h hf

/-- The flags an accepted byte leaves: the ring holds a byte, and is full if the byte is its `(C-1)`-th (R119). -/
theorem flags_accept {s : State} (b : Byte) (hk : 2 ≤ s.config.c) (h : CursorsInRange s)
    (hf : incC s.config s.wr ≠ s.rd) :
    hasDataFlag (accept b s) = true ∧ (rbFull (accept b s) = true ↔ occ s + 2 = s.config.c) := by
  have hc := cursorsInRange_accept b h
  rw [hasDataFlag_eq_true hc, rbFull_eq_true, occ_full hc hk, occ_accept b h hf]
  exact ⟨Nat.succ_ne_zero _, Iff.rfl⟩

/-! ## A batch of PUSHes -/

/-- The bytes of a batch for which the ring has room: the oldest (R122). -/
def fitting (s : State) (bs : List Byte) : List Byte := bs.take (s.config.c - 1 - occ s)

/-- What the other bytes of the batch show: one EV_DROP each. -/
def dropsOf (s : State) (bs : List Byte) : List Obs :=
  List.replicate (bs.length - (fitting s bs).length) (.event .drop 0)

/-- `t` is `s` after the PUSHes of `bs`, with `rest` still to be pushed. -/
structure Batched (s t : State) (bs rest : List Byte) : Prop where
  frame : t = { s with
    rb := t.rb, wr := t.wr, batch := rest, accepted := s.accepted ++ fitting s bs
    counters := countersAfter s.config s.counters (dropsOf s bs), trace := s.trace ++ dropsOf s bs }
  live : liveBytes t = liveBytes s ++ fitting s bs
  cursors : CursorsInRange t

theorem fitting_full {s : State} (bs : List Byte) (h : occ s + 1 = s.config.c) : fitting s bs = [] := by
  rw [fitting, ← h, Nat.add_sub_cancel, Nat.sub_self, List.take_zero]

/-- On a full ring every byte of the batch is dropped. -/
theorem dropsOf_full {s : State} (bs : List Byte) (h : occ s + 1 = s.config.c) :
    dropsOf s bs = List.replicate bs.length (.event .drop 0) := by
  rw [dropsOf, fitting_full bs h, List.length_nil, Nat.sub_zero]

/-- A byte accepted leaves room for one byte less. -/
theorem fitting_cons {s : State} (b : Byte) (bs : List Byte) (h : CursorsInRange s) (hk : 2 ≤ s.config.c)
    (hf : incC s.config s.wr ≠ s.rd) : fitting s (b :: bs) = b :: fitting (accept b s) bs := by
  have hlt := occ_lt h
  have hfull := mt (occ_full h hk).2 hf
  have hroom : s.config.c - 1 - occ s = ((accept b s).config.c - 1 - occ (accept b s)) + 1 := by
    rw [occ_accept b h hf, show (accept b s).config = s.config from rfl]
    omega
  rw [fitting, fitting, hroom, List.take_succ_cons]

theorem dropsOf_cons {s : State} (b : Byte) (bs : List Byte) (h : CursorsInRange s) (hk : 2 ≤ s.config.c)
    (hf : incC s.config s.wr ≠ s.rd) : dropsOf s (b :: bs) = dropsOf (accept b s) bs := by
  rw [dropsOf, dropsOf, fitting_cons b bs h hk hf, List.length_cons, List.length_cons, Nat.add_sub_add_right]

theorem batched_nil {s : State} {rest : List Byte} (h : CursorsInRange s) (hb : s.batch = rest) :
    Batched s s [] rest := by
  have hfit : fitting s [] = [] := List.take_nil
  have hdrops : dropsOf s [] = [] := by rw [dropsOf, List.length_nil, Nat.zero_sub, List.replicate_zero]
  refine ⟨?_, by rw [hfit, List.append_nil], h⟩
  rw [hfit, hdrops, List.append_nil, List.append_nil, ← hb]
  rfl

/-- A byte dropped, then the rest of the batch dropped. -/
theorem Batched.cons_full {s t : State} {b : Byte} {bs rest w : List Byte} (ho : occ s + 1 = s.config.c)
    (h : Batched (emit .drop 0 { s with batch := w }) t bs rest) : Batched s t (b :: bs) rest := by
  have ho' : occ (emit .drop 0 { s with batch := w }) + 1 = s.config.c := ho
  obtain ⟨hframe, hlive, hcur⟩ := h
  rw [fitting_full bs ho', dropsOf_full bs ho'] at hframe
  rw [fitting_full bs ho'] at hlive
  refine ⟨hframe.trans ?_, by rw [hlive, fitting_full _ ho]; rfl, hcur⟩
  rw [fitting_full _ ho, dropsOf_full _ ho, List.length_cons, List.replicate_succ, countersAfter_event]
  simp

/-- A byte accepted, then the rest of the batch pushed behind it. -/
theorem Batched.cons_room {s t : State} {b : Byte} {bs rest w : List Byte} (hs : CursorsInRange s)
    (hk : 2 ≤ s.config.c) (hf : incC s.config s.wr ≠ s.rd)
    (h : Batched (accept b { s with batch := w }) t bs rest) : Batched s t (b :: bs) rest := by
  have hlive1 : liveBytes (accept b { s with batch := w }) = liveBytes s ++ [b] :=
    liveBytes_accept (s := { s with batch := w }) b hs hf
  have hfit : fitting s (b :: bs) = b :: fitting (accept b { s with batch := w }) bs :=
    fitting_cons (s := { s with batch := w }) b bs hs hk hf
  have hdrops : dropsOf s (b :: bs) = dropsOf (accept b { s with batch := w }) bs :=
    dropsOf_cons (s := { s with batch := w }) b bs hs hk hf
  obtain ⟨hframe, hlive, hcur⟩ := h
  refine ⟨hframe.trans ?_, ?_, hcur⟩
  · rw [hfit, hdrops, List.append_cons]
    rfl
  · rw [hlive, hlive1, hfit, ← List.append_cons]

/-- The producer's turns push the batch byte by byte; with no consumer step in between the first that fit are kept
(R122). -/
theorem runTurns_producer_batched {s : State} (bs rest : List Byte) (hk : 2 ≤ s.config.c) (h : CursorsInRange s)
    (hb : s.batch = bs ++ rest) :
    ∃ t, runTurns (List.replicate bs.length .producer) s = .next t ∧ Batched s t bs rest := by
  induction bs generalizing s with
  | nil => exact ⟨s, rfl, batched_nil h hb⟩
  | cons b bs ih =>
    have hturn : stepTurn .producer s = exec (.push b) { s with batch := bs ++ rest } := stepTurn_producer_cons hb
    by_cases hf : incC s.config s.wr = s.rd
    · rw [exec_push_full (s := { s with batch := bs ++ rest }) b h hf] at hturn
      obtain ⟨t, hrun, ht⟩ := ih (s := emit .drop 0 { s with batch := bs ++ rest }) hk h rfl
      exact ⟨t, (runTurns_cons_next _ hturn).trans hrun, ht.cons_full ((occ_full h hk).1 hf)⟩
    · rw [exec_push_accepts (s := { s with batch := bs ++ rest }) b h hf] at hturn
      obtain ⟨t, hrun, ht⟩ := ih (s := accept b { s with batch := bs ++ rest }) hk (cursorsInRange_accept b h) rfl
      exact ⟨t, (runTurns_cons_next _ hturn).trans hrun, ht.cons_room h hk hf⟩

/-! ## TAKE_BYTE -/

/-- The byte at `RD`; an element nothing has written shows as 0, as in `liveBytes`. -/
def oldest (s : State) : Byte := (s.rb.read s.rd).getD 0

/-- `s` with its oldest byte taken: `RD` moved on (R126). -/
def takeOldest (s : State) : State := { s with rd := incC s.config s.rd, taken := s.taken ++ [oldest s] }

/-- TAKE_BYTE on a ring that is not empty takes and returns the oldest byte (R126). -/
theorem exec_takeByte_takes {s : State} (h : RingInv s) (hd : s.rd ≠ s.wr) :
    exec .takeByte s = .next (note (.tookByte (oldest s)) (takeOldest s)) := by
  simp only [exec, execTakeByte, if_neg hd, takeOp_ok h hd, oldest, takeOldest]

theorem cursorsInRange_takeOldest {s : State} (h : CursorsInRange s) : CursorsInRange (takeOldest s) :=
  ⟨incC_lt h.1, h.2⟩

theorem liveBytes_takeOldest {s : State} (h : CursorsInRange s) (hd : s.rd ≠ s.wr) :
    liveBytes s = oldest s :: liveBytes (takeOldest s) := liveBytes_take _ h hd

/-- TAKE_BYTE on an empty ring returns 0x00 with EV_UNDERRUN (R127). -/
theorem exec_takeByte_empty {s : State} (hd : s.rd = s.wr) :
    exec .takeByte s = .next (note (.tookByte 0) (emit .underrun 0 s)) := by
  simp only [exec, execTakeByte, if_pos hd]

/-- After a take the ring has room (R126). -/
theorem rbFull_takeOldest {s : State} (hk : 2 ≤ s.config.c) (h : CursorsInRange s) (hd : s.rd ≠ s.wr) :
    rbFull (takeOldest s) = false := by
  have hocc : occ (takeOldest s) + 1 = occ s := occ_take _ h hd
  have hlt : occ s < (takeOldest s).config.c := occ_lt h
  rw [rbFull_eq_false, Ne, occ_full (cursorsInRange_takeOldest h) hk, hocc]
  exact Nat.ne_of_lt hlt

/-- HAS_DATA says that there are live bytes (R44). -/
theorem hasDataFlag_eq_true_iff_live {s : State} (h : CursorsInRange s) :
    hasDataFlag s = true ↔ liveBytes s ≠ [] := by
  rw [hasDataFlag_eq_true h, Ne, Ne, ← List.length_eq_zero_iff, liveBytes_length]

/-! ## What any step does to the ring -/

/-- A move of the ring is one from any state with the same ring. -/
theorem RingMove.of_sameRing {s u t : State} (hu : SameRing s u) (h : RingMove u t) : RingMove s t := by
  obtain ⟨hk, hrb, hwr, hrd, hacc, htk⟩ := hu
  cases h with
  | stays h =>
    obtain ⟨k, rb, wr, rd, acc, tk⟩ := h
    exact .stays ⟨k.trans hk, rb.trans hrb, wr.trans hwr, rd.trans hrd, acc.trans hacc, tk.trans htk⟩
  | pushed b hf h =>
    obtain ⟨k, rb, wr, rd, acc, tk⟩ := h
    simp only [hk, hrb, hwr, hrd, hacc, htk] at hf k rb wr rd acc tk
    exact .pushed b hf ⟨k, rb, wr, rd, acc, tk⟩
  | taken v hd hv h =>
    obtain ⟨k, rb, wr, rd, acc, tk⟩ := h
    simp only [hk, hrb, hwr, hrd, hacc, htk] at hd hv k rb wr rd acc tk
    exact .taken v hd hv ⟨k, rb, wr, rd, acc, tk⟩

/-- A step with a next state is RESET, or moves the ring in one of three ways. -/
theorem step_ring_cases {s t : State} (h : step s = .next t) :
    (∃ u, fetch s = .instr .reset u ∧ u.config = s.config ∧ t = resetOp u) ∨ RingMove s t := by
  obtain ⟨u, hu, ⟨hf, rfl⟩ | he⟩ := step_next_cases h
  · exact .inl ⟨u, hf, hu.sameRing.config, rfl⟩
  · exact .inr (he.ringMove.of_sameRing hu.sameRing)

theorem RingMove.config {s t : State} (h : RingMove s t) : t.config = s.config := by
  cases h with
  | stays h => exact h.config
  | pushed b hf h => exact h.config
  | taken v hd hv h => exact h.config

/-- While `RD` stays, a ring that holds a byte goes on holding one (R123). -/
theorem RingMove.not_empty {s t : State} (h : RingMove s t) (hk : 2 ≤ s.config.c) (hd : s.rd ≠ s.wr)
    (hrd : t.rd = s.rd) : t.rd ≠ t.wr := by
  cases h with
  | stays h =>
    rw [h.rd, h.wr]
    exact hd
  | pushed b hf h =>
    rw [h.rd, h.wr]
    exact hf.symm
  | taken v _ hv h => exact absurd (h.rd.symm.trans hrd) (incC_ne_self hk _)

/-- Each cursor moves by its successor, once for the byte accepted or taken, or stays (R117). -/
theorem RingMove.cursors {s t : State} (h : RingMove s t) :
    (t.wr = s.wr ∧ t.accepted = s.accepted ∨ t.wr = incC s.config s.wr ∧ ∃ b, t.accepted = s.accepted ++ [b]) ∧
      (t.rd = s.rd ∧ t.taken = s.taken ∨ t.rd = incC s.config s.rd ∧ ∃ b, t.taken = s.taken ++ [b]) := by
  cases h with
  | stays h => exact ⟨.inl ⟨h.wr, h.accepted⟩, .inl ⟨h.rd, h.taken⟩⟩
  | pushed b _ h => exact ⟨.inr ⟨h.wr, b, h.accepted⟩, .inl ⟨h.rd, h.taken⟩⟩
  | taken v _ _ h => exact ⟨.inl ⟨h.wr, h.accepted⟩, .inr ⟨h.rd, v, h.taken⟩⟩

theorem RingMove.cursorsInRange {s t : State} (h : RingMove s t) (hs : CursorsInRange s) : CursorsInRange t := by
  obtain ⟨hwr, hrd⟩ := h.cursors
  rw [CursorsInRange, h.config]
  exact ⟨hrd.elim (fun ⟨e, _⟩ => e ▸ hs.1) fun ⟨e, _⟩ => e ▸ incC_lt hs.1,
    hwr.elim (fun ⟨e, _⟩ => e ▸ hs.2) fun ⟨e, _⟩ => e ▸ incC_lt hs.2⟩

end Sys2Proof.Machine
end

section
/-! PROOFS. The statements of 40_ring_buffer.md: PUSH and PUSH_MANY, HAS_DATA, TAKE_BYTE, and the cursors. -/

namespace Sys2Proof.Machine

/-- Settles O13: PUSH by whether the ring is full, and the flags from the occupancy, one more than before. -/
theorem pushStoresOrDrops : Obligations.PushStoresOrDrops := by
  intro b s hk hs
  refine ⟨fun hfull => exec_push_full b hs (rbFull_eq_true.1 hfull), fun hroom => ?_⟩
  have hf := rbFull_eq_false.1 hroom
  exact ⟨_, exec_push_accepts b hs hf, rfl, flags_accept b hk.1 hs hf⟩

/-- Settles O14: the first `n` producer turns push the first `n` bytes of the batch, by induction on them. -/
theorem pushManyKeepsThePrefixThatFits : Obligations.PushManyKeepsThePrefixThatFits := by
  refine ⟨fun _ _ => rfl, fun bytes n s hs hb hn => ?_⟩
  obtain ⟨hk, ⟨hcur, -⟩, -⟩ := hs
  have hbatch : s.batch ++ bytes = bytes.take n ++ bytes.drop n := by rw [hb, List.nil_append, List.take_append_drop]
  obtain ⟨t, hrun, ht⟩ := runTurns_producer_batched (s := { s with batch := s.batch ++ bytes }) _ _ hk.1 hcur hbatch
  have hlen : (bytes.take n).length = n := List.length_take_of_le hn
  have hframe := ht.frame
  have hconfig : t.config = s.config := by rw [hframe]
  rw [hlen] at hrun
  rw [dropsOf, hlen] at hframe
  exact ⟨t, hrun, hframe, ht.live, hconfig ▸ occ_le ht.cursors, ht.cursors, hasDataFlag_eq_true ht.cursors⟩

/-- Settles O15: only a take moves `RD`, an accepted PUSH never moves `WR` onto it, and an empty ring is not full. -/
theorem hasDataReportsTheCursors : Obligations.HasDataReportsTheCursors := by
  refine fun s => ⟨rfl, fun hk _ hd t h hrd hreset => ?stays, fun hk hs he b => ?becomes⟩
  case stays =>
    obtain ⟨u, hf, -⟩ | hmove := step_ring_cases h
    · exact absurd hf (hreset u)
    · exact hmove.not_empty hk.1 hd hrd
  case becomes =>
    have hf : incC s.config s.wr ≠ s.rd := he ▸ incC_ne_self hk.1 s.wr
    exact ⟨_, exec_push_accepts b hs hf, hf.symm⟩

/-- Settles O16: the byte at `RD` is the first of the live bytes, and the flags follow from the occupancy, one less than
before. -/
theorem takeByteRemovesTheOldest : Obligations.TakeByteRemovesTheOldest := by
  rintro s ⟨hk, hring, -⟩
  have hcur := hring.1
  refine ⟨fun hd => ?takes, fun he => ?empty⟩
  case takes =>
    have hflag := hasDataFlag_eq_true_iff_live (cursorsInRange_takeOldest hcur)
    exact ⟨oldest s, liveBytes (takeOldest s), _, liveBytes_takeOldest hcur hd, exec_takeByte_takes hring hd, rfl,
      rfl, rbFull_takeOldest hk.1 hcur hd, hflag⟩
  case empty =>
    rw [exec_takeByte_empty he]
    simp [note, emit]

/-- Settles O17: the occupancy by where the cursors stand, and no move of the ring takes a cursor out of it. -/
theorem occupancyDecidesEmptyAndFull : Obligations.OccupancyDecidesEmptyAndFull := by
  refine ⟨by decide, fun s hk hs => ⟨(occ_eq_zero hs).symm, ?full, occ_le hs, fun t h => ?kept⟩⟩
  case full =>
    have hc : 2 ≤ s.config.c := hk.1
    rw [occ_full hs hc]
    omega
  case kept =>
    obtain ⟨u, -, hconfig, rfl⟩ | hmove := step_ring_cases h
    · have hc : 0 < u.config.c := hconfig ▸ Nat.zero_lt_of_lt hs.1
      exact ⟨hc, hc⟩
    · exact hmove.cursorsInRange hs

/-- Settles O18: each of the three moves of the ring moves a cursor at most once. -/
theorem cursorsMoveByOne : Obligations.CursorsMoveByOne := by
  refine ⟨fun k x hx => ⟨incC_lt hx, incC_eq_mod hx⟩, fun s t h => ?_⟩
  obtain ⟨u, hf, hconfig, rfl⟩ | hmove := step_ring_cases h
  · exact ⟨hconfig, .inr ⟨⟨u, hf⟩, rfl, rfl⟩⟩
  · exact ⟨hmove.config, .inl hmove.cursors⟩

end Sys2Proof.Machine
end

section
/-! PROOFS. The scan iteration (41_frame_scanner.md R140 to R152): the meaning of a frame by which of its tests fires, and
the table of R157 as a relation between the unscanned rest and what the iteration does. -/

namespace Sys2Proof.Machine

/-! ## The tests on a candidate -/

theorem windowExhausted_eq_true {s : State} : windowExhausted s = true ↔ s.fill - s.off < 4 := decide_eq_true_iff

theorem windowExhausted_eq_false {s : State} : windowExhausted s = false ↔ 4 ≤ s.fill - s.off :=
  decide_eq_false_iff_not.trans Nat.not_lt

theorem oversize_eq_true {k : Config} {l : Nat} (hf : k.forceAdvance = true) (h : k.w < frameLen l) :
    oversize k l = true := decide_eq_true ⟨hf, h⟩

theorem oversize_eq_false_iff {k : Config} {l : Nat} :
    oversize k l = false ↔ ¬(k.forceAdvance = true ∧ k.w < frameLen l) := decide_eq_false_iff_not

/-- Test 0 ends the scan (R141). -/
theorem frameIteration_exhausted {fc : Byte} {p : List Byte} {cks : Byte} {s : State} (hw : windowExhausted s = true) :
    frameIteration fc p cks s = endScan s := if_pos hw

/-- Test 3: the frame can never fit (R146). -/
theorem frameIteration_oversized {fc : Byte} {p : List Byte} {cks : Byte} {s : State} (hw : windowExhausted s = false)
    (ha : fc ∈ s.config.allow) (ho : oversize s.config p.length = true) :
    frameIteration fc p cks s = rejectOversize fc p.length s := by
  simp [frameIteration, hw, ha, ho]

/-- Test 4: the frame is not all there (R148). -/
theorem frameIteration_incomplete {fc : Byte} {p : List Byte} {cks : Byte} {s : State} (hw : windowExhausted s = false)
    (ha : fc ∈ s.config.allow) (ho : oversize s.config p.length = false) (hi : s.fill < s.off + frameLen p.length) :
    frameIteration fc p cks s = endScan (latch fc p.length s) := by
  have hc : candidateIncomplete p.length s = true := decide_eq_true hi
  simp [frameIteration, hw, ha, ho, hc]

/-- Test 5 and accept: a frame that is all there is decided by its checksum (R149 to R152). -/
theorem frameIteration_whole {fc : Byte} {p : List Byte} {cks : Byte} {s : State} (ha : fc ∈ s.config.allow)
    (ho : oversize s.config p.length = false) (h : s.off + frameLen p.length ≤ s.fill) :
    frameIteration fc p cks s =
      if sum8 (covered fc p) = cks then acceptFrame fc p (sumUp fc p (latch fc p.length s))
      else rejectChecksum p.length (sumUp fc p (latch fc p.length s)) := by
  have hw : windowExhausted s = false := windowExhausted_eq_false.2 (by unfold frameLen at h; omega)
  have hc : candidateIncomplete p.length s = false := decide_eq_false (Nat.not_lt.2 h)
  simp [frameIteration, hw, ha, ho, hc]

/-- The state that an accepted frame leaves (R151, R152, R168). -/
theorem acceptFrame_eq (fc : Byte) (p : List Byte) (s : State) :
    acceptFrame fc p (sumUp fc p (latch fc p.length s)) = { s with
      off := s.off + frameLen p.length, fcLatch := fc, lLatch := BitVec.ofNat 8 p.length
      sum := sum8 (covered fc p), idx := 4 + p.length
      run := if fc = s.config.fcRun ∧ p.length = s.config.runSize then p else s.run
      counters := countersAfter s.config s.counters (acceptObs s.config fc p)
      trace := s.trace ++ acceptObs s.config fc p } := by
  have hshows := shows_acceptFrame fc p s
  have hrun : (acceptFrame fc p (sumUp fc p (latch fc p.length s))).run =
      if fc = s.config.fcRun ∧ p.length = s.config.runSize then p else s.run := dispatchOp_run fc p _
  rw [← hrun, ← hshows.counters, ← hshows.trace, acceptFrame, dispatchOp_frame]
  rfl

/-! ## The table of R157 -/

/-- The rest `r` is one at which the scan ends, and the step that ends it does `f` (R141, R148). -/
inductive EndsScan (k : Config) : List Byte → (State → State) → Prop
  | short {r : List Byte} (h : r.length < 4) : EndsScan k r endScan
  | incomplete {fc len : Byte} {body : List Byte} (ha : fc ∈ k.allow) (ho : oversize k len.toNat = false)
      (h : body.length < len.toNat + 1) :
      EndsScan k (header fc len ++ body) fun s => endScan (latch fc len.toNat s)

/-- The rest `r` is one at which the scan moves on by `n` bytes: the step does `f` and shows `os` (R142 to R152). -/
inductive MovesOn (k : Config) : List Byte → (State → State) → List Obs → Nat → Prop
  | noMarker {b0 b1 b2 b3 : Byte} {body : List Byte} (h : ¬(b0 = sync1 ∧ b1 = sync2)) :
      MovesOn k (b0 :: b1 :: b2 :: b3 :: body) rejectSync [.event .sync 0] 1
  | illegalCode {fc len : Byte} {body : List Byte} (h : fc ∉ k.allow) :
      MovesOn k (header fc len ++ body) (rejectCode fc) [.event .fc 0] 1
  | oversized {fc len : Byte} {body : List Byte} (ha : fc ∈ k.allow) (ho : oversize k len.toNat = true) :
      MovesOn k (header fc len ++ body) (rejectOversize fc len.toNat) [.event .oversize len.toNat] 1
  | accepted {fc : Byte} {p rest : List Byte} (hp : p.length ≤ 255) (ha : fc ∈ k.allow)
      (ho : oversize k p.length = false) :
      MovesOn k (encFrame fc p ++ rest) (fun s => acceptFrame fc p (sumUp fc p (latch fc p.length s)))
        (acceptObs k fc p) (frameLen p.length)
  | badChecksum {fc : Byte} {p : List Byte} {cks : Byte} {rest : List Byte} (hp : p.length ≤ 255) (ha : fc ∈ k.allow)
      (ho : oversize k p.length = false) (hc : cks ≠ sum8 (covered fc p)) :
      MovesOn k (frameBytes fc p cks ++ rest) (fun s => rejectChecksum p.length (sumUp fc p (latch fc p.length s)))
        [.event .cks p.length] (p.length + 1)

/-- A header with its payload and checksum byte behind it is a frame (R91, R96). -/
theorem header_append_eq_frameBytes {fc len : Byte} {p : List Byte} (hp : p.length = len.toNat) (cks : Byte)
    (rest : List Byte) : header fc len ++ (p ++ cks :: rest) = frameBytes fc p cks ++ rest := by
  rw [frameBytes, covered, hp, BitVec.ofNat_toNat, BitVec.setWidth_eq]
  simp

/-- Behind a header there are payload and checksum byte, or fewer bytes than that. -/
theorem body_cases (n : Nat) (body : List Byte) :
    body.length < n + 1 ∨ ∃ p cks rest, body = p ++ cks :: rest ∧ p.length = n := by
  refine (Nat.lt_or_ge body.length (n + 1)).imp_right fun h => ?_
  refine ⟨body.take n, body[n], body.drop (n + 1), ?_, List.length_take_of_le (by omega)⟩
  rw [← List.drop_eq_getElem_cons, List.take_append_drop]

/-- Every rest stands in the table. -/
theorem endsScan_or_movesOn (k : Config) (r : List Byte) :
    (∃ f, EndsScan k r f) ∨ ∃ f os n, MovesOn k r f os n := by
  match r with
  | b0 :: b1 :: fc :: len :: body =>
    by_cases hs : b0 = sync1 ∧ b1 = sync2
    case neg => exact .inr ⟨_, _, _, .noMarker hs⟩
    obtain ⟨rfl, rfl⟩ := hs
    by_cases ha : fc ∈ k.allow
    case neg => exact .inr ⟨_, _, _, .illegalCode ha⟩
    cases ho : oversize k len.toNat with
    | true => exact .inr ⟨_, _, _, .oversized ha ho⟩
    | false =>
      obtain h | ⟨p, cks, rest, rfl, hp⟩ := body_cases len.toNat body
      · exact .inl ⟨_, .incomplete ha ho h⟩
      · have hfit : p.length ≤ 255 := by omega
        have hframe : sync1 :: sync2 :: fc :: len :: (p ++ cks :: rest) = frameBytes fc p cks ++ rest :=
          header_append_eq_frameBytes hp cks rest
        rw [hframe]
        by_cases hc : cks = sum8 (covered fc p)
        · subst hc
          exact .inr ⟨_, _, _, .accepted hfit ha (hp.symm ▸ ho)⟩
        · exact .inr ⟨_, _, _, .badChecksum hfit ha (hp.symm ▸ ho) hc⟩
  | [] | [_] | [_, _] | [_, _, _] => exact .inl ⟨_, .short (by simp)⟩

/-- An iteration that moves on moves inside the rest (R153, R154). -/
theorem MovesOn.advance_le {k : Config} {r : List Byte} {f : State → State} {os : List Obs} {n : Nat}
    (h : MovesOn k r f os n) : 1 ≤ n ∧ n ≤ r.length := by
  cases h with
  | noMarker | illegalCode | oversized => exact ⟨Nat.le_refl 1, by simp only [header, List.cons_append, List.length_cons]; omega⟩
  | accepted => exact ⟨Nat.le_add_left 1 _, by rw [List.length_append, encFrame_length]; exact Nat.le_add_right _ _⟩
  | badChecksum =>
    refine ⟨Nat.le_add_left 1 _, ?_⟩
    rw [List.length_append, frameBytes_length, frameLen]
    omega

/-- Induction along a scan: at a rest where it ends, or from the rest behind what an iteration consumed. -/
theorem scan_induction {k : Config} {motive : List Byte → Prop} (ends : ∀ r f, EndsScan k r f → motive r)
    (moves : ∀ r f os n, MovesOn k r f os n → motive (r.drop n) → motive r) (r : List Byte) : motive r := by
  rcases endsScan_or_movesOn k r with ⟨f, h⟩ | ⟨f, os, n, h⟩
  · exact ends r f h
  · have hn := h.advance_le
    exact moves r f os n h (scan_induction ends moves (r.drop n))
termination_by r.length
decreasing_by
  rw [List.length_drop]
  omega

/-! ## The scan on lists, row by row -/

theorem EndsScan.scanBytes {k : Config} {r : List Byte} {f : State → State} (h : EndsScan k r f) :
    scanBytes k r = ([], r) := by
  cases h with
  | short h => exact scanBytes_short h
  | incomplete ha ho h =>
    rw [header, List.cons_append, List.cons_append, List.cons_append, List.cons_append, List.nil_append, scanBytes_step]
    simp only [ha, ho, not_true_eq_false, and_self, if_false, Bool.false_eq_true]
    exact if_pos (by simp only [List.length_cons, frameLen]; omega)

theorem MovesOn.scanBytes {k : Config} {r : List Byte} {f : State → State} {os : List Obs} {n : Nat}
    (h : MovesOn k r f os n) :
    scanBytes k r = (os ++ (scanBytes k (r.drop n)).1, (scanBytes k (r.drop n)).2) := by
  cases h with
  | noMarker h => exact scanBytes_noMarker h
  | illegalCode h => simp [header, scanBytes_step, h]
  | oversized ha ho => simp [header, scanBytes_step, ha, ho]
  | @accepted fc p rest hp ha ho =>
    rw [encFrame, scanBytes_frame hp ha ho, if_pos rfl, List.drop_left' (frameBytes_length fc p _)]
  | badChecksum hp ha ho hc => exact (scanBytes_frame hp ha ho).trans (if_neg hc)

/-- What follows the rest does not change an iteration that moves on. -/
theorem MovesOn.append {k : Config} {r : List Byte} {f : State → State} {os : List Obs} {n : Nat}
    (h : MovesOn k r f os n) (b : List Byte) : MovesOn k (r ++ b) f os n := by
  cases h with
  | noMarker h => exact .noMarker h
  | illegalCode h =>
    rw [List.append_assoc]
    exact .illegalCode h
  | oversized ha ho =>
    rw [List.append_assoc]
    exact .oversized ha ho
  | accepted hp ha ho =>
    rw [List.append_assoc]
    exact .accepted hp ha ho
  | badChecksum hp ha ho hc =>
    rw [List.append_assoc]
    exact .badChecksum hp ha ho hc

/-- An incomplete candidate that stays fits the window when FORCE_ADVANCE is true (R146, R156). -/
theorem frameLen_le_of_not_oversize {k : Config} {l : Nat} (ho : oversize k l = false) (hf : k.forceAdvance = true) :
    frameLen l ≤ k.w :=
  Nat.le_of_not_lt fun h => oversize_eq_false_iff.1 ho ⟨hf, h⟩

end Sys2Proof.Machine
end

section
/-! PROOFS. The statements of 41_frame_scanner.md on the meanings of frames, and on the scan of a list of bytes. -/

namespace Sys2Proof.Machine

/-! ## The meanings of frames -/

/-- Settles O30: test 0, then the rejection of the code. -/
theorem illegalCodeAdvancesByOne : Obligations.IllegalCodeAdvancesByOne := by
  intro s fc len
  refine ⟨fun h => ?_, fun h => ?_⟩
  · simp only [exec, execFrameIllegal, windowExhausted_eq_false.2 h]
    rfl
  · simp only [exec, execFrameIllegal, windowExhausted_eq_true.2 h]
    rfl

/-- Settles O31: the accept step, whose dispatch is of the handled code. -/
theorem updateFrameReplacesRun : Obligations.UpdateFrameReplacesRun := by
  intro s p ho hfit
  refine ⟨_, rfl, ?_⟩
  rw [frameIteration_whole s.config.fcRun_mem_allow ho hfit, if_pos rfl, acceptFrame_eq]
  refine ⟨fun hl => ?_, fun hl => ?_⟩ <;> simp [hl, acceptObs, dispatchObs, countersAfter, frameLen, Nat.add_assoc]

/-- Settles O33: the frame is all there, and test 5 fires. -/
theorem badChecksumSkipsLPlusOne : Obligations.BadChecksumSkipsLPlusOne := by
  intro s i fc p cks hl ho hfit hc
  obtain ⟨ha, hi⟩ := hl.exec_eq
  refine ⟨_, hi, ?_⟩
  rw [frameIteration_whole ha ho hfit, if_neg hc.symm]
  rfl

/-- Settles O34: tests 0, 3 and 4 of the iteration. -/
theorem oversizeAdvancesIncompleteWaits : Obligations.OversizeAdvancesIncompleteWaits := by
  intro s i fc p cks hl
  obtain ⟨ha, hi⟩ := hl.exec_eq
  rw [hi]
  refine ⟨fun h => ?exhausted, fun h hf hlen => ?oversized, fun h hn hlen => ?incomplete⟩
  case exhausted =>
    rw [frameIteration_exhausted (windowExhausted_eq_true.2 h)]
    rfl
  case oversized =>
    rw [frameIteration_oversized (windowExhausted_eq_false.2 h) ha (oversize_eq_true hf hlen)]
    rfl
  case incomplete =>
    have hi : s.fill < s.off + frameLen p.length := by unfold frameLen; omega
    rw [frameIteration_incomplete (windowExhausted_eq_false.2 h) ha (oversize_eq_false_iff.2 hn) hi]
    rfl

/-! ## The scan of a list -/

/-- Settles O38: the encoded frame is accepted, and nothing is scanned inside it. -/
theorem encodedFrameIsDispatchedOnce : Obligations.EncodedFrameIsDispatchedOnce := by
  intro k fc p rest hp ha hw
  rw [encFrame, scanBytes_frame hp ha (oversize_eq_false hw), if_pos rfl]

/-- Settles O41, by induction along the scan: it ends at a rest that is short or incomplete. -/
theorem tailIsShortOrIncomplete : Obligations.TailIsShortOrIncomplete := by
  intro k r
  induction r using scan_induction (k := k) with
  | ends r f h =>
    rw [h.scanBytes]
    cases h with
    | short h => exact .inl h
    | incomplete ha ho h =>
      exact .inr ⟨_, _, _, rfl, ha, by simp only [List.length_append, header_length, frameLen]; omega,
        frameLen_le_of_not_oversize ho⟩
  | moves r f os n h ih =>
    rw [h.scanBytes]
    exact ih

/-- Settles O37, by induction along the scan of the first chunk: what follows changes no iteration that moves on, and at
its end the whole tail is scanned again with the second chunk behind it. -/
theorem scanIsIndependentOfChunking : Obligations.ScanIsIndependentOfChunking := by
  intro k a b
  induction a using scan_induction (k := k) with
  | ends a f h =>
    rw [h.scanBytes]
    rfl
  | moves a f os n h ih =>
    rw [(h.append b).scanBytes, h.scanBytes, List.drop_append_of_le_length h.advance_le.2, ih, List.append_assoc]

end Sys2Proof.Machine
end

section
/-! PROOFS. The consumer's turn run forward (41_frame_scanner.md R133 to R157): what it leaves in each phase. -/

namespace Sys2Proof.Machine

/-! ## SERVICE, drain, gate and compaction -/

theorem exec_service_idle {s : State} (hp : s.ph = .idle) : exec .service s = .next { s with ph := .drain } := by
  simp only [exec, execService, if_pos hp]

theorem exec_service_busy {s : State} (hp : s.ph ≠ .idle) :
    exec .service s = .next { s with heldServices := s.heldServices + 1 } := by
  simp only [exec, execService, if_neg hp]

/-- Between passes, with nothing held, a consumer turn does nothing (log 28). -/
theorem stepTurn_consumer_idle {s : State} (hp : s.ph = .idle) (h : s.heldServices = 0) :
    stepTurn .consumer s = .next s := by
  rw [stepTurn_eq, takeTurn, consumerTurn, hp, h]

theorem stepTurn_consumer_drain {s : State} (hp : s.ph = .drain) :
    stepTurn .consumer s = answerOf (drainTurn s) := by
  rw [stepTurn_eq, takeTurn, consumerTurn, hp]

theorem stepTurn_consumer_gate {s : State} (hp : s.ph = .gate) : stepTurn .consumer s = .next (gateTurn s) := by
  rw [stepTurn_eq, takeTurn, consumerTurn, hp]

theorem stepTurn_consumer_compact {s : State} (hp : s.ph = .compact) :
    stepTurn .consumer s = answerOf (compactOp s) := by
  rw [stepTurn_eq, takeTurn, consumerTurn, hp]

theorem hasDataFlag_eq_true_iff {s : State} : hasDataFlag s = true ↔ s.rd ≠ s.wr := decide_eq_true_iff

/-- `s` with its oldest byte drained into the window (R136). -/
def drainOldest (s : State) : State :=
  { takeOldest s with sw := s.sw.write s.fill (oldest s), fill := s.fill + 1 }

/-- With room and a byte the consumer drains the byte (R136). -/
theorem stepTurn_drains {s : State} (hp : s.ph = .drain) (hr : RingInv s) (hd : s.rd ≠ s.wr)
    (hf : s.fill < s.config.w) : stepTurn .consumer s = .next (drainOldest s) := by
  rw [stepTurn_consumer_drain hp, drainTurn, if_pos ⟨hf, hasDataFlag_eq_true_iff.2 hd⟩, drainStep_ok hr hd hf]
  rfl

/-- With the window full or the ring empty the drain phase ends (R135, R137). -/
theorem stepTurn_drainEnds {s : State} (hp : s.ph = .drain) (h : s.config.w ≤ s.fill ∨ s.rd = s.wr) :
    stepTurn .consumer s = .next { s with ph := .gate } := by
  have hn : ¬(s.fill < s.config.w ∧ hasDataFlag s = true) := fun ⟨hf, hd⟩ =>
    h.elim (Nat.not_le.2 hf) (hasDataFlag_eq_true_iff.1 hd)
  rw [stepTurn_consumer_drain hp, drainTurn, if_neg hn]
  rfl

theorem windowBytes_drainOldest (s : State) : windowBytes (drainOldest s) = windowBytes s ++ [oldest s] :=
  windowBytes_append s _ _ _

theorem liveBytes_drainOldest {s : State} (h : CursorsInRange s) (hd : s.rd ≠ s.wr) :
    liveBytes s = oldest s :: liveBytes (drainOldest s) := liveBytes_takeOldest h hd

theorem stepTurn_gateCloses {s : State} (hp : s.ph = .gate) (h : s.fill < 4) :
    stepTurn .consumer s = .next { s with ph := .idle } := by
  rw [stepTurn_consumer_gate hp, gateTurn, if_pos h]

theorem stepTurn_gateOpens {s : State} (hp : s.ph = .gate) (h : 4 ≤ s.fill) :
    stepTurn .consumer s = .next { s with ph := .scan, off := 0 } := by
  rw [stepTurn_consumer_gate hp, gateTurn, if_neg (Nat.not_lt.2 h)]

/-- `t` is `s` with the bytes from `OFF` on moved to offset 0 (R155). -/
structure Compacted (s t : State) : Prop where
  frame : t = { s with sw := t.sw, fill := s.fill - s.off, idx := t.idx, ph := .idle }
  window : windowBytes t = (windowBytes s).drop s.off
  read : ∀ a, t.sw.read a = if a < s.fill - s.off then s.sw.read (s.off + a) else s.sw.read a

theorem stepTurn_compacts {s : State} (hp : s.ph = .compact) (hw : WindowInv s) :
    ∃ t, stepTurn .consumer s = .next t ∧ Compacted s t := by
  obtain ⟨m, hm, hread, -⟩ := compactOp_ok hw (off_le_fill hw (.inr hp))
  refine ⟨_, (stepTurn_consumer_compact hp).trans (congrArg answerOf hm), rfl, windowBytes_compact hread, hread⟩

/-! ## The scan iteration -/

/-- The unscanned rest `SW[OFF .. FILL)` (R33). -/
def unscanned (s : State) : List Byte := (windowBytes s).drop s.off

@[simp] theorem unscanned_length (s : State) : (unscanned s).length = s.fill - s.off := by simp [unscanned]

theorem stepTurn_scan_exhausted {s : State} (hp : s.ph = .scan) (h : windowExhausted s = true) :
    stepTurn .consumer s = .next (endScan s) := by
  rw [stepTurn_eq, takeTurn, consumerTurn_scan hp, scanTurn, if_pos h]

/-- With a header left, the scan turn decodes the rest. -/
theorem stepTurn_scan_decodes {s : State} (hw : WindowInv s) (hp : s.ph = .scan) (h : windowExhausted s = false) :
    stepTurn .consumer s = (scanDecoded s (decodeFrame s.config (unscanned s))).answer := by
  rw [stepTurn_eq_answer, takeTurn, consumerTurn_scan hp,
    scanTurn_eq_scanDecoded h (loadRange_rest hw (off_le_fill hw (.inl hp))), unscanned]

theorem decodeFrame_noMarker {k : Config} {b0 b1 b2 b3 : Byte} {body : List Byte} (h : ¬(b0 = sync1 ∧ b1 = sync2)) :
    decodeFrame k (b0 :: b1 :: b2 :: b3 :: body) = .error .noMarker := if_neg h

/-- An allowed header whose frame is not all there (R148). -/
theorem decodeFrame_incomplete {k : Config} {fc len : Byte} {body : List Byte} (ha : fc ∈ k.allow)
    (h : body.length < len.toNat + 1) : decodeFrame k (header fc len ++ body) = .error (.incomplete fc len) := by
  have hc : k.classOf fc ≠ .illegal := fun hc => Config.classOf_illegal.1 hc ha
  simp only [decodeFrame, header, List.cons_append, List.nil_append, and_self, if_true, if_neg hc]
  split
  next p cks rest ht =>
    obtain ⟨rfl, hp⟩ := takeBytes_eq_some ht
    simp only [List.length_append, List.length_cons] at h
    omega
  next => rfl

theorem scanDecoded_oversized {s : State} {fc len : Byte} (ho : oversize s.config len.toNat = true) :
    (scanDecoded s (.error (.incomplete fc len))).answer = .next (rejectOversize fc len.toNat s) :=
  congrArg Fetched.answer (if_pos ho)

theorem scanDecoded_incomplete {s : State} {fc len : Byte} (ho : oversize s.config len.toNat = false) :
    (scanDecoded s (.error (.incomplete fc len))).answer = .next (endScan (latch fc len.toNat s)) :=
  congrArg Fetched.answer (if_neg (Bool.eq_false_iff.1 ho))

theorem exec_frameIllegal_rejects {fc len : Byte} {s : State} (h : windowExhausted s = false) :
    exec (.frameIllegal fc len) s = .next (rejectCode fc s) :=
  if_neg (Bool.eq_false_iff.1 h)

/-- A scan turn on the whole frame of an allowed code is the iteration on that frame (R33, R106). -/
theorem stepTurn_scan_frame {s : State} {fc : Byte} {p rest : List Byte} {cks : Byte} (hw : WindowInv s)
    (hp : s.ph = .scan) (hr : unscanned s = frameBytes fc p cks ++ rest) (hfit : p.length ≤ 255)
    (ha : fc ∈ s.config.allow) : stepTurn .consumer s = .next (frameIteration fc p cks s) := by
  have hc : s.config.classOf fc ≠ .illegal := fun hc => Config.classOf_illegal.1 hc ha
  have hlen : frameLen p.length ≤ s.fill - s.off := by
    rw [← unscanned_length, hr, List.length_append, frameBytes_length]
    exact Nat.le_add_right _ _
  have h4 : windowExhausted s = false := windowExhausted_eq_false.2 (by unfold frameLen at hlen; omega)
  rw [stepTurn_scan_decodes hw hp h4, hr, decodeFrame_frameBytes cks rest hfit hc]
  exact exec_frameOf p cks rfl hc

/-- A scan turn at a rest where the scan ends does what the table says. -/
theorem EndsScan.stepTurn {s : State} {r : List Byte} {f : State → State} (h : EndsScan s.config r f)
    (hw : WindowInv s) (hp : s.ph = .scan) (hr : unscanned s = r) : stepTurn .consumer s = .next (f s) := by
  have hlen : s.fill - s.off = r.length := by rw [← hr, unscanned_length]
  cases h with
  | short h => exact stepTurn_scan_exhausted hp (windowExhausted_eq_true.2 (hlen.trans_lt h))
  | incomplete ha ho h =>
    rw [List.length_append, header_length] at hlen
    have h4 : windowExhausted s = false := windowExhausted_eq_false.2 (by omega)
    rw [stepTurn_scan_decodes hw hp h4, hr, decodeFrame_incomplete ha h, scanDecoded_incomplete ho]

/-- A scan turn at a rest where the scan moves on does what the table says. -/
theorem MovesOn.stepTurn {s : State} {r : List Byte} {f : State → State} {os : List Obs} {n : Nat}
    (h : MovesOn s.config r f os n) (hw : WindowInv s) (hp : s.ph = .scan) (hr : unscanned s = r) :
    stepTurn .consumer s = .next (f s) := by
  have hlen : s.fill - s.off = r.length := by rw [← hr, unscanned_length]
  have hoff : s.off ≤ s.fill := off_le_fill hw (.inl hp)
  cases h with
  | noMarker h =>
    have h4 : windowExhausted s = false := windowExhausted_eq_false.2 (by simp only [List.length_cons] at hlen; omega)
    rw [stepTurn_scan_decodes hw hp h4, hr, decodeFrame_noMarker h]
    rfl
  | @illegalCode fc len body h =>
    rw [List.length_append, header_length] at hlen
    have h4 : windowExhausted s = false := windowExhausted_eq_false.2 (by omega)
    rw [stepTurn_scan_decodes hw hp h4, hr, decodeFrame_header _ _ (Config.classOf_illegal.2 h)]
    exact exec_frameIllegal_rejects (len := len) h4
  | @oversized fc len body ha ho =>
    rw [List.length_append, header_length] at hlen
    have h4 : windowExhausted s = false := windowExhausted_eq_false.2 (by omega)
    obtain h | ⟨p, cks, rest, rfl, hpl⟩ := body_cases len.toNat body
    · rw [stepTurn_scan_decodes hw hp h4, hr, decodeFrame_incomplete ha h, scanDecoded_oversized ho]
    · rw [header_append_eq_frameBytes hpl] at hr
      rw [stepTurn_scan_frame hw hp hr (by omega) ha, frameIteration_oversized h4 ha (hpl.symm ▸ ho), hpl]
  | accepted hfit ha ho =>
    rw [List.length_append, encFrame_length] at hlen
    rw [stepTurn_scan_frame hw hp hr hfit ha, frameIteration_whole ha ho (by omega), if_pos rfl]
  | badChecksum hfit ha ho hc =>
    rw [List.length_append, frameBytes_length] at hlen
    rw [stepTurn_scan_frame hw hp hr hfit ha, frameIteration_whole ha ho (by omega), if_neg hc.symm]

end Sys2Proof.Machine
end

section
/-! PROOFS. The statements of 41_frame_scanner.md on the single steps of a pass. -/

namespace Sys2Proof.Machine

/-- Settles O26: SERVICE by the phase, and a held one as its consumer turn runs it. -/
theorem serviceBeginsOrWaits : Obligations.ServiceBeginsOrWaits := by
  refine fun s => ⟨exec_service_idle, exec_service_busy, fun n hp hn => ?_⟩
  rw [stepTurn_heldService hp hn]
  exact exec_service_idle (s := { s with heldServices := n }) hp

/-- Settles O28, by the gate's test. -/
theorem gateWaitsForAHeader : Obligations.GateWaitsForAHeader := fun _ hp =>
  ⟨stepTurn_gateCloses hp, stepTurn_gateOpens hp⟩

/-- Settles O27: the drain step moves the byte at `RD` to `SW[FILL]`, and its test is the phase's end. -/
theorem drainMovesTheOldestByte : Obligations.DrainMovesTheOldestByte := by
  rintro s ⟨-, hring, -⟩ hp
  refine ⟨fun hf hd => ?drains, fun h => stepTurn_drainEnds hp (h.imp_left Eq.ge)⟩
  exact ⟨oldest s, _, _, liveBytes_drainOldest hring.1 hd, stepTurn_drains hp hring hd hf, rfl,
    windowBytes_drainOldest s, rfl, fun _ ha => Memory.read_write_other _ _ ha⟩

/-- Settles O35, by COMPACT. -/
theorem compactionMovesTheTail : Obligations.CompactionMovesTheTail := by
  rintro s ⟨-, -, hw, -⟩ hp
  obtain ⟨t, ht, hframe, hwindow, hread⟩ := stepTurn_compacts hp hw
  exact ⟨t, ht, hframe, hwindow, fun a ha => (hread a).trans (if_neg (Nat.not_lt.2 ha))⟩

/-- Settles O29: each condition is a row of the table of R157, and the turn does what the row says. -/
theorem scanIterationFollowsTheTests : Obligations.ScanIterationFollowsTheTests := by
  rintro s ⟨-, -, hw, -⟩ hp r
  refine ⟨fun h => (EndsScan.short h).stepTurn hw hp rfl, fun b0 b1 fc len body hr => ⟨fun h => ?noMarker, ?_, ?_⟩⟩
  case noMarker => exact (MovesOn.noMarker h).stepTurn hw hp hr
  all_goals
    rintro ⟨rfl, rfl⟩ ha
    have hr : unscanned s = header fc len ++ body := hr
  case refine_1 => exact (MovesOn.illegalCode ha).stepTurn hw hp hr
  case refine_2 =>
    have hlatch : BitVec.ofNat 8 len.toNat = len := by simp
    refine ⟨fun hf hlen => ?oversized, fun hn => ⟨fun h => ?incomplete, fun p cks rest hbody hpl => ?whole⟩⟩
    case oversized =>
      rw [(MovesOn.oversized ha (oversize_eq_true hf hlen)).stepTurn hw hp hr, rejectOversize, latch, hlatch]
      rfl
    case incomplete =>
      rw [(EndsScan.incomplete ha (oversize_eq_false_iff.2 hn) h).stepTurn hw hp hr, latch, hlatch]
      rfl
    case whole =>
      have hcov : covered fc p = 0xAA :: 0x55 :: fc :: len :: p := by rw [covered, hpl, hlatch]; rfl
      have ho : oversize s.config p.length = false := hpl ▸ oversize_eq_false_iff.2 hn
      have hfit : p.length ≤ 255 := by omega
      rw [hbody, header_append_eq_frameBytes hpl] at hr
      rw [← hcov]
      refine ⟨fun hc => ?accepted, fun hc => ?badChecksum⟩
      case accepted =>
        subst hc
        refine ⟨_, (MovesOn.accepted hfit ha ho).stepTurn hw hp hr, ?_⟩
        rw [acceptFrame_eq, hpl, hlatch, frameLen, ← Nat.add_assoc, ← Nat.add_assoc]
      case badChecksum =>
        refine ⟨_, (MovesOn.badChecksum hfit ha ho hc).stepTurn hw hp hr, ?_⟩
        rw [hpl, latch, hlatch]
        rfl

end Sys2Proof.Machine
end

section
/-! PROOFS. A pass run forward (41_frame_scanner.md R135 to R159): the drain phase empties the ring into the window as far
as it fits, the scan phase is the scan of the window's bytes, and consumer turns lead through both. -/

namespace Sys2Proof.Machine

/-! ## Runs of consumer turns -/

/-- Consumer turns lead from `s` to `t`. -/
def Consumes (s t : State) : Prop := ∃ n, runTurns (List.replicate n .consumer) s = .next t

theorem Consumes.refl (s : State) : Consumes s s := ⟨0, rfl⟩

theorem Consumes.trans {s t u : State} (h1 : Consumes s t) (h2 : Consumes t u) : Consumes s u := by
  obtain ⟨n, hn⟩ := h1
  obtain ⟨m, hm⟩ := h2
  exact ⟨n + m, by rw [List.replicate_add, runTurns_append hn, hm]⟩

theorem Consumes.head {s t u : State} (h1 : stepTurn .consumer s = .next t) (h2 : Consumes t u) : Consumes s u := by
  obtain ⟨n, hn⟩ := h2
  exact ⟨n + 1, by rw [List.replicate_succ, runTurns_cons_next _ h1, hn]⟩

theorem Consumes.tail {s t u : State} (h1 : Consumes s t) (h2 : stepTurn .consumer t = .next u) : Consumes s u :=
  h1.trans (.head h2 (.refl u))

theorem Inv.stepTurn {a : Turn} {s t : State} (h : stepTurn a s = .next t) (hs : Inv s) : Inv t :=
  invIsKept { s with turns := a :: s.turns } t ((sameButWaiting_turns s _).inv hs) h

theorem runTurns_inv {ts : List Turn} {s t : State} (hs : Inv s) (h : runTurns ts s = .next t) : Inv t := by
  induction ts generalizing s with
  | nil =>
    cases h
    exact hs
  | cons a ts ih =>
    rw [runTurns] at h
    split at h
    next u hu => exact ih (Inv.stepTurn hu hs) h
    next => cases h
    next => cases h

theorem Consumes.inv {s t : State} (h : Consumes s t) (hs : Inv s) : Inv t := by
  obtain ⟨n, hn⟩ := h
  exact runTurns_inv hs hn

theorem Inv.passBegun {s : State} (hp : s.ph = .idle) (hs : Inv s) : Inv { s with ph := .drain } :=
  (Effect.passBegun hp).inv hs

theorem Inv.config_wf {s : State} : Inv s → s.config.wf := fun ⟨hk, _⟩ => hk

theorem Inv.ring {s : State} : Inv s → RingInv s := fun ⟨_, hring, _⟩ => hring

theorem Inv.window {s : State} : Inv s → WindowInv s := fun ⟨_, _, hwindow, _⟩ => hwindow

/-- A change that shows nothing, then one that shows `os`. -/
theorem Shows.before {s t u : State} {os : List Obs} (h1 : Shows s t []) (h2 : Shows t u os) : Shows s u os :=
  h1.trans h2

/-- A change that shows `os`, then one that shows nothing. -/
theorem Shows.after {s t u : State} {os : List Obs} (h1 : Shows s t os) (h2 : Shows t u []) : Shows s u os := by
  have h := h1.trans h2
  rwa [List.append_nil] at h

theorem execThen_eq_runTurns {i : Instr} {s t : State} (ts : List Turn) (h : exec i s = .next t) :
    execThen i ts s = runTurns ts t := by
  simp only [execThen, h]

/-! ## The drain phase -/

/-- How many bytes the window has room for. -/
def room (s : State) : Nat := s.config.w - s.fill

/-- `t` is `s` after its drain phase: what fits has moved from the ring into the window (R135 to R137). -/
structure Drained (s t : State) : Prop where
  frame : t = { s with rd := t.rd, taken := t.taken, sw := t.sw, fill := t.fill, ph := .gate }
  window : windowBytes t = drainedWindow s
  live : liveBytes t = (liveBytes s).drop (room s)
  taken : t.taken = s.taken ++ (liveBytes s).take (room s)
  rd : t.rd = (s.rd + min (room s) (occ s)) % s.config.c

/-- With nothing to drain the phase ends at once. -/
theorem drained_nothing {s : State} (hr : s.rd < s.config.c) (h : room s = 0 ∨ liveBytes s = []) :
    Drained s { s with ph := .gate } := by
  have htake : (liveBytes s).take (room s) = [] := by rcases h with h | h <;> simp [h]
  have hmin : min (room s) (occ s) = 0 := by
    rw [← liveBytes_length, ← List.length_take, htake, List.length_nil]
  refine ⟨rfl, ?_, ?_, by rw [htake, List.append_nil], by rw [hmin, Nat.add_zero, Nat.mod_eq_of_lt hr]⟩
  · rw [drainedWindow, ← room, htake, List.append_nil]
    rfl
  · have hdrop := List.take_append_drop (room s) (liveBytes s)
    rw [htake] at hdrop
    exact hdrop.symm

/-- A drain step, then the rest of the drain phase. -/
theorem Drained.of_drainOldest {s t : State} (hc : CursorsInRange s) (hd : s.rd ≠ s.wr) (hf : s.fill < s.config.w)
    (h : Drained (drainOldest s) t) : Drained s t := by
  have hlive := liveBytes_drainOldest hc hd
  have hroom : room s = room (drainOldest s) + 1 := by
    rw [room, room, show (drainOldest s).config = s.config from rfl, show (drainOldest s).fill = s.fill + 1 from rfl]
    omega
  have hocc : occ s = occ (drainOldest s) + 1 := by
    rw [← liveBytes_length, hlive, List.length_cons, liveBytes_length]
  obtain ⟨hframe, hwindow, hlive', htaken, hrd⟩ := h
  refine ⟨hframe, ?_, ?_, ?_, ?_⟩
  · rw [hwindow, drainedWindow, drainedWindow, ← room, ← room, windowBytes_drainOldest, hlive, hroom,
      List.take_succ_cons, List.append_assoc, List.singleton_append]
  · rw [hlive', hlive, hroom, List.drop_succ_cons]
  · rw [htaken, hlive, hroom, List.take_succ_cons, List.append_cons]
    rfl
  · rw [hrd, hroom, hocc, Nat.add_min_add_right, show (drainOldest s).rd = incC s.config s.rd from rfl,
      show (drainOldest s).config = s.config from rfl, incC_eq_mod hc.1, Nat.mod_add_mod]
    congr 1
    omega

/-- The consumer's turns lead through the drain phase. -/
theorem drain_consumes {s : State} (hs : Inv s) (hp : s.ph = .drain) : ∃ t, Consumes s t ∧ Drained s t := by
  obtain ⟨hcur, -⟩ := hs.ring
  by_cases h : s.fill < s.config.w ∧ s.rd ≠ s.wr
  · obtain ⟨hf, hd⟩ := h
    have hstep := stepTurn_drains hp hs.ring hd hf
    obtain ⟨t, hrun, ht⟩ := drain_consumes (Inv.stepTurn hstep hs) hp
    exact ⟨t, .head hstep hrun, ht.of_drainOldest hcur hd hf⟩
  · have hend : s.config.w ≤ s.fill ∨ s.rd = s.wr := by omega
    have hempty (he : s.rd = s.wr) : liveBytes s = [] :=
      List.length_eq_zero_iff.1 (by rw [liveBytes_length, occ_eq_zero hcur, he])
    exact ⟨_, .head (stepTurn_drainEnds hp hend) (.refl _),
      drained_nothing hcur.1 (hend.imp Nat.sub_eq_zero_of_le hempty)⟩
termination_by s.config.w - s.fill
decreasing_by
  show s.config.w - (s.fill + 1) < s.config.w - s.fill
  omega

/-! ## The scan phase -/

/-- What a row of the table does to the scan's position, and what it shows. -/
theorem MovesOn.effect {s : State} {r : List Byte} {f : State → State} {os : List Obs} {n : Nat}
    (h : MovesOn s.config r f os n) : (f s).off = s.off + n ∧ (f s).ph = s.ph ∧ Shows s (f s) os := by
  cases h with
  | noMarker | illegalCode | oversized | badChecksum =>
    exact ⟨rfl, rfl, shows_event _ _ rfl rfl rfl rfl rfl⟩
  | @accepted fc p =>
    have hph : (acceptFrame fc p (sumUp fc p (latch fc p.length s))).ph = s.ph := by rw [acceptFrame_eq]
    exact ⟨acceptFrame_off fc p _, hph, shows_acceptFrame fc p s⟩

theorem EndsScan.effect {k : Config} {r : List Byte} {f : State → State} (h : EndsScan k r f) (s : State) :
    (f s).off = s.off ∧ (f s).ph = .compact ∧ Shows s (f s) [] := by
  cases h <;> exact ⟨rfl, rfl, shows_nil rfl rfl rfl rfl rfl⟩

/-- `t` is `s` after its scan phase: it shows what the scan of the rest shows and stands at the scan's tail (R159). -/
structure ScannedAll (s t : State) : Prop where
  frame : t = { s with
    off := t.off, ph := .compact, fcLatch := t.fcLatch, lLatch := t.lLatch, sum := t.sum, idx := t.idx
    run := t.run, counters := t.counters, trace := t.trace }
  tail : unscanned t = (scanBytes s.config (unscanned s)).2
  shows : Shows s t (scanBytes s.config (unscanned s)).1

/-- A scan turn leaves the window's bytes and everything outside the scanner's registers and the ports. -/
theorem stepTurn_scan_unchanged {s t : State} (hp : s.ph = .scan) (h : stepTurn .consumer s = .next t) : t = { s with
    off := t.off, ph := t.ph, fcLatch := t.fcLatch, lLatch := t.lLatch, sum := t.sum, idx := t.idx
    run := t.run, counters := t.counters, trace := t.trace } := by
  rw [stepTurn_eq_answer, takeTurn, consumerTurn_scan hp] at h
  exact (scanTurn_scanned h).frame

theorem stepTurn_scan_windowBytes {s t : State} (hp : s.ph = .scan) (h : stepTurn .consumer s = .next t) :
    windowBytes t = windowBytes s := by
  rw [stepTurn_scan_unchanged hp h]
  rfl

theorem ScannedAll.of_ends {s : State} {f : State → State} (h : EndsScan s.config (unscanned s) f)
    (hp : s.ph = .scan) (hstep : stepTurn .consumer s = .next (f s)) : ScannedAll s (f s) := by
  obtain ⟨hoff, hph, hshows⟩ := h.effect s
  have hframe := stepTurn_scan_unchanged hp hstep
  rw [hph] at hframe
  refine ⟨hframe, ?_, h.scanBytes ▸ hshows⟩
  rw [h.scanBytes, unscanned, hoff, stepTurn_scan_windowBytes hp hstep, unscanned]

theorem ScannedAll.of_moves {s t : State} {f : State → State} {os : List Obs} {n : Nat}
    (h : MovesOn s.config (unscanned s) f os n) (hp : s.ph = .scan) (hstep : stepTurn .consumer s = .next (f s))
    (hrest : unscanned (f s) = (unscanned s).drop n) (ht : ScannedAll (f s) t) : ScannedAll s t := by
  obtain ⟨-, -, hshows⟩ := h.effect
  obtain ⟨hframe, htail, hshows'⟩ := ht
  rw [hshows.config, hrest] at htail hshows'
  refine ⟨?_, by rw [htail, h.scanBytes], h.scanBytes ▸ hshows.trans hshows'⟩
  rw [hframe, stepTurn_scan_unchanged hp hstep]

/-- The consumer's turns lead through the scan phase, by induction along the scan. -/
theorem scan_consumes {s : State} (hs : Inv s) (hp : s.ph = .scan) : ∃ t, Consumes s t ∧ ScannedAll s t := by
  generalize hk : s.config = k
  generalize hr : unscanned s = r
  induction r using scan_induction (k := k) generalizing s with
  | ends r f h =>
    subst hk hr
    have hstep := h.stepTurn hs.window hp rfl
    exact ⟨f s, .head hstep (.refl _), .of_ends h hp hstep⟩
  | moves r f os n h ih =>
    subst hk hr
    have hstep := h.stepTurn hs.window hp rfl
    obtain ⟨hoff, hph, hshows⟩ := h.effect
    have hrest : unscanned (f s) = (unscanned s).drop n := by
      rw [unscanned, unscanned, hoff, stepTurn_scan_windowBytes hp hstep, List.drop_drop]
    obtain ⟨t, hrun, ht⟩ := ih (Inv.stepTurn hstep hs) (hph.trans hp) hshows.config hrest
    exact ⟨t, .head hstep hrun, ht.of_moves h hp hstep hrest⟩

/-! ## Gate, scan and compaction -/

/-- `t` is `s` after the part of its pass behind the drain phase: it shows what the scan of the window shows, and the
scan's tail stands at offset 0 (R139, R155). -/
structure Swept (s t : State) : Prop where
  frame : t = { s with
    sw := t.sw, fill := t.fill, off := t.off, ph := .idle, fcLatch := t.fcLatch, lLatch := t.lLatch, sum := t.sum
    idx := t.idx, run := t.run, counters := t.counters, trace := t.trace }
  window : windowBytes t = (scanBytes s.config (windowBytes s)).2
  shows : Shows s t (scanBytes s.config (windowBytes s)).1
  off : t.off = if (windowBytes s).length < 4 then s.off
    else (windowBytes s).length - (scanBytes s.config (windowBytes s)).2.length

/-- Below four bytes the pass ends at the gate, and the window is the scan's tail (R139). -/
theorem swept_short {s : State} (h : s.fill < 4) : Swept s { s with ph := .idle } := by
  have hlen : (windowBytes s).length < 4 := by rwa [windowBytes_length]
  have hscan : scanBytes s.config (windowBytes s) = ([], windowBytes s) := scanBytes_short hlen
  refine ⟨rfl, ?_, ?_, (if_pos hlen).symm⟩ <;> rw [hscan]
  · rfl
  · exact shows_nil rfl rfl rfl rfl rfl

/-- The scan from offset 0, then the compaction. -/
theorem swept_of_scan {s t u : State} (h4 : 4 ≤ s.fill) (ht : ScannedAll { s with ph := .scan, off := 0 } t)
    (hoff : t.off ≤ t.fill) (hu : Compacted t u) : Swept s u := by
  obtain ⟨hframe, htail, hshows⟩ := ht
  obtain ⟨hframe', hwindow, -⟩ := hu
  have hlen : t.fill - t.off = (unscanned t).length := (unscanned_length t).symm
  have hfill : t.fill = s.fill := by rw [hframe]
  have hmoved : u.off = t.off := by rw [hframe']
  refine ⟨?_, hwindow.trans htail, ?_, ?_⟩
  · rw [hframe', hframe]
  · have hopen : Shows s { s with ph := .scan, off := 0 } [] := shows_nil rfl rfl rfl rfl rfl
    have hcompact : Shows t u [] := by
      rw [hframe']
      exact shows_nil rfl rfl rfl rfl rfl
    exact (hopen.before hshows).after hcompact
  · rw [if_neg (by rw [windowBytes_length]; omega), windowBytes_length, hmoved]
    have htail' : (scanBytes s.config (windowBytes s)).2.length = (unscanned t).length := congrArg List.length htail.symm
    omega

/-- The consumer's turns lead from the gate to the end of the pass. -/
theorem gate_consumes {s : State} (hs : Inv s) (hp : s.ph = .gate) : ∃ t, Consumes s t ∧ Swept s t := by
  by_cases h : s.fill < 4
  · exact ⟨_, .head (stepTurn_gateCloses hp h) (.refl _), swept_short h⟩
  · have h4 : 4 ≤ s.fill := Nat.le_of_not_lt h
    have hopen := stepTurn_gateOpens hp h4
    obtain ⟨t, hrun, ht⟩ := scan_consumes (Inv.stepTurn hopen hs) rfl
    have htp : t.ph = .compact := by rw [ht.frame]
    have htw : WindowInv t := (hrun.inv (Inv.stepTurn hopen hs)).window
    obtain ⟨u, hstep, hu⟩ := stepTurn_compacts htp htw
    exact ⟨u, .head hopen (hrun.tail hstep), swept_of_scan h4 ht (off_le_fill htw (.inr htp)) hu⟩

/-! ## The whole pass -/

/-- `t` is `s` after a SERVICE pass into whose drain phase no PUSH falls (R159). -/
structure Passed (s t : State) : Prop where
  frame : t = { s with
    rd := t.rd, taken := t.taken, sw := t.sw, fill := t.fill, off := t.off, fcLatch := t.fcLatch
    lLatch := t.lLatch, sum := t.sum, idx := t.idx, run := t.run, counters := t.counters, trace := t.trace }
  window : windowBytes t = (scanBytes s.config (drainedWindow s)).2
  shows : Shows s t (scanBytes s.config (drainedWindow s)).1
  off : t.off = if (drainedWindow s).length < 4 then s.off
    else (drainedWindow s).length - (scanBytes s.config (drainedWindow s)).2.length
  rd : t.rd = (s.rd + min (room s) (occ s)) % s.config.c
  live : liveBytes t = (liveBytes s).drop (room s)
  taken : t.taken = s.taken ++ (liveBytes s).take (room s)

theorem Drained.passed {s t u : State} (hp : s.ph = .idle) (h : Drained { s with ph := .drain } t) (hu : Swept t u) :
    Passed s u := by
  obtain ⟨hframe, hwindow, hlive, htaken, hrd⟩ := h
  obtain ⟨hframe', hwindow', hshows, hoff⟩ := hu
  have hwin : windowBytes t = drainedWindow s := hwindow
  have hconfig : t.config = s.config := by rw [hframe]
  rw [hconfig, hwin] at hwindow' hshows hoff
  refine ⟨?_, hwindow', ?_, ?_, ?_, ?_, ?_⟩
  · rw [hframe', hframe, ← hp]
  · have hdrain : Shows s t [] := by
      rw [hframe]
      exact shows_nil rfl rfl rfl rfl rfl
    exact hdrain.before hshows
  · rw [hoff, hframe]
  · rw [hframe']
    exact hrd
  · refine Eq.trans ?_ hlive
    rw [hframe']
    rfl
  · rw [hframe']
    exact htaken

/-- A pass is its consumer turns behind SERVICE. -/
theorem Consumes.execThen_service {s t : State} (hp : s.ph = .idle) (h : Consumes { s with ph := .drain } t) :
    ∃ n, execThen .service (List.replicate n .consumer) s = .next t := by
  obtain ⟨n, hn⟩ := h
  exact ⟨n, (execThen_eq_runTurns _ (exec_service_idle hp)).trans hn⟩

/-- From every idle state SERVICE and the consumer's turns lead through a whole pass. -/
theorem service_passes {s : State} (hs : Inv s) (hp : s.ph = .idle) :
    ∃ n t, execThen .service (List.replicate n .consumer) s = .next t ∧ Passed s t := by
  have hs' := hs.passBegun hp
  obtain ⟨t, hrun, ht⟩ := drain_consumes hs' rfl
  obtain ⟨u, hrun', hu⟩ := gate_consumes (hrun.inv hs') (by rw [ht.frame])
  obtain ⟨n, hn⟩ := (hrun.trans hrun').execThen_service hp
  exact ⟨n, u, hn, ht.passed hp hu⟩

/-- A pass that can drain nothing, over an incomplete candidate at offset 0: four consumer turns that write only the scan's
scratch registers (R147, R162). -/
theorem service_waits {s : State} {fc len : Byte} {body : List Byte} (hs : Inv s) (hp : s.ph = .idle)
    (hend : s.config.w ≤ s.fill ∨ s.rd = s.wr) (hr : windowBytes s = header fc len ++ body)
    (ha : fc ∈ s.config.allow) (ho : oversize s.config len.toNat = false) (hi : s.fill < frameLen len.toNat) :
    ∃ t, execThen .service (List.replicate 4 .consumer) s = .next t ∧
      t = { s with sw := t.sw, off := 0, fcLatch := fc, lLatch := len, idx := t.idx } ∧
      ∀ a, t.sw.read a = s.sw.read a := by
  have hlen : s.fill = 4 + body.length := by rw [← windowBytes_length, hr, List.length_append, header_length]
  have hbody : body.length < len.toNat + 1 := by unfold frameLen at hi; omega
  have hdrain := stepTurn_drainEnds (s := { s with ph := .drain }) rfl hend
  have hgate := stepTurn_gateOpens (s := { s with ph := .gate }) rfl (show 4 ≤ s.fill by omega)
  have hinv := Inv.stepTurn hgate (Inv.stepTurn hdrain (hs.passBegun hp))
  have hscan := (EndsScan.incomplete ha ho hbody).stepTurn (s := { s with ph := .scan, off := 0 }) hinv.window rfl hr
  obtain ⟨t, hcompact, hframe, -, hread⟩ := stepTurn_compacts rfl (Inv.stepTurn hscan hinv).window
  refine ⟨t, ?_, ?_, fun a => (hread a).trans ?_⟩
  · rw [execThen_eq_runTurns _ (exec_service_idle hp)]
    exact (runTurns_cons_next _ hdrain).trans ((runTurns_cons_next _ hgate).trans
      ((runTurns_cons_next _ hscan).trans (runTurns_cons_next _ hcompact)))
  · rw [hframe]
    simp [endScan, latch, hp]
  · simp [endScan, latch]

end Sys2Proof.Machine
end

section
/-! PROOFS. The statements of 41_frame_scanner.md on a pass as a whole. -/

namespace Sys2Proof.Machine

/-- Settles O36: the drain phase, then the scan of the drained window and its compaction. -/
theorem passIsTheBigStepFunction : Obligations.PassIsTheBigStepFunction := by
  intro s hs hp
  obtain ⟨n, t, hrun, hframe, hwindow, hshows, hoff, hrd, hlive, htaken⟩ := service_passes hs hp
  exact ⟨n, t, hrun, hframe, hwindow, hshows.trace, hshows.run, hshows.counters, hoff, hrd, hlive, htaken⟩

/-- Settles O43: the candidate is not skipped, and the full window has no room. -/
theorem oversizeStallsWithoutForceAdvance : Obligations.OversizeStallsWithoutForceAdvance := by
  intro s fc len body hs hp hforce hfill hr ha hlen
  have ho : oversize s.config len.toNat = false := oversize_eq_false_iff.2 fun h => absurd h.1 (by simp [hforce])
  exact service_waits hs hp (.inl hfill.ge) hr ha ho (hfill.trans_lt hlen)

/-- Settles O44: the pass ends at the gate, or at the incomplete candidate. -/
theorem idlePassChangesNothing : Obligations.IdlePassChangesNothing := by
  refine fun s hs hp he => ⟨fun hfill => ?short, fun fc len body hr ha ho hi => service_waits hs hp (.inr he) hr ha ho hi⟩
  have hdrain := stepTurn_drainEnds (s := { s with ph := .drain }) rfl (.inr he)
  have hgate := stepTurn_gateCloses (s := { s with ph := .gate }) rfl hfill
  rw [execThen_eq_runTurns _ (exec_service_idle hp), runTurns_cons_next _ hdrain, runTurns_cons_next _ hgate, runTurns_nil]
  rw [← hp]

/-- With FORCE_ADVANCE the scan's tail is shorter than the window (R156). -/
theorem scanTail_lt {k : Config} (hk : k.wf) (hf : k.forceAdvance = true) (r : List Byte) :
    (scanBytes k r).2.length < k.w := by
  obtain ⟨-, hw, -⟩ := hk
  rcases tailIsShortOrIncomplete k r with h | ⟨fc, len, body, -, -, hlen, hfits⟩
  · omega
  · exact hlen.trans_le (hfits hf)

/-- Settles O45: the pass takes what fits, at least one byte if there is one, and its tail does not fill the window. -/
theorem passShortensTheRingAndLeavesRoom : Obligations.PassShortensTheRingAndLeavesRoom := by
  intro s hs hp hforce hfill
  obtain ⟨n, t, hrun, ht⟩ := service_passes hs hp
  have hocc : occ t = occ s - room s := by
    rw [← liveBytes_length, ht.live, List.length_drop, liveBytes_length]
  have hroom : 0 < room s := Nat.sub_pos_of_lt hfill
  refine ⟨n, t, hrun, by rw [ht.frame, hp], hocc, fun hne => by omega, ?_⟩
  rw [← windowBytes_length, ht.window, ht.shows.config]
  exact scanTail_lt hs.config_wf hforce _

end Sys2Proof.Machine
end

section
/-! PROOFS. Independent agents (41_frame_scanner.md R138, 43_frame_builder.md R199, 60_exceptions.md R230): an agent's turn
is decided by its own fields and by the few others it reads, and what it shows is added to whatever was shown before. Turns
that do not disturb what the other reads therefore commute, but for the order in which things are shown. -/

namespace Sys2Proof.Machine

/-! ## What an agent writes, reads and shows -/

/-- `x` with the fields that the agent's own turns write as `s` has them (R82). -/
def overlay : Turn → State → State → State
  | .request, _, x => x
  | .producer, s, x => { x with rb := s.rb, wr := s.wr, accepted := s.accepted, batch := s.batch }
  | .consumer, s, x => { x with
      rd := s.rd, taken := s.taken, sw := s.sw, fill := s.fill, off := s.off, ph := s.ph, fcLatch := s.fcLatch
      lLatch := s.lLatch, sum := s.sum, idx := s.idx, run := s.run, heldServices := s.heldServices }
  | .sender, s, x => { x with
      txb := s.txb, txlen := s.txlen, txi := s.txi, heldSends := s.heldSends, sinkAnswers := s.sinkAnswers }

/-- `x` after the ports have shown `os`. -/
def shown (os : List Obs) (x : State) : State :=
  { x with counters := countersAfter x.config x.counters os, trace := x.trace ++ os }

/-- `x` agrees with `s` on what the agent's turn at `s` reads beside its own fields. -/
def Sees : Turn → State → State → Prop
  | .request, _, _ => False
  | .producer, s, x => x.config = s.config ∧ x.rd = s.rd
  | .consumer, s, x => x.config = s.config ∧ (s.ph = .drain → x.rb = s.rb ∧ x.wr = s.wr)
  | .sender, s, x => x.config = s.config

/-- Wherever the agent finds its own fields as in `s` and sees the same, its turn leaves them as in `t` and shows `os`. -/
def ActsLocally (a : Turn) (s t : State) (os : List Obs) : Prop :=
  ∀ x, Sees a s x → stepTurn a (overlay a s x) = .next (shown os (overlay a t x))

theorem shown_nil (x : State) : shown [] x = x := by
  rw [shown, List.append_nil]
  rfl

theorem overlay_self (a : Turn) (s : State) : overlay a s s = s := by cases a <;> rfl

theorem overlay_shown (a : Turn) (s x : State) (os : List Obs) :
    overlay a s (shown os x) = shown os (overlay a s x) := by cases a <;> rfl

theorem overlay_trace (a : Turn) (s x : State) : (overlay a s x).trace = x.trace := by cases a <;> rfl

/-- Different agents write different fields. -/
theorem overlay_comm {a b : Turn} (h : a ≠ b) (s t x : State) :
    overlay a s (overlay b t x) = overlay b t (overlay a s x) := by
  cases a <;> cases b <;> simp [overlay] at h ⊢

/-- Another agent's turn leaves an agent's own fields alone. -/
theorem overlay_shown_overlay {a b : Turn} (h : a ≠ b) (s t : State) (os : List Obs) :
    overlay a s (shown os (overlay b t s)) = shown os (overlay b t s) := by
  rw [overlay_shown, overlay_comm h, overlay_self]

/-! ## The order of events -/

theorem Counters.bump_comm (k : Config) (c : Counters) (e e' : Event) :
    (c.bump k e).bump k e' = (c.bump k e').bump k e := by
  cases e <;> cases e' <;> rfl

/-- The counters do not depend on the order of the events. -/
theorem countersAfter_perm (k : Config) (c : Counters) {xs ys : List Obs} (h : xs.Perm ys) :
    countersAfter k c xs = countersAfter k c ys := by
  refine h.foldl_eq' (fun x _ y _ c => ?_) c
  cases x with
  | event e l =>
    cases y with
    | event e' l' => exact Counters.bump_comm k c e e'
    | dispatch | transmit | hasData | tookByte | snapshotRun | snapshotConfig => rfl
  | dispatch | transmit | hasData | tookByte | snapshotRun | snapshotConfig => rfl

theorem sameUpToOrder_shown {s x : State} (hx : x.trace = s.trace) (xs ys : List Obs) :
    SameUpToOrder s (shown ys (shown xs x)) (shown xs (shown ys x)) := by
  refine ⟨?_, xs, ys, by rw [← hx]; rfl, by rw [← hx]; rfl⟩
  have hcounters : countersAfter x.config (countersAfter x.config x.counters xs) ys =
      countersAfter x.config (countersAfter x.config x.counters ys) xs := by
    rw [← countersAfter_append, ← countersAfter_append, countersAfter_perm _ _ List.perm_append_comm]
  simp only [shown, hcounters]

/-- Turns of two agents, neither of which changes what the other sees, commute. -/
theorem runTurns_commute {a b : Turn} {s t u : State} {xs ys : List Obs} (hab : a ≠ b) (ha : ActsLocally a s t xs)
    (hb : ActsLocally b s u ys) (hsa : Sees a s s) (hsb : Sees b s s) (hsa' : Sees a s (shown ys (overlay b u s)))
    (hsb' : Sees b s (shown xs (overlay a t s))) :
    ∃ v w, runTurns [a, b] s = .next v ∧ runTurns [b, a] s = .next w ∧ SameUpToOrder s v w := by
  have ha1 := ha s hsa
  have hb1 := hb s hsb
  have ha2 := ha _ hsa'
  have hb2 := hb _ hsb'
  rw [overlay_self] at ha1 hb1
  rw [overlay_shown_overlay hab] at ha2
  rw [overlay_shown_overlay hab.symm] at hb2
  refine ⟨_, _, (runTurns_cons_next _ ha1).trans (runTurns_cons_next _ hb2),
    (runTurns_cons_next _ hb1).trans (runTurns_cons_next _ ha2), ?_⟩
  rw [overlay_shown, overlay_shown, overlay_comm hab]
  exact sameUpToOrder_shown (by rw [overlay_trace, overlay_trace]) xs ys

/-! ## The producer -/

theorem stepTurn_producer_nil {s : State} (h : s.batch = []) : stepTurn .producer s = .next s := by
  rw [stepTurn_eq, takeTurn, producerTurn, h]

theorem producer_actsLocally {s : State} (hs : CursorsInRange s) : ∃ t os, ActsLocally .producer s t os := by
  cases hb : s.batch with
  | nil =>
    refine ⟨s, [], fun x _ => ?_⟩
    rw [shown_nil]
    exact stepTurn_producer_nil hb
  | cons b bs =>
    by_cases hf : incC s.config s.wr = s.rd
    · refine ⟨{ s with batch := bs }, [.event .drop 0], ?_⟩
      rintro ⟨⟩ ⟨rfl, rfl⟩
      exact Eq.trans (stepTurn_producer_cons hb) (exec_push_full b hs hf)
    · refine ⟨accept b { s with batch := bs }, [], ?_⟩
      rintro ⟨⟩ ⟨rfl, rfl⟩
      rw [shown_nil]
      exact Eq.trans (stepTurn_producer_cons hb) (exec_push_accepts b hs hf)

/-! ## The sender -/

theorem stepTurn_sender_nothing {s : State} (hz : s.txlen = 0) (h : s.heldSends = []) :
    stepTurn .sender s = .next s := by
  have hb : ¬txBusy s = true := fun hb => of_decide_eq_true hb hz
  rw [stepTurn_eq, takeTurn, senderTurn, if_neg hb, h]

/-- SEND_FRAME with no send in progress builds (R186). -/
theorem exec_sendFrame_builds {s : State} {fc : Byte} {p : List Byte} {m : Memory} (hp : p.length ≤ 255)
    (hz : s.txlen = 0) (hm : buildWrites s.config fc p s.txb = .ok m) :
    exec (.sendFrame fc p) s = .next { s with txb := m, txlen := frameLen p.length, txi := 0 } := by
  have hb : ¬txBusy s = true := fun hb => of_decide_eq_true hb hz
  simp only [exec, execSendFrame, if_pos (payloadFits_eq_true.2 hp), if_neg hb, buildOp, hm, answerOf]

/-- SERIALIZE_STEP reads and writes the sender's fields only. -/
theorem serializeByte_overlay (b : Byte) (s : State) :
    ∃ os, ∀ x, serializeByte b (overlay .sender s x) = shown os (overlay .sender (serializeByte b s) x) := by
  by_cases hlt : s.txi < s.txlen
  case neg =>
    refine ⟨[.transmit b (sinkAnswer s)], fun x => ?_⟩
    rw [serializeByte_of_not_enabled b (s := s) (Nat.le_of_not_lt hlt),
      serializeByte_of_not_enabled b (s := overlay .sender s x) (Nat.le_of_not_lt hlt)]
    rfl
  cases ha : sinkAnswer s with
  | false =>
    refine ⟨[.transmit b (sinkAnswer s), .event .sinkFail 0], fun x => ?_⟩
    rw [serializeByte_of_not_ok b ha hlt, serializeByte_of_not_ok b (s := overlay .sender s x) ha hlt]
    have htrace : x.trace ++ [.transmit b (sinkAnswer s)] ++ [.event .sinkFail 0] =
        x.trace ++ [.transmit b (sinkAnswer s), .event .sinkFail 0] := List.append_assoc _ _ _
    rw [shown, overlay_trace, ← htrace]
    rfl
  | true =>
    refine ⟨[.transmit b (sinkAnswer s)], fun x => ?_⟩
    by_cases hl : s.txi + 1 = s.txlen
    · rw [serializeByte_of_ok_last b ha hl, serializeByte_of_ok_last b (s := overlay .sender s x) ha hl]
      rfl
    · have hl : s.txi + 1 < s.txlen := by omega
      rw [serializeByte_of_ok b ha hl, serializeByte_of_ok b (s := overlay .sender s x) ha hl]
      rfl

theorem sender_actsLocally {s : State} (hs : BuilderInv s) (hheld : ∀ x ∈ s.heldSends, x.2.length ≤ 255) :
    ∃ t os, ActsLocally .sender s t os := by
  by_cases hz : s.txlen = 0
  case neg =>
    obtain ⟨hlen, -, -, hread⟩ := hs
    have hlt : s.txi < s.txlen := by omega
    obtain ⟨b, hb⟩ := Option.isSome_iff_exists.1 (hread _ hlt)
    have hin : s.txi < 260 := by omega
    obtain ⟨os, hos⟩ := serializeByte_overlay b s
    refine ⟨serializeByte b s, os, fun x _ => ?_⟩
    rw [← hos x]
    exact stepTurn_sender_offers (s := overlay .sender s x) hlt (load_eq_ok.2 ⟨hin, hb⟩)
  cases hh : s.heldSends with
  | nil =>
    refine ⟨s, [], fun x _ => ?_⟩
    rw [shown_nil]
    exact stepTurn_sender_nothing hz hh
  | cons y rest =>
    obtain ⟨fc, p⟩ := y
    have hp : p.length ≤ 255 := hheld (fc, p) (hh ▸ List.mem_cons_self)
    obtain ⟨m, hm, -⟩ := buildWrites_ok s.config fc s.txb hp
    refine ⟨{ s with txb := m, txlen := frameLen p.length, txi := 0, heldSends := rest }, [], ?_⟩
    rintro ⟨⟩ ⟨rfl⟩
    rw [shown_nil]
    exact Eq.trans (stepTurn_heldSend hz hh) (exec_sendFrame_builds hp hz hm)

/-! ## The consumer -/

theorem eq_with_config {s x : State} (h : x.config = s.config) : x = { x with config := s.config } := by rw [← h]

theorem eq_with_ring {s x : State} (h : x.config = s.config) (hrb : x.rb = s.rb) (hwr : x.wr = s.wr) :
    x = { x with config := s.config, rb := s.rb, wr := s.wr } := by
  rw [← h, ← hrb, ← hwr]

/-- A row of the table reads and writes the consumer's fields only. -/
theorem MovesOn.overlay {s x : State} {r : List Byte} {f : State → State} {os : List Obs} {n : Nat}
    (h : MovesOn s.config r f os n) (hx : x.config = s.config) :
    f (Machine.overlay .consumer s x) = shown os (Machine.overlay .consumer (f s) x) := by
  rw [eq_with_config hx]
  cases h with
  | noMarker | illegalCode | oversized | badChecksum => rfl
  | accepted =>
    simp only [acceptFrame_eq]
    rfl

theorem EndsScan.overlay {k : Config} {r : List Byte} {f : State → State} (h : EndsScan k r f) (s x : State) :
    f (Machine.overlay .consumer s x) = Machine.overlay .consumer (f s) x := by
  cases h <;> rfl

theorem scan_actsLocally {s : State} (hw : WindowInv s) (hp : s.ph = .scan) : ∃ t os, ActsLocally .consumer s t os := by
  rcases endsScan_or_movesOn s.config (unscanned s) with ⟨f, h⟩ | ⟨f, os, n, h⟩
  · refine ⟨f s, [], fun x ⟨hx, _⟩ => ?_⟩
    rw [shown_nil, ← h.overlay, eq_with_config hx]
    exact h.stepTurn (s := overlay .consumer s { x with config := s.config }) hw hp rfl
  · refine ⟨f s, os, fun x ⟨hx, _⟩ => ?_⟩
    rw [← h.overlay hx, eq_with_config hx]
    exact h.stepTurn (s := overlay .consumer s { x with config := s.config }) hw hp rfl

theorem drain_actsLocally {s : State} (hr : RingInv s) (hp : s.ph = .drain) : ∃ t os, ActsLocally .consumer s t os := by
  by_cases h : s.fill < s.config.w ∧ s.rd ≠ s.wr
  · obtain ⟨hf, hd⟩ := h
    refine ⟨drainOldest s, [], fun x ⟨hx, hring⟩ => ?_⟩
    obtain ⟨hrb, hwr⟩ := hring hp
    rw [shown_nil, eq_with_ring hx hrb hwr]
    exact stepTurn_drains hp hr hd hf
  · have hend : s.config.w ≤ s.fill ∨ s.rd = s.wr := by omega
    refine ⟨{ s with ph := .gate }, [], fun x ⟨hx, hring⟩ => ?_⟩
    obtain ⟨hrb, hwr⟩ := hring hp
    rw [shown_nil, eq_with_ring hx hrb hwr]
    exact stepTurn_drainEnds hp hend

theorem compactOp_of_copyDown {s : State} {m : Memory}
    (hm : copyDown s.config .sw s.sw s.off 0 (s.fill - s.off) = .ok m) :
    compactOp s = .ok { s with sw := m, fill := s.fill - s.off, idx := s.fill - s.off, ph := .idle } := by
  rw [compactOp, hm]

theorem compactOp_overlay {s t x : State} (hx : x.config = s.config) (h : compactOp s = .ok t) :
    compactOp (overlay .consumer s x) = .ok (overlay .consumer t x) := by
  rw [eq_with_config hx]
  unfold compactOp at h
  split at h
  next => cases h
  next m hm =>
    cases h
    exact compactOp_of_copyDown hm

theorem compact_actsLocally {s : State} (hw : WindowInv s) (hp : s.ph = .compact) :
    ∃ t os, ActsLocally .consumer s t os := by
  obtain ⟨m, hm, -⟩ := compactOp_ok hw (off_le_fill hw (.inr hp))
  refine ⟨{ s with sw := m, fill := s.fill - s.off, idx := s.fill - s.off, ph := .idle }, [], fun x ⟨hx, _⟩ => ?_⟩
  rw [shown_nil]
  exact (stepTurn_consumer_compact (s := overlay .consumer s x) hp).trans (congrArg answerOf (compactOp_overlay hx hm))

theorem consumer_actsLocally {s : State} (hs : Inv s) : ∃ t os, ActsLocally .consumer s t os := by
  cases hp : s.ph with
  | idle =>
    cases hn : s.heldServices with
    | zero =>
      refine ⟨s, [], fun x _ => ?_⟩
      rw [shown_nil]
      exact stepTurn_consumer_idle hp hn
    | succ n =>
      refine ⟨{ s with ph := .drain, heldServices := n }, [], fun x _ => ?_⟩
      rw [shown_nil]
      exact Eq.trans (stepTurn_heldService hp hn) (exec_service_idle hp)
  | drain => exact drain_actsLocally hs.ring hp
  | gate =>
    by_cases h : s.fill < 4
    · refine ⟨{ s with ph := .idle }, [], fun x _ => ?_⟩
      rw [shown_nil]
      exact stepTurn_gateCloses hp h
    · refine ⟨{ s with ph := .scan, off := 0 }, [], fun x _ => ?_⟩
      rw [shown_nil]
      exact stepTurn_gateOpens hp (Nat.le_of_not_lt h)
  | scan => exact scan_actsLocally hs.window hp
  | compact => exact compact_actsLocally hs.window hp

/-- Outside the drain phase a consumer turn leaves the ring alone (R138). -/
theorem stepTurn_consumer_ring {s t : State} (hp : s.ph ≠ .drain) (h : stepTurn .consumer s = .next t) :
    t.rb = s.rb ∧ t.wr = s.wr ∧ t.rd = s.rd := by
  rw [stepTurn_eq_answer, takeTurn, consumerTurn] at h
  split at h
  next =>
    split at h
    next =>
      cases h
      exact ⟨rfl, rfl, rfl⟩
    next =>
      rw [exec_service_frame h]
      exact ⟨rfl, rfl, rfl⟩
  next hd => exact absurd hd hp
  next =>
    cases h
    rw [gateTurn_frame]
    exact ⟨rfl, rfl, rfl⟩
  next =>
    rw [(scanTurn_scanned h).frame]
    exact ⟨rfl, rfl, rfl⟩
  next =>
    rw [compactOp_frame (answerOf_eq_next h)]
    exact ⟨rfl, rfl, rfl⟩

end Sys2Proof.Machine
end

section
/-! PROOFS. The statement on independent agents (41_frame_scanner.md R138, 43_frame_builder.md R199). -/

namespace Sys2Proof.Machine

/-- Settles O60: each agent's turn acts on its own fields, and what the other agent reads stays. -/
theorem independentAgentsCommute : Obligations.IndependentAgentsCommute := by
  refine ⟨fun s t hp h => stepTurn_consumer_ring hp h, fun s hs hp => ?consumerProducer, fun s a hs ha => ?sender⟩
  case consumerProducer =>
    obtain ⟨t, xs, hc⟩ := consumer_actsLocally hs
    obtain ⟨u, ys, hpr⟩ := producer_actsLocally hs.ring.1
    have hself : Sees .consumer s s := ⟨rfl, fun _ => ⟨rfl, rfl⟩⟩
    have hstep := hc s hself
    rw [overlay_self] at hstep
    obtain ⟨-, -, hrd⟩ := stepTurn_consumer_ring hp hstep
    exact runTurns_commute nofun hc hpr hself ⟨rfl, rfl⟩ ⟨rfl, fun hd => absurd hd hp⟩ ⟨rfl, hrd⟩
  case sender =>
    obtain ⟨-, -, -, hbuild, -, -, -, hheld⟩ := id hs
    obtain ⟨t, xs, hsend⟩ := sender_actsLocally hbuild hheld
    rcases ha with rfl | rfl
    · obtain ⟨u, ys, hpr⟩ := producer_actsLocally hs.ring.1
      exact runTurns_commute nofun hsend hpr rfl ⟨rfl, rfl⟩ rfl ⟨rfl, rfl⟩
    · obtain ⟨u, ys, hc⟩ := consumer_actsLocally hs
      exact runTurns_commute nofun hsend hc rfl ⟨rfl, fun _ => ⟨rfl, rfl⟩⟩ rfl ⟨rfl, fun _ => ⟨rfl, rfl⟩⟩

end Sys2Proof.Machine
end

section
/-! PROOFS. The statements of 42_frame_dispatcher.md on reserved codes and on snapshots. -/

namespace Sys2Proof.Machine

theorem ReservedFrame.legalFrame {k : Config} {i : Instr} {fc : Byte} {p : List Byte} {cks : Byte}
    (h : ReservedFrame k i fc p cks) : LegalFrame k i fc p cks := .inr h

/-- The handled code is in no reserved class (R107, R108). -/
theorem ReservedFrame.ne_fcRun {k : Config} {i : Instr} {fc : Byte} {p : List Byte} {cks : Byte}
    (h : ReservedFrame k i fc p cks) : fc ≠ k.fcRun := by
  intro hfc
  rw [ReservedFrame, Config.classOf_handled.2 hfc] at h
  obtain ⟨hc, -⟩ | ⟨hc, -⟩ | ⟨hc, -⟩ := h <;> cases hc

/-- Settles O32: the accept step, whose dispatch is of a code without a handler. -/
theorem reservedFramesAreConsumed : Obligations.ReservedFramesAreConsumed := by
  intro s i fc p hres ho hfit
  obtain ⟨ha, hi⟩ := hres.legalFrame.exec_eq
  refine ⟨_, hi, ?_⟩
  rw [frameIteration_whole ha ho hfit, if_pos rfl, acceptFrame_eq]
  simp [hres.ne_fcRun, acceptObs, dispatchObs, countersAfter, frameLen, Nat.add_assoc]

/-- Settles O49: the meaning of a snapshot is to show its record. -/
theorem snapshotsCopyTheRecords : Obligations.SnapshotsCopyTheRecords := fun _ => ⟨rfl, rfl⟩

end Sys2Proof.Machine
end

section
/-! PROOFS. A send run forward (43_frame_builder.md R185 to R195): BUILD places the frame's bytes in TXB, and every sender turn
that the SINK answers with ok moves the send on by one of them. -/

namespace Sys2Proof.Machine

/-! ## One more turn -/

/-- A run, then one more turn of the same agent. -/
theorem runTurns_replicate_succ {a : Turn} {n : Nat} {s t : State} (h : runTurns (List.replicate n a) s = .next t) :
    runTurns (List.replicate (n + 1) a) s = stepTurn a t := by
  rw [List.replicate_succ', runTurns_append h]
  cases ht : stepTurn a t <;> simp [runTurns, ht]

/-! ## The bytes of a send and the SINK's answers -/

/-- TXB holds `bs` from offset 0 on. -/
def HoldsBytes (m : Memory) (bs : List Byte) : Prop := ∀ j, (h : j < bs.length) → m.read j = some bs[j]

/-- The SINK answers ok to the next `n` offers; a list of answers that has ended answers ok (R116). -/
def AnswersOk (s : State) (n : Nat) : Prop := ∀ j < n, s.sinkAnswers[j]?.getD true = true

theorem AnswersOk.le {s : State} {m n : Nat} (h : AnswersOk s n) (hm : m ≤ n) : AnswersOk s m :=
  fun j hj => h j (hj.trans_le hm)

theorem answersOk_of_take {s : State} {n : Nat} (h : ∀ ok ∈ s.sinkAnswers.take n, ok = true) : AnswersOk s n := by
  intro j hj
  cases hget : s.sinkAnswers[j]? with
  | none => rfl
  | some ok =>
    refine h ok (List.mem_of_getElem? (i := j) ?_)
    rw [List.getElem?_take_of_lt hj, hget]

theorem answersOk_of_replicate {s : State} {n : Nat} {more : List Bool}
    (h : s.sinkAnswers = List.replicate n true ++ more) : AnswersOk s n := by
  refine answersOk_of_take fun ok hok => ?_
  rw [h, List.take_left' List.length_replicate] at hok
  exact List.eq_of_mem_replicate hok

theorem answersOk_of_nil {s : State} (h : s.sinkAnswers = []) (n : Nat) : AnswersOk s n := by
  intro j _
  rw [h]
  rfl

/-- What the offers of `bs` show when the SINK answers ok to each. -/
def transmitted (bs : List Byte) : List Obs := bs.map fun b => .transmit b true

theorem transmitted_take_succ {bs : List Byte} {n : Nat} (hn : n < bs.length) :
    transmitted (bs.take (n + 1)) = transmitted (bs.take n) ++ [.transmit bs[n] true] := by
  rw [transmitted, List.take_succ_eq_append_getElem hn, List.map_append]
  rfl

theorem emittedBytes_append (xs ys : List Obs) : emittedBytes (xs ++ ys) = emittedBytes xs ++ emittedBytes ys :=
  List.filterMap_append

/-- The bytes that were answered ok are the bytes emitted (R193). -/
theorem emittedBytes_transmitted (bs : List Byte) : emittedBytes (transmitted bs) = bs := by
  simp [emittedBytes, transmitted]

/-- The byte that was answered not ok is not emitted (R194). -/
theorem emittedBytes_transmitted_failed (bs : List Byte) (b : Byte) :
    emittedBytes (transmitted bs ++ [.transmit b false, .event .sinkFail 0]) = bs := by
  rw [emittedBytes_append, emittedBytes_transmitted]
  exact List.append_nil bs

/-! ## BUILD -/

/-- `s` in the send of the bytes `bs` that TXB holds, `n` of them emitted. -/
def sentUpTo (s : State) (m : Memory) (bs : List Byte) (n : Nat) : State :=
  { s with
    txb := m, txlen := bs.length, txi := n
    sinkAnswers := s.sinkAnswers.drop n, trace := s.trace ++ transmitted (bs.take n) }

/-- BUILD begins the send of the encoded frame (R186). -/
theorem exec_sendFrame_begins {s : State} (fc : Byte) {p : List Byte} (hp : p.length ≤ 255) (hz : s.txlen = 0) :
    ∃ m, exec (.sendFrame fc p) s = .next (sentUpTo s m (encFrame fc p) 0) ∧ HoldsBytes m (encFrame fc p) := by
  obtain ⟨m, hm, hread, -⟩ := buildWrites_ok s.config fc s.txb hp
  refine ⟨m, ?_, fun j hj => ?_⟩
  · rw [exec_sendFrame_builds hp hz hm]
    simp [sentUpTo, transmitted]
  · rw [hread, if_pos (by rwa [encFrame_length] at hj), List.getElem?_eq_getElem hj]

/-- SEND_FRAME during a send is held (R198). -/
theorem exec_sendFrame_waits {s : State} (fc : Byte) {p : List Byte} (hp : p.length ≤ 255) (hb : s.txlen ≠ 0) :
    exec (.sendFrame fc p) s = .next { s with heldSends := s.heldSends ++ [(fc, p)] } := by
  have hbusy : txBusy s = true := decide_eq_true hb
  simp only [exec, execSendFrame, if_pos (payloadFits_eq_true.2 hp), if_pos hbusy]

/-! ## The serializer's turns -/

section
variable {s : State} {m : Memory} {bs : List Byte} {n : Nat}

theorem sinkAnswer_sentUpTo : sinkAnswer (sentUpTo s m bs n) = s.sinkAnswers[n]?.getD true := by
  simp [sinkAnswer, sentUpTo, List.headD_eq_head?_getD]

/-- The turn offers the next byte of the frame (R193). -/
theorem stepTurn_sentUpTo (hm : HoldsBytes m bs) (hl : bs.length ≤ 260) (hn : n < bs.length) :
    stepTurn .sender (sentUpTo s m bs n) = .next (serializeByte bs[n] (sentUpTo s m bs n)) :=
  stepTurn_sender_offers (s := sentUpTo s m bs n) hn (load_eq_ok.2 ⟨hn.trans_le hl, hm n hn⟩)

theorem transmitOp_sentUpTo (hn : n < bs.length) (ha : s.sinkAnswers[n]?.getD true = true) :
    transmitOp bs[n] (sentUpTo s m bs n) = { sentUpTo s m bs (n + 1) with txi := n } := by
  rw [transmitOp_of_answer _ (sinkAnswer_sentUpTo.trans ha)]
  simp [sentUpTo, transmitted_take_succ hn]

/-- On ok the send has emitted one byte more. -/
theorem serializeByte_sentUpTo (hn : n + 1 < bs.length) (ha : s.sinkAnswers[n]?.getD true = true) :
    serializeByte bs[n] (sentUpTo s m bs n) = sentUpTo s m bs (n + 1) := by
  rw [serializeByte_of_ok _ (sinkAnswer_sentUpTo.trans ha) hn, transmitOp_sentUpTo _ ha]
  rfl

/-- On ok at the last byte the send ends with every byte emitted (R191, R195). -/
theorem serializeByte_sentUpTo_last (hn : n + 1 = bs.length) (ha : s.sinkAnswers[n]?.getD true = true) :
    serializeByte bs[n] (sentUpTo s m bs n) = endSend (sentUpTo s m bs bs.length) := by
  rw [serializeByte_of_ok_last _ (sinkAnswer_sentUpTo.trans ha) hn, transmitOp_sentUpTo _ ha, ← hn]
  rfl

/-- On not ok the send ends with EV_SINKFAIL, and the byte offered is not emitted (R194). -/
theorem serializeByte_sentUpTo_failed (hn : n < bs.length) (ha : s.sinkAnswers[n]?.getD true = false) :
    serializeByte bs[n] (sentUpTo s m bs n) = { s with
      txb := m, txlen := 0, txi := 0, sinkAnswers := s.sinkAnswers.drop (n + 1)
      counters := s.counters.bump s.config .sinkFail
      trace := s.trace ++ (transmitted (bs.take n) ++ [.transmit bs[n] false, .event .sinkFail 0]) } := by
  have ha' := sinkAnswer_sentUpTo (m := m) (bs := bs) |>.trans ha
  rw [serializeByte_of_not_ok _ ha' hn, transmitOp_of_answer _ ha']
  simp [sentUpTo, endSend, emit, note]

/-- With ok answers only, `n` turns emit the first `n` bytes. -/
theorem runTurns_sentUpTo (hm : HoldsBytes m bs) (hl : bs.length ≤ 260) (hn : n < bs.length) (ha : AnswersOk s n) :
    runTurns (List.replicate n .sender) (sentUpTo s m bs 0) = .next (sentUpTo s m bs n) := by
  induction n with
  | zero => rfl
  | succ n ih =>
    rw [runTurns_replicate_succ (ih (by omega) (ha.le n.le_succ)), stepTurn_sentUpTo hm hl (by omega),
      serializeByte_sentUpTo hn (ha n n.lt_succ_self)]

end

/-! ## SEND_FRAME and the turns of its send -/

/-- SEND_FRAME and `n` ok answers: the first `n` bytes of the frame are emitted, and the next turn offers the next one. -/
theorem sendFrame_sentUpTo {s : State} (fc : Byte) {p : List Byte} (hp : p.length ≤ 255) (hz : s.txlen = 0) :
    ∃ m, ∀ n, (hn : n < (encFrame fc p).length) → AnswersOk s n →
      execThen (.sendFrame fc p) (List.replicate n .sender) s = .next (sentUpTo s m (encFrame fc p) n) ∧
      execThen (.sendFrame fc p) (List.replicate (n + 1) .sender) s =
        .next (serializeByte (encFrame fc p)[n] (sentUpTo s m (encFrame fc p) n)) := by
  obtain ⟨m, hbuild, hm⟩ := exec_sendFrame_begins fc hp hz
  have hl : (encFrame fc p).length ≤ 260 := by
    rw [encFrame_length, frameLen]
    omega
  refine ⟨m, fun n hn ha => ?_⟩
  have hrun := runTurns_sentUpTo hm hl hn ha
  rw [execThen_eq_runTurns _ hbuild, execThen_eq_runTurns _ hbuild, runTurns_replicate_succ hrun]
  exact ⟨hrun, stepTurn_sentUpTo hm hl hn⟩

/-- With ok answers only, the whole send emits the whole frame and leaves no send in progress (R191). -/
theorem sendFrame_completes {s : State} (fc : Byte) {p : List Byte} (hp : p.length ≤ 255) (hz : s.txlen = 0)
    (ha : AnswersOk s (frameLen p.length)) :
    ∃ m, execThen (.sendFrame fc p) (List.replicate (frameLen p.length) .sender) s = .next { s with
      txb := m, txlen := 0, txi := 0, sinkAnswers := s.sinkAnswers.drop (frameLen p.length)
      trace := s.trace ++ transmitted (encFrame fc p) } := by
  obtain ⟨m, hrun⟩ := sendFrame_sentUpTo fc hp hz
  have hlast : 4 + p.length + 1 = (encFrame fc p).length := (encFrame_length fc p).symm
  obtain ⟨-, hend⟩ := hrun (4 + p.length) (by omega) (ha.le (Nat.le_succ _))
  refine ⟨m, hend.trans ?_⟩
  rw [serializeByte_sentUpTo_last hlast (ha _ (Nat.lt_succ_self _)), sentUpTo, List.take_length, encFrame_length]
  rfl

end Sys2Proof.Machine
end

section
/-! PROOFS. The receiver of one whole frame (44_system_properties.md R201, R207): the ring takes the frame's bytes, and one pass
accepts it and leaves nothing behind. -/

namespace Sys2Proof.Machine

/-- PUSH_MANY of bytes for which an empty ring has room, pushed out: they are the live bytes, and nothing is shown (R122). -/
theorem pushMany_fills {s : State} {bs : List Byte} (hs : Inv s) (hb : s.batch = []) (he : s.rd = s.wr)
    (hfit : bs.length ≤ s.config.c - 1) :
    ∃ t, execThen (.pushMany bs) (List.replicate bs.length .producer) s = .next t ∧ Inv t ∧
      t = { s with rb := t.rb, wr := t.wr, accepted := t.accepted } ∧ liveBytes t = bs := by
  obtain ⟨-, hpush⟩ := pushManyKeepsThePrefixThatFits
  obtain ⟨t, hrun, hframe, hlive, -⟩ := hpush bs bs.length s hs hb le_rfl
  obtain ⟨hcur, -⟩ := hs.ring
  have hocc : occ s = 0 := (occ_eq_zero hcur).2 he
  have hkept : (bs.take bs.length).take (s.config.c - 1 - occ s) = bs := by
    rw [hocc, Nat.sub_zero, List.take_length, List.take_of_length_le hfit]
  have hnone : liveBytes s = [] := List.eq_nil_of_length_eq_zero ((liveBytes_length s).trans hocc)
  simp only [hkept, Nat.sub_self, List.replicate_zero, List.append_nil, List.drop_length] at hframe
  have hinv : Inv t := runTurns_inv ((sameButWaiting_batch s _).inv hs) hrun
  refine ⟨t, hrun, hinv, hframe.trans ?_, by rw [hlive, hkept, hnone, List.nil_append]⟩
  rw [hframe, ← hb]
  rfl

/-- RUN after an accepted frame (R170, R171). -/
theorem runAfter_acceptObs (k : Config) (run : List Byte) (fc : Byte) (p : List Byte) :
    runAfter k run (acceptObs k fc p) = if fc = k.fcRun ∧ p.length = k.runSize then p else run := by
  by_cases hf : fc = k.fcRun
  · by_cases hl : p.length = k.runSize <;> simp [acceptObs, dispatchObs, runAfter, hf, hl]
  · simp [acceptObs, dispatchObs, runAfter, hf]

/-- A pass over an empty window and a ring that holds one receivable frame: the frame is accepted and nothing is left (R201). -/
theorem service_accepts {s : State} {fc : Byte} {p : List Byte} (hs : Inv s) (hp : s.ph = .idle) (hfill : s.fill = 0)
    (hlive : liveBytes s = encFrame fc p) (hlen : p.length ≤ 255) (ha : fc ∈ s.config.allow)
    (hfit : frameLen p.length ≤ s.config.w) :
    ∃ n t, execThen .service (List.replicate n .consumer) s = .next t ∧ Shows s t (acceptObs s.config fc p) ∧
      t.ph = .idle ∧ t.rd = t.wr ∧ t.fill = 0 := by
  obtain ⟨n, t, hrun, ht⟩ := service_passes hs hp
  have hroom : (encFrame fc p).length ≤ room s := by rwa [encFrame_length, room, hfill]
  have hwin : windowBytes s = [] := List.eq_nil_of_length_eq_zero ((windowBytes_length s).trans hfill)
  have hdrained : drainedWindow s = encFrame fc p := by
    rw [drainedWindow, hwin, hlive, List.nil_append]
    exact List.take_of_length_le hroom
  have hscan : scanBytes s.config (encFrame fc p) = (acceptObs s.config fc p, []) := by
    simpa [scanBytes_short] using encodedFrameIsDispatchedOnce s.config fc p [] hlen ha hfit
  have hshows := ht.shows
  have hwindow := ht.window
  rw [hdrained, hscan] at hshows hwindow
  have hrest : liveBytes t = [] := by rw [ht.live, hlive, List.drop_of_length_le hroom]
  have hinv : Inv t := runTurns_inv (hs.passBegun hp) ((execThen_eq_runTurns _ (exec_service_idle hp)).symm.trans hrun)
  obtain ⟨hcur, -⟩ := hinv.ring
  refine ⟨n, t, hrun, hshows, by rw [ht.frame, hp], (occ_eq_zero hcur).1 ?_, ?_⟩
  · rw [← liveBytes_length, hrest, List.length_nil]
  · rw [← windowBytes_length, hwindow, List.length_nil]

end Sys2Proof.Machine
end

section
/-! PROOFS. The statements of 43_frame_builder.md: BUILD, the serializer and the SINK's answers, held requests, and one machine's
frame received by another. -/

namespace Sys2Proof.Machine

/-- Settles O51: BUILD's writes, index by index. -/
theorem buildPlacesTheFrame : Obligations.BuildPlacesTheFrame := by
  intro s fc p hp hz
  obtain ⟨m, hm, hread, -⟩ := buildWrites_ok s.config fc s.txb hp
  exact ⟨_, exec_sendFrame_builds hp hz hm, rfl, fun a ha => (hread a).trans (if_pos ha),
    fun a ha => (hread a).trans (if_neg (Nat.not_lt.2 ha))⟩

/-- Settles O52: a request during a send, and the sender's turn between sends. -/
theorem secondSendWaits : Obligations.SecondSendWaits :=
  fun _ fc _ hp => ⟨exec_sendFrame_waits fc hp, fun _ hz hheld => stepTurn_heldSend hz hheld⟩

/-- Settles O54: the turn is TRANSMIT_ONE of the byte at TXI, which has the outcomes of O53. -/
theorem serializerOffersOneByte : Obligations.SerializerOffersOneByte := by
  intro s hs hb
  obtain ⟨-, -, -, hbuild, -⟩ := hs
  obtain ⟨b, hread, hturn⟩ := senderTurn_busy hbuild hb
  obtain ⟨hlen, -⟩ := hbuild
  have hstep : stepTurn .sender s = exec (.transmitOne b) s := by rw [stepTurn_eq, takeTurn, hturn]
  obtain ⟨hok, hlast, hfailed, -⟩ := transmitOneTakesOneAnswer s b
  rw [← hstep] at hok hlast hfailed
  exact ⟨b, hread, hok, hlast, fun ha => hfailed ha (by omega)⟩

/-- Settles O55: the frame is emitted byte by byte, and the turn after the last ok answer but one ends the send. -/
theorem sendEmitsTheEncodedFrame : Obligations.SendEmitsTheEncodedFrame := by
  intro s fc p hp hz htake
  have ha := answersOk_of_take htake
  refine ⟨fun n hn => ?part, ?whole⟩
  case part =>
    obtain ⟨m, hrun⟩ := sendFrame_sentUpTo (s := s) fc hp hz
    obtain ⟨hsent, -⟩ := hrun n (by rwa [encFrame_length]) (ha.le hn.le)
    refine ⟨_, hsent, decide_eq_true ?_, rfl, rfl⟩
    rw [sentUpTo, encFrame_length]
    exact Nat.succ_ne_zero _
  case whole =>
    obtain ⟨m, hrun⟩ := sendFrame_completes fc hp hz ha
    exact ⟨_, hrun, rfl⟩

/-- Settles O56: `n` ok answers, then the turn that gets the other answer. -/
theorem sinkFailureCutsTheFrameShort : Obligations.SinkFailureCutsTheFrameShort := by
  intro s fc p n more hp hz hn hanswers
  have hlen : n < (encFrame fc p).length := by rwa [encFrame_length]
  have hfail : s.sinkAnswers[n]?.getD true = false := by simp [hanswers]
  have hmore : s.sinkAnswers.drop (n + 1) = more := by simp [hanswers, List.drop_append]
  obtain ⟨m, hrun⟩ := sendFrame_sentUpTo (s := s) fc hp hz
  obtain ⟨-, hcut⟩ := hrun n hlen (answersOk_of_replicate hanswers)
  rw [serializeByte_sentUpTo_failed hlen hfail, hmore] at hcut
  refine ⟨_, (encFrame fc p)[n], _, hcut, List.getElem?_eq_getElem hlen, rfl,
    emittedBytes_transmitted_failed _ _, rfl⟩

/-- Settles O46: the send emits the encoded frame, the ring takes all of it, and the pass accepts it. -/
theorem sentFrameIsDispatchedByTheReceiver : Obligations.SentFrameIsDispatchedByTheReceiver := by
  intro a b fc p _ hb hp hz hsink hph he hfill hbatch ha hw hc
  obtain ⟨m, hsend⟩ := sendFrame_completes fc hp hz (answersOk_of_nil hsink _)
  obtain ⟨b1, hpush, hb1, hframe, hlive⟩ := pushMany_fills (bs := encFrame fc p) hb hbatch he (by rwa [encFrame_length])
  have hconfig : b1.config = b.config := by rw [hframe]
  obtain ⟨n, b2, hrun, hshows, hend⟩ := service_accepts hb1 (by rw [hframe, hph]) (by rw [hframe, hfill]) hlive hp
    (by rwa [hconfig]) (by rwa [hconfig])
  have hall : Shows b b2 (acceptObs b.config fc p) := by
    refine Shows.before ?_ (hconfig ▸ hshows)
    rw [hframe]
    exact shows_nil rfl rfl rfl rfl rfl
  obtain ⟨hidle, hempty, hnone⟩ := hend
  refine ⟨_, transmitted (encFrame fc p), hsend, rfl, b1, ?_, n, b2, hrun, hidle, hempty, hnone, hall.trace, ?_⟩
  · rwa [emittedBytes_transmitted]
  · rw [hall.run, runAfter_acceptObs]

end Sys2Proof.Machine
end

section
/-! PROOFS. The statements of 44_system_properties.md on a scan of a list of bytes (R203, R211, R212): what one
iteration that moves on consumes and emits, added up along the scan. -/

namespace Sys2Proof.Machine

/-! ## One iteration -/

/-- An accepted frame shows EV_FRAME and its dispatch, and one event more if the dispatch did not replace RUN (R168). -/
theorem acceptObs_cases (k : Config) (fc : Byte) (p : List Byte) :
    acceptObs k fc p = [.event .frame p.length, .dispatch fc p.length p] ∨
    ∃ e, (e = .dlen ∨ e = .noHandler) ∧
      acceptObs k fc p = [.event .frame p.length, .dispatch fc p.length p, .event e 0] := by
  rw [acceptObs, dispatchObs]
  split
  · split
    · exact .inl rfl
    · exact .inr ⟨_, .inl rfl, rfl⟩
  · exact .inr ⟨_, .inr rfl, rfl⟩

/-- The events of a dispatch consume nothing, so an accepted frame consumes its own length (R211). -/
theorem consumed_acceptObs (k : Config) (fc : Byte) (p : List Byte) :
    ((acceptObs k fc p).map Obs.consumed).sum = frameLen p.length := by
  obtain h | ⟨e, rfl | rfl, h⟩ := acceptObs_cases k fc p <;> rw [h] <;> rfl

theorem events_acceptObs_le (k : Config) (fc : Byte) (p : List Byte) :
    ((acceptObs k fc p).filter Obs.isEvent).length ≤ 2 := by
  obtain h | ⟨e, -, h⟩ := acceptObs_cases k fc p <;> rw [h]
  · exact Nat.le_succ 1
  · exact Nat.le_refl 2

theorem countEvent_frame_acceptObs (k : Config) (fc : Byte) (p : List Byte) :
    countEvent .frame (acceptObs k fc p) = 1 := by
  obtain h | ⟨e, rfl | rfl, h⟩ := acceptObs_cases k fc p <;> rw [h] <;> rfl

/-- An iteration moves on by the bytes its events consume (R211). -/
theorem MovesOn.consumed {k : Config} {r : List Byte} {f : State → State} {os : List Obs} {n : Nat}
    (h : MovesOn k r f os n) : (os.map Obs.consumed).sum = n := by
  cases h with
  | noMarker | illegalCode | oversized | badChecksum => rfl
  | accepted => exact consumed_acceptObs k _ _

/-- An iteration emits at most one event for each byte it moves on by (R212). -/
theorem MovesOn.events_le {k : Config} {r : List Byte} {f : State → State} {os : List Obs} {n : Nat}
    (h : MovesOn k r f os n) : (os.filter Obs.isEvent).length ≤ n := by
  cases h with
  | noMarker | illegalCode | oversized => exact Nat.le_refl 1
  | badChecksum => exact Nat.le_add_left 1 _
  | accepted => exact (events_acceptObs_le k _ _).trans (by unfold frameLen; omega)

/-- An EV_FRAME costs the five bytes of a shortest frame (R212). -/
theorem MovesOn.frames_le {k : Config} {r : List Byte} {f : State → State} {os : List Obs} {n : Nat}
    (h : MovesOn k r f os n) : 5 * countEvent .frame os ≤ n := by
  cases h with
  | noMarker | illegalCode | oversized | badChecksum => exact Nat.zero_le _
  | accepted =>
    rw [countEvent_frame_acceptObs]
    unfold frameLen
    omega

/-! ## The scan -/

/-- Settles O42, by induction along the scan: each iteration that moves on keeps its events within the bytes it moves on
by. -/
theorem eventsAreBoundedByTheWindow : Obligations.EventsAreBoundedByTheWindow := by
  intro k r
  induction r using scan_induction (k := k) with
  | ends r f h =>
    rw [h.scanBytes]
    exact ⟨Nat.zero_le _, Nat.zero_le _, Nat.zero_add _⟩
  | moves r f os n h ih =>
    obtain ⟨-, hn⟩ := h.advance_le
    have hevents := h.events_le
    have hframes := h.frames_le
    have hconsumed := h.consumed
    rw [List.length_drop] at ih
    rw [h.scanBytes, List.filter_append, List.length_append, countEvent_append, List.map_append, List.sum_append]
    dsimp only
    omega

/-- A byte that is not the first sync byte, with a header's worth of bytes from it on, costs one EV_SYNC (R142). -/
theorem scanBytes_noise {k : Config} {b : Byte} {r : List Byte} (hb : b ≠ sync1) (h : 3 ≤ r.length) :
    scanBytes k (b :: r) = (.event .sync 0 :: (scanBytes k r).1, (scanBytes k r).2) := by
  match r, h with
  | _ :: _ :: _ :: _, _ => exact scanBytes_noMarker fun hm => hb hm.1

/-- Settles O39, by induction on the garbage, in front of a frame that is dispatched as O38 says. -/
theorem noiseCostsOneSyncEach : Obligations.NoiseCostsOneSyncEach := by
  intro k g fc p hg hp ha hw
  induction g with
  | nil => simpa [scanBytes_short] using encodedFrameIsDispatchedOnce k fc p [] hp ha hw
  | cons b g ih =>
    obtain ⟨hb, hg⟩ := List.forall_mem_cons.1 hg
    have hlen : 3 ≤ (g ++ encFrame fc p).length := by
      rw [List.length_append, encFrame_length, frameLen]
      omega
    rw [List.cons_append, scanBytes_noise hb hlen, ih hg]
    rfl

end Sys2Proof.Machine
end

section
/-! PROOFS. Byte conservation (R211): the bytes that have gone out of the window, and those that the observations
account for, grow by the same number in every effect. -/

namespace Sys2Proof.Machine

/-- The bytes taken and no longer waiting in the window to be scanned: an integer, since a state that no run reaches may
hold more in the window than was ever taken. -/
def bytesGone (s : State) : Int :=
  s.taken.length + (if s.ph = .scan ∨ s.ph = .compact then s.off else 0 : Nat) - s.fill

/-- The bytes that observations account for: those their events consumed and those that TAKE_BYTE requests returned, but
for the 0x00 of an underrun (R127). -/
def bytesShown (os : List Obs) : Int :=
  (os.map Obs.consumed).sum + tookRequested os - countEvent .underrun os

/-- `t` is `s` after observations that account for the bytes gone between them. -/
def Accounts (s t : State) : Prop :=
  ∃ os, t.trace = s.trace ++ os ∧ bytesGone t = bytesGone s + bytesShown os

theorem bytesConserved_iff (s : State) : BytesConserved s ↔ bytesGone s = bytesShown s.trace := by
  unfold BytesConserved bytesGone bytesShown
  omega

theorem bytesGone_of_scanning {s : State} (h : s.ph = .scan ∨ s.ph = .compact) :
    bytesGone s = s.taken.length + s.off - s.fill := by
  rw [bytesGone, if_pos h]

theorem bytesGone_of_not_scanning {s : State} (h : ¬(s.ph = .scan ∨ s.ph = .compact)) :
    bytesGone s = s.taken.length - s.fill := by
  rw [bytesGone, if_neg h, Int.natCast_zero, Int.add_zero]

theorem bytesGone_take (s : State) (rd : Nat) (v : Byte) :
    bytesGone { s with rd := rd, taken := s.taken ++ [v] } = bytesGone s + 1 := by
  simp only [bytesGone, List.length_append, List.length_singleton]
  omega

theorem bytesGone_advance {s : State} (n : Nat) (hp : s.ph = .scan) : bytesGone (advance n s) = bytesGone s + n := by
  have hp' : (advance n s).ph = .scan := hp
  rw [bytesGone_of_scanning (.inl hp'), bytesGone_of_scanning (.inl hp), advance_taken, advance_off, advance_fill]
  omega

/-- Compaction turns the scanned bytes into room, of which there are no more than the window holds (R153, R155). -/
theorem bytesGone_compact {s : State} (m : Memory) (hs : WindowInv s) (hp : s.ph = .compact) :
    bytesGone { s with sw := m, fill := s.fill - s.off, idx := s.fill - s.off, ph := .idle } = bytesGone s := by
  have hoff := off_le_fill hs (.inr hp)
  rw [bytesGone_of_scanning (.inr hp), bytesGone_of_not_scanning (by simp)]
  dsimp only
  omega

theorem tookRequested_append (xs ys : List Obs) :
    tookRequested (xs ++ ys) = tookRequested xs + tookRequested ys := by
  simp only [tookRequested, List.filter_append, List.length_append]

theorem bytesShown_append (xs ys : List Obs) : bytesShown (xs ++ ys) = bytesShown xs + bytesShown ys := by
  simp only [bytesShown, List.map_append, List.sum_append, tookRequested_append, countEvent_append]
  omega

theorem bytesShown_acceptObs (k : Config) (fc : Byte) (p : List Byte) :
    bytesShown (acceptObs k fc p) = frameLen p.length := by
  have hresults : tookRequested (acceptObs k fc p) = 0 ∧ countEvent .underrun (acceptObs k fc p) = 0 := by
    obtain h | ⟨e, rfl | rfl, h⟩ := acceptObs_cases k fc p <;> rw [h] <;> exact ⟨rfl, rfl⟩
  obtain ⟨htook, hunderrun⟩ := hresults
  rw [bytesShown, consumed_acceptObs, htook, hunderrun]
  omega

theorem Accounts.bytesConserved {s t : State} (h : Accounts s t) (hs : BytesConserved s) : BytesConserved t := by
  obtain ⟨os, htrace, hgone⟩ := h
  rw [bytesConserved_iff] at hs ⊢
  rw [hgone, hs, htrace, bytesShown_append]

/-! ## Effects by which no byte goes -/

/-- Observations that account for no byte, shown where no byte goes. -/
theorem accounts_of_shown {s t : State} {os : List Obs} (ht : t.trace = s.trace ++ os) (ho : bytesShown os = 0)
    (hg : bytesGone t = bytesGone s) : Accounts s t :=
  ⟨os, ht, by rw [ho, Int.add_zero, hg]⟩

theorem accounts_of_silent {s t : State} (ht : t.trace = s.trace) (hg : bytesGone t = bytesGone s) : Accounts s t :=
  accounts_of_shown (ht.trans (List.append_nil _).symm) rfl hg

theorem SameButWaiting.accounts {s u : State} (h : SameButWaiting s u) : Accounts s u := by
  rw [h.same]
  exact accounts_of_silent rfl rfl

/-- The scan begins at offset 0, so the gate lets no byte go (R139, R140). -/
theorem accounts_gateTurn {s : State} (hp : s.ph = .gate) : Accounts s (gateTurn s) := by
  unfold gateTurn
  split <;> exact accounts_of_silent rfl (by simp [bytesGone, hp])

theorem accounts_serializeByte (b : Byte) (s : State) : Accounts s (serializeByte b s) := by
  rcases serializeByte_cases b s with ⟨-, h⟩ | ⟨-, -, -, h⟩ | ⟨-, -, -, h⟩ | ⟨-, -, h⟩ <;> rw [h]
  case inr.inr.inr => exact accounts_of_shown (List.append_assoc _ _ _) rfl rfl
  all_goals exact accounts_of_shown (os := [.transmit b (sinkAnswer s)]) rfl rfl rfl

/-! ## The scan iteration -/

/-- An iteration that moves `OFF` on by the bytes its observations account for. -/
theorem accounts_advance {s u : State} {os : List Obs} {n : Nat} (hp : u.ph = .scan) (ht : u.trace = s.trace ++ os)
    (ho : bytesShown os = n) (hg : bytesGone u = bytesGone s) : Accounts s (advance n u) :=
  ⟨os, ht, by rw [bytesGone_advance n hp, hg, ho]⟩

theorem Scanned.accounts {s t : State} (h : Scanned s t) (hp : s.ph = .scan) : Accounts s t := by
  cases h with
  | ended | endedLatched => exact accounts_of_silent rfl (by simp [bytesGone, hp, latch])
  | noMarker => exact accounts_advance (os := [.event .sync 0]) hp rfl rfl rfl
  | illegalCode fc => exact accounts_advance (os := [.event .fc 0]) hp rfl rfl rfl
  | oversized fc l => exact accounts_advance (os := [.event .oversize l]) hp rfl rfl rfl
  | badChecksum fc p => exact accounts_advance (os := [.event .cks p.length]) hp rfl rfl rfl
  | accepted fc p =>
    refine accounts_advance (os := acceptObs s.config fc p) ?_ ?_ (bytesShown_acceptObs _ _ _) ?_
    · rw [dispatchOp_frame]
      exact hp
    · exact (dispatchOp_trace _ _ _).trans (List.append_assoc _ _ _)
    · rw [dispatchOp_frame]
      rfl

/-! ## Every step -/

/-- Every effect keeps the account: a take adds a byte that TAKE_BYTE shows, a scan iteration the bytes its events
consume, and no other effect lets a byte go. -/
theorem Effect.accounts {s t : State} (h : Effect s t) (hs : WindowInv s) : Accounts s t := by
  cases h with
  | nothing | stored | built | sendEnded => exact accounts_of_silent rfl rfl
  | dropped => exact accounts_of_shown (os := [.event .drop 0]) rfl rfl rfl
  | shown o ho => obtain rfl | rfl | rfl := ho <;> exact accounts_of_shown rfl rfl rfl
  | took v => exact ⟨[.tookByte v], rfl, bytesGone_take s (incC s.config s.rd) v⟩
  | underrun => exact accounts_of_shown (List.append_assoc _ _ _) rfl rfl
  | passBegun hp | drainEnded hp => exact accounts_of_silent rfl (by simp [bytesGone, hp])
  | drained v hp => exact accounts_of_silent rfl (by simp [bytesGone, hp])
  | gated hp => exact accounts_gateTurn hp
  | scanned t hp ht => exact ht.accounts hp
  | compacted m hp => exact accounts_of_silent rfl (bytesGone_compact m hs hp)
  | offered b => exact accounts_serializeByte b s

/-- Settles O25: RESET clears both sides of the account, every other step adds the same to both, and between passes the
account is the count without `OFF`. -/
theorem everyTakenByteIsAccountedFor : Obligations.EveryTakenByteIsAccountedFor := by
  refine ⟨fun s t hs hb h => ?step, fun s hb hp htook hunderrun => ?idle⟩
  case step =>
    obtain ⟨u, hu, ⟨-, rfl⟩ | he⟩ := step_next_cases h
    · exact (rfl : BytesConserved (resetOp u))
    · exact (he.accounts (hu.inv hs).window).bytesConserved (hu.accounts.bytesConserved hb)
  case idle => simpa [BytesConserved, hp, htook, hunderrun] using hb

end Sys2Proof.Machine
end

section
/-! PROOFS. The statement of 70_reset_and_hazards.md: with nothing issued a step changes nothing (R245). -/

namespace Sys2Proof.Machine

/-- With no batch, send or pass in progress and nothing held, the default turn is the request turn (R116). -/
theorem defaultTurn_eq_request {s : State} (hbatch : s.batch = []) (htx : s.txlen = 0) (hsends : s.heldSends = [])
    (hph : s.ph = .idle) (hservices : s.heldServices = 0) : defaultTurn s = .request := by
  simp [defaultTurn, txBusy, svcBusy, hbatch, htx, hsends, hph, hservices]

/-- A request turn with no request waiting keeps the state. -/
theorem stepTurn_request_nil {s : State} (h : s.requests = []) : stepTurn .request s = .next s := by
  rw [stepTurn_eq, takeTurn, requestTurn, h, decodeOp]

/-- Settles O9: the step is a request turn, it finds no request, and there was no turn to use up. -/
theorem nothingRunsUnrequested : Obligations.NothingRunsUnrequested := by
  intro s hturns hrequests hbatch htx hsends hph hservices
  have hturn : nextTurn s = .request := by
    rw [nextTurn, hturns]
    exact defaultTurn_eq_request hbatch htx hsends hph hservices
  have hkept : { s with turns := s.turns.tail } = s := by rw [hturns, List.tail_nil, ← hturns]
  rw [step_of_nextTurn hturn, hkept, stepTurn_request_nil hrequests]

end Sys2Proof.Machine
end
